-- ==== Sys2Proof/Word.lean ====
section
/-! DEFINITION. The values the SCRYPT engine computes with (R9, R11): bytes, 32-bit words, byte
strings and the 16-word Salsa blocks, with the two width-preserving word operations of R12. -/

namespace Sys2Proof

/-- An unsigned 8-bit value (R11). -/
abbrev Byte := BitVec 8

/-- An unsigned 32-bit value (R9, R11): a Salsa word, a register, a host address. -/
abbrev Word := BitVec 32

/-- A byte string `s[0] .. s[|s|-1]` (R11). -/
abbrev Bytes := List Byte

/-- A list of 16 words, 64 bytes (R11). -/
abbrev Block := Vector Word 16

/-- `zeros(n)`, n zero bytes (R11). -/
abbrev zeros (n : Nat) : Bytes := List.replicate n 0

/-- The all-zero block `0^16` (R17, R84). -/
def zeroBlock : Block := Vector.replicate 16 0

end Sys2Proof
end

