-- ==== Sys2Proof/Syntax.lean ====
section
/-! DEFINITION. The engine's "instruction set" (R2): the 17 command words of R69, the three fields of
a command word (R65), and the events of the outside world, which are the host's bus accesses (R46)
and the platform's reset input (R147). -/

namespace Sys2Proof

/-- The seek origin ORG of STREAM_SEEK (R65, R114). -/
inductive SeekOrigin where
  | fromBegin
  | fromCurrent
  | fromEnd
deriving DecidableEq, Repr

/-- One constructor for each row of the opcode map (R69).  No command carries an operand in its
word other than ORG (R67), and the map gives each origin a row of its own. -/
inductive Instr where
  | nop
  | salsa
  | blockmix
  | smix
  | mixAll
  | pbkdf2Fill
  | effectiveSalt
  | openScrypt
  | openPbkdf2
  | streamRead
  | streamSeekBegin
  | streamSeekCurrent
  | streamSeekEnd
  | streamWrite
  | streamSetlen
  | close
  | zeroize
deriving DecidableEq, Repr

/-- The fields of the one command format CW (R65). -/
structure CommandFields where
  /-- OPC, bits [7:0]. -/
  opc : BitVec 8
  /-- ORG, bits [9:8]. -/
  org : BitVec 2
  /-- RSVD, bits [31:10]. -/
  rsvd : BitVec 22
deriving DecidableEq, Repr

/-- The size of a host access: 1, 2 or 4 bytes (R46). -/
inductive AccessSize where
  | one
  | two
  | four
deriving DecidableEq, Repr

/-- The number of bytes of an access (R46). -/
def AccessSize.bytes : AccessSize → Nat
  | .one => 1
  | .two => 2
  | .four => 4

/-- A host access `(kind, addr, size, data)` (R46).  A write of n bytes takes the low 8n bits of its
data. -/
inductive HostAccess where
  | read (addr : Word) (size : AccessSize)
  | write (addr : Word) (size : AccessSize) (data : Word)
deriving DecidableEq, Repr

/-- One event of the schedule (R13, R140, R157): which agent takes the next step.  Host accesses and
the engine's own steps never happen at once; each is ordered before or after the other. -/
inductive Input where
  /-- The host issues one bus access (R46). -/
  | access (a : HostAccess)
  /-- The platform asserts the reset input (R147, R148). -/
  | resetAssert
  /-- The platform deasserts the reset input (R147). -/
  | resetRelease
  /-- The sequencer takes its turn: a running command runs and completes (R128). -/
  | engineTurn
deriving DecidableEq, Repr

end Sys2Proof
end

