-- ==== Sys2Proof/Config.lean ====
section
/-! DEFINITION. What an implementation of the engine fixes (R8): the named parameters, as plain data
a `State` carries and no step writes, HMAC among them, and the open functions an injected HMAC can be
(R104, D47). -/

namespace Sys2Proof

/-- The HMAC binding (R4, R29): 0 is HMAC-SHA256, 1 is HMAC-SHA512. -/
inductive Binding where
  | sha256
  | sha512
deriving DecidableEq, Repr

/-- `hLen(s)`, the tag length in bytes of a binding (R104). -/
def Binding.hLen : Binding → Nat
  | .sha256 => 32
  | .sha512 => 64

/-- The parameter HMAC of R8, "a function per binding", as plain data: the default of R8's table, or a
function injected from outside (R104), named by a number.  `Sys2Proof.Machine.hmacOf` is the function a
choice stands for.  Log entry 2. -/
inductive HmacChoice where
  /-- HMAC-SHA256 and HMAC-SHA512, the default (R8, R105). -/
  | standard
  /-- The k-th injected function family, of which nothing is known (R104, D47). -/
  | injected (k : Nat)
deriving DecidableEq, Repr

/-- The implementation parameters of R8, and ENGINE_BASE of R44 (D44).  RESET_ACCESS (R147) is the refusal `accessDuringReset`. -/
structure Params where
  /-- W_HW, the number of worker units. -/
  wHw : Nat
  /-- KEY_MAX, bytes of the KEY window. -/
  keyMax : Nat
  /-- SALT_MAX, bytes of the SALT window. -/
  saltMax : Nat
  /-- B_BYTES, bytes of the working buffer B. -/
  bBytes : Nat
  /-- OUT_BYTES, bytes of the OUT window. -/
  outBytes : Nat
  /-- VLANE_BYTES, bytes of scratch memory in each worker unit. -/
  vlaneBytes : Nat
  /-- HAS_SHA512, whether the HMAC-SHA512 binding is built. -/
  hasSha512 : Bool
  /-- HMAC, the injected HMAC function family (R104). -/
  hmac : HmacChoice
  /-- ENGINE_BASE, added to every address of the map of R44. -/
  engineBase : Word
deriving DecidableEq, Repr

/-- The defaults of R8's table, "the spec's choice for this hardware"; ENGINE_BASE is 0 as in the
spec's examples (R44). -/
def Params.default : Params where
  wHw := 4
  keyMax := 1024
  saltMax := 1024
  bBytes := 65536
  outBytes := 4096
  vlaneBytes := 2 ^ 24
  hasSha512 := true
  hmac := .standard
  engineBase := 0

/-- The type of an HMAC function family (R104): a key and a message of any lengths to a tag of exactly
`hLen(s)` bytes, for each binding s. -/
abbrev HmacFn := (s : Binding) → Bytes → Bytes → Vector Byte s.hLen

/-- The function families that can be injected, left open (R104, D47: "The model assumes nothing of HMAC_s
except that it is a function of (s, key, msg)").  It has no body: no proof can see a value of it.  Log
entry 2. -/
opaque Config.hmac : Nat → HmacFn

end Sys2Proof
end

