-- ==== Sys2Proof/WellFormed.lean ====
section
/-! DEFINITION. The checks on syntax: which field values form a command word (R65, R70), which data
a host write may carry (R46), and which parameter values an implementation may have (R8). -/

namespace Sys2Proof

/-- The fields form one of the 17 words of R69: RSVD is 0, OPC is at most 0x0E, and ORG is 0 unless
OPC is 0x0A, where it is not 3 (R65, R70). -/
def CommandFields.wf (f : CommandFields) : Bool :=
  f.rsvd == 0 && decide (f.opc ≤ 0x0E#8) && (if f.opc == 0x0A#8 then f.org != 3 else f.org == 0)

/-- A write of n bytes carries 8n bits of data (R46). -/
def HostAccess.wf : HostAccess → Bool
  | .read _ _ => true
  | .write _ size data => decide (data.toNat < 2 ^ (8 * size.bytes))

/-- The legal ranges of R8's table.  ENGINE_BASE is a multiple of 4, so that an address and its
offset are aligned alike (log entry 9). -/
def Params.wf (c : Params) : Bool :=
  decide (1 ≤ c.wHw ∧ c.wHw ≤ 255)
    && decide (1 ≤ c.keyMax ∧ c.keyMax ≤ 65536)
    && decide (1 ≤ c.saltMax ∧ c.saltMax ≤ 65536 ∧ c.saltMax ≤ c.bBytes)
    && decide (128 ≤ c.bBytes ∧ c.bBytes ≤ 2 ^ 20 ∧ c.bBytes % 128 = 0)
    && decide (1 ≤ c.outBytes ∧ c.outBytes ≤ 65536)
    && decide (128 ≤ c.vlaneBytes ∧ c.vlaneBytes ≤ 2 ^ 31 ∧ c.vlaneBytes % 128 = 0)
    && decide (c.engineBase.toNat % 4 = 0)

end Sys2Proof
end

