-- ==== Sys2Proof/Decode.lean ====
section
/-! DEFINITION. Decoding a command word, total on the 2^32 words and rejecting by name (R70, R71), and
the encoder written from the same tables (R65, R69). -/

namespace Sys2Proof

/-- Why a command word is illegal: the four disjoint grounds, tested in the order of R71.  Each ends
in the one completion code ILLEGAL_COMMAND (R70); the names are the decoder's own. -/
inductive Illegal where
  /-- RSVD is not 0. -/
  | reservedBits
  /-- OPC is 0x0F to 0xFF. -/
  | opcodeOutOfRange
  /-- ORG is 3 on a STREAM_SEEK. -/
  | reservedOrigin
  /-- ORG is not 0 on a command that is not STREAM_SEEK. -/
  | originOnNonSeek
deriving DecidableEq, Repr

/-- The fields of a command word (R65): OPC [7:0], ORG [9:8], RSVD [31:10]. -/
def fieldsOf (cw : Word) : CommandFields where
  opc := cw.extractLsb' 0 8
  org := cw.extractLsb' 8 2
  rsvd := cw.extractLsb' 10 22

/-- The command word of the given fields (R65). -/
def wordOf (f : CommandFields) : Word := f.rsvd ++ f.org ++ f.opc

/-- The command of an operation code with ORG 0 (R69); none above 0x0E. -/
def opcodeTable (opc : Nat) : Option Instr :=
  match opc with
  | 0x00 => some .nop
  | 0x01 => some .salsa
  | 0x02 => some .blockmix
  | 0x03 => some .smix
  | 0x04 => some .mixAll
  | 0x05 => some .pbkdf2Fill
  | 0x06 => some .effectiveSalt
  | 0x07 => some .openScrypt
  | 0x08 => some .openPbkdf2
  | 0x09 => some .streamRead
  | 0x0A => some .streamSeekBegin
  | 0x0B => some .streamWrite
  | 0x0C => some .streamSetlen
  | 0x0D => some .close
  | 0x0E => some .zeroize
  | _ => none

/-- The STREAM_SEEK of an origin code (R69, R71); 3 is reserved. -/
def originTable (org : Nat) : Option Instr :=
  match org with
  | 0 => some .streamSeekBegin
  | 1 => some .streamSeekCurrent
  | 2 => some .streamSeekEnd
  | _ => none

/-- Decoding as R71 writes it, on the fields of a word. -/
def decodeFields (f : CommandFields) : Except Illegal Instr :=
  if f.rsvd ≠ 0 then .error .reservedBits
  else
    match opcodeTable f.opc.toNat with
    | none => .error .opcodeOutOfRange
    | some i =>
      if f.opc = 0x0A#8 then
        match originTable f.org.toNat with
        | none => .error .reservedOrigin
        | some j => .ok j
      else if f.org ≠ 0 then .error .originOnNonSeek
      else .ok i

/-- Decoding of a command word, a total function of the word alone (R66, R71). -/
def decode (cw : Word) : Except Illegal Instr := decodeFields (fieldsOf cw)

/-- The field values of each command, from the OPC and ORG columns of R69. -/
def Instr.fields : Instr → CommandFields
  | .nop => ⟨0x00, 0, 0⟩
  | .salsa => ⟨0x01, 0, 0⟩
  | .blockmix => ⟨0x02, 0, 0⟩
  | .smix => ⟨0x03, 0, 0⟩
  | .mixAll => ⟨0x04, 0, 0⟩
  | .pbkdf2Fill => ⟨0x05, 0, 0⟩
  | .effectiveSalt => ⟨0x06, 0, 0⟩
  | .openScrypt => ⟨0x07, 0, 0⟩
  | .openPbkdf2 => ⟨0x08, 0, 0⟩
  | .streamRead => ⟨0x09, 0, 0⟩
  | .streamSeekBegin => ⟨0x0A, 0, 0⟩
  | .streamSeekCurrent => ⟨0x0A, 1, 0⟩
  | .streamSeekEnd => ⟨0x0A, 2, 0⟩
  | .streamWrite => ⟨0x0B, 0, 0⟩
  | .streamSetlen => ⟨0x0C, 0, 0⟩
  | .close => ⟨0x0D, 0, 0⟩
  | .zeroize => ⟨0x0E, 0, 0⟩

/-- Every command is well formed when its fields are (R65): no constructor carries an operand. -/
def Instr.wf (i : Instr) : Bool := i.fields.wf

/-- The operation code of a command (R65), the OPC field ERR_CODE records (R25). -/
def Instr.opc (i : Instr) : Byte := i.fields.opc

/-- The command word of a command (R69). -/
def encode (i : Instr) : Word := wordOf i.fields

/-- The instruction the decoder reads from a table row's bits.  A command is exactly one 32-bit word
(R66): bits of `w` above `nbits` are taken as 0, and a number that needs more than 32 bits is no
command word. -/
def decodeTableWord (nbits w : Nat) : Option Instr :=
  let v := w % 2 ^ nbits
  if v < 2 ^ 32 then (decode (BitVec.ofNat 32 v)).toOption else none

end Sys2Proof
end

