-- ==== Sys2Proof/Machine/State.lean ====
section
/-! DEFINITION. The state of the engine as plain data: every register, byte space, hidden register and
loop counter the spec names, the outside world's pending events, and the state after reset. -/

namespace Sys2Proof.Machine

/-- One internal byte space (R43): the bytes that are not zero, as (offset, byte) cells with strictly
rising offsets.  An offset that is not listed reads as zero, the reset contents of every space (R37,
R42, R148). -/
abbrev Mem := List Host.Cell

/-- ENGINE_STATE (R18): IDLE, or RUNNING(cw) with the command word being run. -/
inductive EngineState where
  | idle
  | running (cw : Word)
deriving DecidableEq, Repr

/-- The phase of the SMix schedule of R92 a unit is in (R19); `idle` when it runs none. -/
inductive Phase where
  | idle
  | load
  | fill
  | mix
  | writeback
  | wipe
deriving DecidableEq, Repr

/-- The mixing registers a worker unit and the sequencer each hold (R15, R16, R19). -/
structure MixRegs where
  /-- The Salsa working register file `X[0..15]` (R15). -/
  x : Block
  /-- The Salsa input snapshot `Z[0..15]` (R15). -/
  z : Block
  /-- The BlockMix running block `Q[0..15]` (R16). -/
  q : Block
  /-- The BlockMix output buffer Y of 2r blocks (R16).  `[]` is the cleared buffer (log entry 16). -/
  y : List Block
  /-- The SMix state S of 32r words, as 2r blocks (R16).  `[]` is the cleared state. -/
  s : List Block
  /-- The table entry T read in phase MIX (R92).  `[]` is the cleared entry. -/
  t : List Block
  /-- The phase of the schedule (R19). -/
  phase : Phase
  /-- The loop index i of phases FILL and MIX (R19). -/
  idx : Nat
  /-- The sub-block index of BlockMix (R19). -/
  sub : Nat
deriving DecidableEq, Repr

/-- The mixing registers as R17 requires them whenever the sequencer is IDLE. -/
def MixRegs.zero : MixRegs where
  x := zeroBlock
  z := zeroBlock
  q := zeroBlock
  y := []
  s := []
  t := []
  phase := .idle
  idx := 0
  sub := 0

/-- The PBKDF2 accumulators U and T (R17, R106) and the loop state of the block function (R19). -/
structure PbkRegs where
  u : Bytes
  t : Bytes
  /-- The block index i of `F_s(K, S, c, i)`. -/
  blk : Word
  /-- How many of U1 .. Uc have been computed. -/
  count : Nat
deriving DecidableEq, Repr

/-- The accumulators as R17 requires them whenever the sequencer is IDLE. -/
def PbkRegs.zero : PbkRegs where
  u := []
  t := []
  blk := 0
  count := 0

/-- `wstate_w` (R41): what worker unit w is doing while lanes are mixed. -/
inductive WorkerState where
  | idle
  | claiming
  | mixing (lane : Nat)
  | done
deriving DecidableEq, Repr

/-- One worker unit (R13, R15, R16, R37, R41). -/
structure Worker where
  /-- `wstate_w` (R41). -/
  wstate : WorkerState
  /-- The unit's mixing registers (R15, R16). -/
  regs : MixRegs
  /-- The unit's scratch memory V_w (R37, R43). -/
  v : Mem
deriving DecidableEq, Repr

/-- A worker unit when no command runs: IDLE, scratch registers and V_w zero (R17, R41). -/
def Worker.quiet : Worker where
  wstate := .idle
  regs := .zero
  v := []

/-- The control registers of R21 the host writes and only the host writes: the operands of R67.
ROUNDS is 8 bits wide and HMAC_SEL one bit, their other bits reading 0 (R28, R29). -/
structure OperandRegs where
  /-- N (R27). -/
  n : Word
  /-- R (R27). -/
  r : Word
  /-- P (R27). -/
  p : Word
  /-- MAX_THREADS (R27). -/
  maxThreads : Word
  /-- ROUNDS bits [7:0] (R28). -/
  rounds : Byte
  /-- HMAC_SEL bit [0] (R29). -/
  hmacSel : Bool
  /-- ITER (R30). -/
  iter : Word
  /-- KEYLEN (R31). -/
  keyLen : Word
  /-- SALTLEN (R31). -/
  saltLen : Word
  /-- LANE (R32). -/
  lane : Word
  /-- READ_LEN (R33). -/
  readLen : Word
  /-- SEEK_OFF_LO (R34). -/
  seekOffLo : Word
  /-- SEEK_OFF_HI (R34). -/
  seekOffHi : Word
deriving DecidableEq, Repr

/-- The "reset" column of R21 for the operand registers: 0 for all but ROUNDS = 8. -/
def OperandRegs.reset : OperandRegs where
  n := 0
  r := 0
  p := 0
  maxThreads := 0
  rounds := 8
  hmacSel := false
  iter := 0
  keyLen := 0
  saltLen := 0
  lane := 0
  readLen := 0
  seekOffLo := 0
  seekOffHi := 0

/-- The stream's private state (R38).  `skey` and `ssalt` are the byte strings of the stated lengths
held in the spaces SKEY and SSALT (R43). -/
structure Stream where
  /-- `open`. -/
  isOpen : Bool
  /-- The space SKEY. -/
  skey : Mem
  /-- The length of `skey` in bytes. -/
  skeyLen : Nat
  /-- The space SSALT. -/
  ssalt : Mem
  /-- The length of `ssalt` in bytes. -/
  ssaltLen : Nat
  /-- `siter`, the iteration count. -/
  siter : Word
  /-- `ssel`, the HMAC binding latched at open. -/
  ssel : Binding
  /-- `pos`, an integer 0 <= pos < 2^63. -/
  pos : Nat
  /-- `cache_valid`. -/
  cacheValid : Bool
  /-- `cache_idx`. -/
  cacheIdx : Word
  /-- `cache_bytes`, hLen(ssel) bytes. -/
  cacheBytes : Bytes
deriving DecidableEq, Repr

/-- The closed stream with the values R38 gives it at reset, which are those CLOSE leaves (R118). -/
def Stream.closed : Stream where
  isOpen := false
  skey := []
  skeyLen := 0
  ssalt := []
  ssaltLen := 0
  siter := 0
  ssel := .sha256
  pos := 0
  cacheValid := false
  cacheIdx := 0
  cacheBytes := zeros 32

/-- What the host is answered (R46): OKAY or ERROR, and for a read a value of 8·size bits, held in a
word whose other bits are 0 (a write answers 0). -/
structure Response where
  okay : Bool
  value : Word
deriving DecidableEq, Repr

/-- The state of the engine and of the lines into it. -/
structure State where
  /-- The implementation parameters (R8), fixed for the machine: no step writes them. -/
  cfg : Params
  /-- ENGINE_STATE (R18); STATUS.BUSY reads whether it is RUNNING (R24). -/
  engine : EngineState
  /-- STATUS.DONE (R24). -/
  done : Bool
  /-- STATUS.ERR (R24). -/
  err : Bool
  /-- STATUS.OVERRUN (R24). -/
  overrun : Bool
  /-- ERR_CODE bits [7:0], CODE (R25). -/
  errCode : Byte
  /-- ERR_CODE bits [15:8], OPC (R25). -/
  errOpc : Byte
  /-- CTRL.IRQ_EN (R26). -/
  irqEn : Bool
  /-- The operand registers of R21. -/
  regs : OperandRegs
  /-- READ_COUNT (R33). -/
  readCount : Word
  /-- The space KEY (R43). -/
  key : Mem
  /-- The space SALT (R43). -/
  salt : Mem
  /-- The space B (R43). -/
  b : Mem
  /-- The space OUT (R43). -/
  out : Mem
  /-- The stream (R38): its spaces SKEY and SSALT, cursor and cached block. -/
  stream : Stream
  /-- The claim counter (R39). -/
  claim : Nat
  /-- The sequencer's mixing registers (R15, R16). -/
  seq : MixRegs
  /-- The PBKDF2 accumulators and loop state (R17, R19). -/
  pbk : PbkRegs
  /-- The worker units w = 0 .. W_HW-1 (R13). -/
  units : List Worker
  /-- The reset input, true while it is asserted (R147). -/
  resetLine : Bool
  /-- The model's own field, not the spec's: the events to come, first to come first (log entry 5). -/
  inputs : List Input
  /-- The model's own field: the answer to the last host access, none before the first (log entry
  10). -/
  resp : Option Response
  /-- The model's own field: which worker unit takes the next claim or mix step, a free choice of the
  hardware (I11, R102); when it runs out, the lowest-numbered unit that can move does (log entry
  4). -/
  workerTurns : List Nat
deriving DecidableEq, Repr

/-- Why a step can end in a fault.  The engine takes no traps and every error of a command is a
completion code (R141), so there is none: the type is empty. -/
inductive Fault where
deriving DecidableEq, Repr

/-- Why a step can be refused. -/
inductive Refusal where
  /-- An instruction whose meaning is not written yet; raised by `exec` only.  Safe: nothing is
  claimed of it.  No arm raises it now. -/
  | notModelled (mnemonic : String)
  /-- A host access issued while reset is asserted, which "a host must not issue" and whose effect
  "is not specified: it is the parameter RESET_ACCESS" (R147, D46, I5: `refuse`); raised by `step`.
  Safe: the run ends where the spec says nothing. -/
  | accessDuringReset
deriving DecidableEq, Repr

/-- The state after reset of an engine with the given parameters (R42, R148): every piece of state at
its reset value.  The outside world's events to come are not the engine's state and are empty here
(log entries 4, 5, 10). -/
def State.resetWith (c : Params) : State where
  cfg := c
  engine := .idle
  done := false
  err := false
  overrun := false
  errCode := 0
  errOpc := 0
  irqEn := false
  regs := .reset
  readCount := 0
  key := []
  salt := []
  b := []
  out := []
  stream := .closed
  claim := 0
  seq := .zero
  pbk := .zero
  units := List.replicate c.wHw .quiet
  resetLine := false
  inputs := []
  resp := none
  workerTurns := []

/-- The engine right after reset, with the default parameters of R8. -/
def State.reset : State := .resetWith .default

end Sys2Proof.Machine
end

