-- ==== Sys2Proof/Machine/Ops.lean ====
section
/-! DEFINITION. The named operations over byte spaces and words (R11, R48, R52, R53) and the two shared
steps of a command's life: acceptance (R129) and completion (R130), the engine's counterpart of taking
and leaving an exception (R141). -/

namespace Sys2Proof.Machine

/-! ## Byte spaces -/

/-- The one canonical form of a space: offsets strictly rising, and no cell that holds the byte an
unlisted offset reads as. -/
def Mem.wf (m : Mem) : Bool :=
  decide (m.Pairwise fun c d => c.1 < d.1) && m.all fun c => c.2 != 0

/-- Every listed offset is inside a space of n bytes. -/
def Mem.within (n : Nat) (m : Mem) : Bool := m.all fun c => decide (c.1 < n)

/-- The byte at an offset: 0 where nothing but zero was written since reset (R42). -/
def Mem.read (m : Mem) (a : Nat) : Byte := (m.lookup a).getD 0

/-- `MemRead(space, a, n)`, the n-byte string at offset a (R11). -/
def Mem.readBytes (m : Mem) (a n : Nat) : Bytes := (List.range n).map fun k => m.read (a + k)

/-- The cells of a byte string placed at an offset: zero bytes are not listed. -/
def Mem.cells : Nat → Bytes → Mem
  | _, [] => []
  | a, v :: vs => if v = 0 then Mem.cells (a + 1) vs else (a, v) :: Mem.cells (a + 1) vs

/-- `MemWrite(space, a, |v|, v)` (R11): the cells below and above the written range stay. -/
def Mem.writeBytes (m : Mem) (a : Nat) (v : Bytes) : Mem :=
  (m.filter fun c => decide (c.1 < a)) ++ Mem.cells a v
    ++ m.filter fun c => decide (a + v.length ≤ c.1)

/-- `MemWrite(space, a, n, zeros(n))`: the written range becomes zero. -/
def Mem.wipe (m : Mem) (a n : Nat) : Mem :=
  m.filter fun c => decide (c.1 < a) || decide (a + n ≤ c.1)

/-- The space whose first bytes are a byte string, and whose other bytes are zero. -/
def Mem.ofBytes (v : Bytes) : Mem := Mem.cells 0 v

/-! ## Words, blocks and byte order -/

/-- `be32(i)` (R11, R53): the four bytes of a word, most significant first. -/
def be32 (i : Word) : Bytes :=
  [i.extractLsb' 24 8, i.extractLsb' 16 8, i.extractLsb' 8 8, i.extractLsb' 0 8]

/-- `le32(w)` (R11): the four bytes of a word, least significant first. -/
def le32 (w : Word) : Bytes :=
  [w.extractLsb' 0 8, w.extractLsb' 8 8, w.extractLsb' 16 8, w.extractLsb' 24 8]

/-- `LEWords(s)` (R52): word k is the little-endian reading of bytes 4k to 4k+3. -/
def leWords : Bytes → List Word
  | b0 :: b1 :: b2 :: b3 :: rest => (b3 ++ b2 ++ b1 ++ b0 : BitVec 32) :: leWords rest
  | _ => []

/-- `LEBytes(w)` (R52), the inverse of `LEWords`. -/
def leBytes (ws : List Word) : Bytes := ws.flatMap le32

/-- `B_k`, the k-th block of a word list: words 16k to 16k+15 (R11). -/
def blockAt (ws : List Word) (k : Nat) : Block := Vector.ofFn fun i => ws.getD (16 * k + i.val) 0

/-- A word list cut into its blocks (R11). -/
def blocksOf (ws : List Word) : List Block := (List.range (ws.length / 16)).map (blockAt ws)

/-- The words of a list of blocks, in order. -/
def wordsOf (bs : List Block) : List Word := bs.flatMap fun b => b.toList

/-- `LEBytes` of a list of blocks (R52). -/
def blockBytes (bs : List Block) : Bytes := leBytes (wordsOf bs)

/-- The blocks of n bytes of a space at an offset: `LEWords(MemRead(space, a, n))` as blocks. -/
def Mem.readBlocks (m : Mem) (a n : Nat) : List Block := blocksOf (leWords (m.readBytes a n))

/-- Word-wise combination of two blocks. -/
def zipBlock (f : Word → Word → Word) (a b : Block) : Block := Vector.ofFn fun i => f a[i] b[i]

/-- `a xor b` of two blocks, word by word (R86). -/
def xorBlock (a b : Block) : Block := zipBlock (· ^^^ ·) a b

/-- `a xor b` of two lane states, word by word over all their blocks (R91). -/
def xorBlocks (a b : List Block) : List Block := List.zipWith xorBlock a b

/-- `a xor b` of two byte strings of equal length (R11). -/
def xorBytes (a b : Bytes) : Bytes := List.zipWith (· ^^^ ·) a b

/-! ## Error codes, acceptance and completion -/

/-- The error codes of R132. -/
inductive ErrorCode where
  | none
  | invalidParameter
  | resourceExhausted
  | unsupportedOperation
  | illegalCommand
  | streamClosed
deriving DecidableEq, Repr

/-- The CODE value of an error (R132); 6 to 255 are never written. -/
def ErrorCode.code : ErrorCode → Byte
  | .none => 0
  | .invalidParameter => 1
  | .resourceExhausted => 2
  | .unsupportedOperation => 3
  | .illegalCommand => 4
  | .streamClosed => 5

/-- Acceptance of a command word (R129): RUNNING(cw), DONE and ERR cleared, nothing else. -/
def State.accept (cw : Word) (s : State) : State :=
  { s with engine := .running cw, done := false, err := false }

/-- "Every worker unit IDLE, the claim counter 0 and every scratch register and V_w zero" (R130, R17). -/
def State.quieten (s : State) : State :=
  { s with claim := 0, seq := .zero, pbk := .zero, units := s.units.map fun _ => Worker.quiet }

/-- Completion of a command with operation code `opc` and error code e (R130): IDLE, DONE set, ERR set
exactly when e is not 0, ERR_CODE = (opc << 8) or e, the scratch cleared.  The results of a command that
succeeds are in `s` already; one that fails has written none (R136). -/
def State.complete (opc : Byte) (e : ErrorCode) (s : State) : State :=
  { s.quieten with
    engine := .idle
    done := true
    err := decide (e ≠ .none)
    errCode := e.code
    errOpc := opc }

end Sys2Proof.Machine
end

