-- ==== Sys2Proof/Machine/Flags.lean ====
section
/-! DEFINITION. The engine's flags, which are the fields of STATUS (R20, R24), the ERR_CODE register
(R25) and the interrupt output (R139). -/

namespace Sys2Proof.Machine

/-- STATUS.BUSY: ENGINE_STATE is RUNNING (R18, R24). -/
def State.busy (s : State) : Bool :=
  match s.engine with
  | .idle => false
  | .running _ => true

/-- The interrupt output IRQ, the level `STATUS.DONE and CTRL.IRQ_EN` (R139). -/
def State.irq (s : State) : Bool := s.done && s.irqEn

/-- STATUS as the host reads it (R24): [0] BUSY, [1] DONE, [2] ERR, [3] OVERRUN, [4] STREAM_OPEN,
[5] IRQ, the rest 0. -/
def State.statusWord (s : State) : Word :=
  0#26 ++ BitVec.ofBool s.irq ++ BitVec.ofBool s.stream.isOpen ++ BitVec.ofBool s.overrun
    ++ BitVec.ofBool s.err ++ BitVec.ofBool s.done ++ BitVec.ofBool s.busy

/-- A host write to STATUS (R24): each of DONE, ERR and OVERRUN is cleared where the written bit is 1;
every other bit is unchanged. -/
def State.writeStatus (v : Word) (s : State) : State :=
  { s with
    done := s.done && !v.getLsbD 1
    err := s.err && !v.getLsbD 2
    overrun := s.overrun && !v.getLsbD 3 }

/-- ERR_CODE as the host reads it (R25): [7:0] CODE, [15:8] OPC, [31:16] 0. -/
def State.errCodeWord (s : State) : Word := 0#16 ++ s.errOpc ++ s.errCode

/-- The engine drops a host write because it is RUNNING: only OVERRUN changes (R50, R138). -/
def State.setOverrun (s : State) : State := { s with overrun := true }

end Sys2Proof.Machine
end

