-- ==== Sys2Proof/Machine/Operands.lean ====
section
/-! DEFINITION. The operands a command derives from the registers and spaces (R67), and the parameter and
resource checks with the order in which a command runs them (R133, R134, R135). -/

namespace Sys2Proof.Machine

/-! ## Operands -/

/-- HMAC_SEL bit [0] as every reader sees it: hard-wired to 0 where the SHA-512 binding is not built
(R29). -/
def State.hmacSelBit (s : State) : Bool := s.regs.hmacSel && s.cfg.hasSha512

/-- The binding HMAC_SEL selects (R29). -/
def State.binding (s : State) : Binding := if s.hmacSelBit then .sha512 else .sha256

/-- `MFLen = 128·R`, the bytes of one lane (R67). -/
def State.mfLen (s : State) : Nat := 128 * s.regs.r.toNat

/-- `128·R·P`, the bytes of the p lanes of B (R67). -/
def State.lanesLen (s : State) : Nat := s.mfLen * s.regs.p.toNat

/-- `key = KEY[0..KEYLEN)` (R67). -/
def State.keyBytes (s : State) : Bytes := s.key.readBytes 0 s.regs.keyLen.toNat

/-- `salt = SALT[0..SALTLEN)` (R67). -/
def State.saltBytes (s : State) : Bytes := s.salt.readBytes 0 s.regs.saltLen.toNat

/-- The seek offset: SEEK_OFF_HI·2^32 + SEEK_OFF_LO read as a 64-bit two's complement value (R34, R67). -/
def State.seekOffset (s : State) : Int := (s.regs.seekOffHi ++ s.regs.seekOffLo : BitVec 64).toInt

/-- `Weff = min(W_HW, MAX_THREADS, P)`, the worker units a mixing phase uses (R67, R96). -/
def State.weff (s : State) : Nat := min s.cfg.wHw (min s.regs.maxThreads.toNat s.regs.p.toNat)

/-- `L(s) = hLen(s)·(2^32 - 1)`, the bytes of a stream's logical domain (R107). -/
def domainLen (k : Binding) : Nat := k.hLen * (2 ^ 32 - 1)

/-- SLEN: the length of the open stream, 0 while it is closed (R35, R110). -/
def State.streamLen (s : State) : Nat := if s.stream.isOpen then domainLen s.stream.ssel else 0

/-- The base of a seek origin: 0, the position, or the stream's length (R114). -/
def State.seekBase (o : SeekOrigin) (s : State) : Int :=
  match o with
  | .fromBegin => 0
  | .fromCurrent => s.stream.pos
  | .fromEnd => domainLen s.stream.ssel

/-- The seek target `t = base(o) + off`, an integer (R114). -/
def State.seekTarget (o : SeekOrigin) (s : State) : Int := s.seekBase o + s.seekOffset

/-! ## Checks -/

/-- The checks a command can run: that the stream is open (R135 step 3), the invalid-parameter checks of
R133 and the resource checks of R134. -/
inductive Check where
  | opened
  | n
  | r
  | p
  | t
  | mem
  | dom
  | key
  | salt
  | lane
  | rounds
  | iter
  | rlen
  | seek (o : SeekOrigin)
  | b1
  | b
  | v
deriving DecidableEq, Repr

/-- When a check fails, over the accepted register values and mathematical integers (R12, R133, R134). -/
def Check.fails (s : State) : Check → Bool
  | .opened => !s.stream.isOpen
  | .n => s.regs.n == 0 || s.regs.n &&& (s.regs.n - 1) != 0
  | .r => s.regs.r == 0
  | .p => s.regs.p == 0
  | .t => s.regs.maxThreads == 0
  | .mem => decide (2 ^ 64 ≤ 128 * s.regs.r.toNat * s.regs.n.toNat * s.regs.p.toNat)
  | .dom => decide (domainLen s.binding < s.lanesLen)
  | .key => decide (s.cfg.keyMax < s.regs.keyLen.toNat)
  | .salt => decide (s.cfg.saltMax < s.regs.saltLen.toNat)
  | .lane => decide (s.regs.p.toNat ≤ s.regs.lane.toNat)
  | .rounds =>
    decide (s.regs.rounds.toNat % 2 ≠ 0 ∨ s.regs.rounds.toNat < 2 ∨ 20 < s.regs.rounds.toNat)
  | .iter => s.regs.iter == 0
  | .rlen => decide (s.cfg.outBytes < s.regs.readLen.toNat)
  | .seek o => decide (s.seekTarget o < 0 ∨ 2 ^ 63 - 1 < s.seekTarget o)
  | .b1 => decide (s.cfg.bBytes < s.mfLen)
  | .b => decide (s.cfg.bBytes < s.lanesLen)
  | .v => decide (s.cfg.vlaneBytes < s.mfLen * s.regs.n.toNat)

/-- The code a failing check completes with (R133, R134, R135). -/
def Check.error : Check → ErrorCode
  | .opened => .streamClosed
  | .b1 | .b | .v => .resourceExhausted
  | .n | .r | .p | .t | .mem | .dom | .key | .salt | .lane | .rounds | .iter | .rlen | .seek _ =>
    .invalidParameter

/-- "A command runs its checks in this order and completes with the code of the first that fails"
(R135); none when no check fails. -/
def firstFailing (s : State) : List Check → Option Check
  | [] => none
  | c :: cs => if c.fails s then some c else firstFailing s cs

/-- The shared life of a command once it is accepted (R128, R130, R135, R136): its checks in order, and
either completion with the first failing check's code and no other effect, or its results and
completion with code 0. -/
def runCommand (opc : Byte) (checks : List Check) (results : State → State) (s : State) :
    Host.Outcome State Fault Refusal :=
  match firstFailing s checks with
  | some c => .next (s.complete opc c.error)
  | none => .next ((results s).complete opc .none)

end Sys2Proof.Machine
end

