-- ==== Sys2Proof/Machine/Csr.lean ====
section
/-! DEFINITION. The control and status registers (R21 to R36): their map, what a host read of each returns
and what a host write to each does, IDLE or RUNNING (R49 to R51). -/

namespace Sys2Proof.Machine

/-- The registers of R21's table, by name. -/
inductive Csr where
  | id
  | caps
  | keyMax
  | saltMax
  | bBytes
  | outBytes
  | vlaneBytes
  | cmd
  | status
  | errCode
  | ctrl
  | n
  | r
  | p
  | maxThreads
  | rounds
  | hmacSel
  | iter
  | keyLen
  | saltLen
  | lane
  | readLen
  | readCount
  | seekOffLo
  | seekOffHi
  | posLo
  | posHi
  | slenLo
  | slenHi
deriving DecidableEq, Repr

/-- The register at an offset of the CSR block; none at the reserved offsets (R21, R36). -/
def csrAt (off : Nat) : Option Csr :=
  match off with
  | 0x000 => some .id
  | 0x004 => some .caps
  | 0x008 => some .keyMax
  | 0x00C => some .saltMax
  | 0x010 => some .bBytes
  | 0x014 => some .outBytes
  | 0x018 => some .vlaneBytes
  | 0x020 => some .cmd
  | 0x024 => some .status
  | 0x028 => some .errCode
  | 0x02C => some .ctrl
  | 0x030 => some .n
  | 0x034 => some .r
  | 0x038 => some .p
  | 0x03C => some .maxThreads
  | 0x040 => some .rounds
  | 0x044 => some .hmacSel
  | 0x048 => some .iter
  | 0x04C => some .keyLen
  | 0x050 => some .saltLen
  | 0x054 => some .lane
  | 0x058 => some .readLen
  | 0x05C => some .readCount
  | 0x060 => some .seekOffLo
  | 0x064 => some .seekOffHi
  | 0x068 => some .posLo
  | 0x06C => some .posHi
  | 0x070 => some .slenLo
  | 0x074 => some .slenHi
  | _ => none

/-- What a host read of a register returns: its current value, IDLE or RUNNING (R22 to R35, R49). -/
def State.readCsr (s : State) : Csr → Word
  | .id => 0x53435259
  | .caps => BitVec.ofNat 32 (s.cfg.wHw % 256 + 256 * s.cfg.hasSha512.toNat)
  | .keyMax => BitVec.ofNat 32 s.cfg.keyMax
  | .saltMax => BitVec.ofNat 32 s.cfg.saltMax
  | .bBytes => BitVec.ofNat 32 s.cfg.bBytes
  | .outBytes => BitVec.ofNat 32 s.cfg.outBytes
  | .vlaneBytes => BitVec.ofNat 32 s.cfg.vlaneBytes
  | .cmd => 0
  | .status => s.statusWord
  | .errCode => s.errCodeWord
  | .ctrl => 0#31 ++ BitVec.ofBool s.irqEn
  | .n => s.regs.n
  | .r => s.regs.r
  | .p => s.regs.p
  | .maxThreads => s.regs.maxThreads
  | .rounds => 0#24 ++ s.regs.rounds
  | .hmacSel => 0#31 ++ BitVec.ofBool s.hmacSelBit
  | .iter => s.regs.iter
  | .keyLen => s.regs.keyLen
  | .saltLen => s.regs.saltLen
  | .lane => s.regs.lane
  | .readLen => s.regs.readLen
  | .readCount => s.readCount
  | .seekOffLo => s.regs.seekOffLo
  | .seekOffHi => s.regs.seekOffHi
  | .posLo => BitVec.ofNat 32 s.stream.pos
  | .posHi => BitVec.ofNat 32 (s.stream.pos / 2 ^ 32)
  | .slenLo => BitVec.ofNat 32 s.streamLen
  | .slenHi => BitVec.ofNat 32 (s.streamLen / 2 ^ 32)

/-- The operand registers, the RW registers of offsets 0x030 to 0x064 (R50), with a value written to one;
none for every other register.  ROUNDS takes bits [7:0] and HMAC_SEL bit [0], which ignores writes
where HAS_SHA512 is 0 (R28, R29). -/
def OperandRegs.write (c : Params) (v : Word) (g : OperandRegs) : Csr → Option OperandRegs
  | .n => some { g with n := v }
  | .r => some { g with r := v }
  | .p => some { g with p := v }
  | .maxThreads => some { g with maxThreads := v }
  | .rounds => some { g with rounds := v.extractLsb' 0 8 }
  | .hmacSel => some { g with hmacSel := v.getLsbD 0 && c.hasSha512 }
  | .iter => some { g with iter := v }
  | .keyLen => some { g with keyLen := v }
  | .saltLen => some { g with saltLen := v }
  | .lane => some { g with lane := v }
  | .readLen => some { g with readLen := v }
  | .seekOffLo => some { g with seekOffLo := v }
  | .seekOffHi => some { g with seekOffHi := v }
  | .id | .caps | .keyMax | .saltMax | .bBytes | .outBytes | .vlaneBytes | .cmd | .status | .errCode
  | .ctrl | .readCount | .posLo | .posHi | .slenLo | .slenHi => none

/-- A host write to CMD (R23, R129): accepted while IDLE, dropped with OVERRUN while RUNNING. -/
def State.writeCmd (v : Word) (s : State) : State :=
  match s.engine with
  | .idle => s.accept v
  | .running _ => s.setOverrun

/-- A host write to an operand register: taken while IDLE, dropped with OVERRUN while RUNNING (R50, R51). -/
def State.writeOperand (g : OperandRegs) (s : State) : State :=
  match s.engine with
  | .idle => { s with regs := g }
  | .running _ => s.setOverrun

/-- A host write to a register (R22 to R36, R50, R51).  Read-only registers ignore it in both states. -/
def State.writeCsr (c : Csr) (v : Word) (s : State) : State :=
  match c with
  | .cmd => s.writeCmd v
  | .status => s.writeStatus v
  | .ctrl => { s with irqEn := v.getLsbD 0 }
  | c =>
    match s.regs.write s.cfg v c with
    | some g => s.writeOperand g
    | none => s

end Sys2Proof.Machine
end

