-- ==== Sys2Proof/Machine/Bus.lean ====
section
/-! DEFINITION. The host's bus accesses (R44 to R51): the address map, the ERROR responses, the windows and
the registers behind them, while IDLE and while RUNNING. -/

namespace Sys2Proof.Machine

/-- The four windows of the host address map (R44, R45). -/
inductive Window where
  | key
  | salt
  | out
  | b
deriving DecidableEq, Repr

/-- What a host address reaches (R44). -/
inductive Target where
  | csr (off : Nat)
  | window (w : Window) (off : Nat)
  | unmapped
deriving DecidableEq, Repr

/-- The host address map by offset from ENGINE_BASE (R44). -/
def targetAt (off : Nat) : Target :=
  if off < 0x1000 then .csr off
  else if 0x10000 ≤ off ∧ off < 0x20000 then .window .key (off - 0x10000)
  else if 0x20000 ≤ off ∧ off < 0x30000 then .window .salt (off - 0x20000)
  else if 0x30000 ≤ off ∧ off < 0x40000 then .window .out (off - 0x30000)
  else if 0x100000 ≤ off ∧ off < 0x200000 then .window .b (off - 0x100000)
  else .unmapped

/-- What a host address reaches, its offset taken from ENGINE_BASE modulo 2^32 (R44, D44). -/
def Params.target (c : Params) (addr : Word) : Target := targetAt (addr - c.engineBase).toNat

/-- The bytes of a window's backed part (R44, R45). -/
def Window.capacity (c : Params) : Window → Nat
  | .key => c.keyMax
  | .salt => c.saltMax
  | .out => c.outBytes
  | .b => c.bBytes

/-- The space behind a window (R45). -/
def State.window (s : State) : Window → Mem
  | .key => s.key
  | .salt => s.salt
  | .out => s.out
  | .b => s.b

/-- The state with the space behind a window replaced. -/
def State.setWindow (w : Window) (m : Mem) (s : State) : State :=
  match w with
  | .key => { s with key := m }
  | .salt => { s with salt := m }
  | .out => { s with out := m }
  | .b => { s with b := m }

/-- What an access reaches once the ERROR grounds of R47 are excluded; none is an ERROR: an unmapped
address (for a window, any byte beyond its backed part: log entry 8), an address that is not a multiple
of the size, or a CSR access that is not of 4 bytes. -/
def Params.route (c : Params) (addr : Word) (size : AccessSize) : Option Target :=
  if addr.toNat % size.bytes ≠ 0 then none
  else
    match Params.target c addr with
    | .csr off => if size = .four then some (.csr off) else none
    | .window w off => if off + size.bytes ≤ w.capacity c then some (.window w off) else none
    | .unmapped => none

/-- The little-endian value of up to four bytes, in a word (R48). -/
def leValue : Bytes → Word
  | [] => 0
  | v :: vs => (leValue vs) <<< 8 ||| v.setWidth 32

/-- The low n bytes of a word, least significant first: `v[8k+7:8k]` for k in 0..n (R48). -/
def lowBytes (n : Nat) (v : Word) : Bytes := (List.range n).map fun k => v.extractLsb' (8 * k) 8

/-- The value a host read returns: a register's current value, 0 at a reserved offset (R36), a window's
bytes while IDLE, and 0 from a window while RUNNING (R48, R49, R51). -/
def State.readValue (s : State) (size : AccessSize) : Target → Word
  | .csr off =>
    match csrAt off with
    | some c => s.readCsr c
    | none => 0
  | .window w off =>
    match s.engine with
    | .idle => leValue ((s.window w).readBytes off size.bytes)
    | .running _ => 0
  | .unmapped => 0

/-- The effect of a host write: a register's (R50, R51), none at a reserved offset (R36), the bytes of a
window while IDLE, and OVERRUN alone for a window while RUNNING (R48, R50). -/
def State.writeValue (s : State) (size : AccessSize) (v : Word) : Target → State
  | .csr off =>
    match csrAt off with
    | some c => s.writeCsr c v
    | none => s
  | .window w off =>
    match s.engine with
    | .idle => s.setWindow w ((s.window w).writeBytes off (lowBytes size.bytes v))
    | .running _ => s.setOverrun
  | .unmapped => s

/-- The response of an access (R46): OKAY or ERROR, and a value. -/
def State.respond (okay : Bool) (v : Word) (s : State) : State := { s with resp := some ⟨okay, v⟩ }

/-- One host access, whole, with its response (R46, R47, R51): an ERROR answers 0 and changes nothing. -/
def State.access (a : HostAccess) (s : State) : State :=
  match a with
  | .read addr size =>
    match Params.route s.cfg addr size with
    | none => s.respond false 0
    | some t => s.respond true (s.readValue size t)
  | .write addr size v =>
    match Params.route s.cfg addr size with
    | none => s.respond false 0
    | some t => (s.writeValue size v t).respond true 0

end Sys2Proof.Machine
end

