-- ==== Sys2Proof/Machine/Salsa.lean ====
section
/-! DEFINITION. The Salsa20 core permutation (R74 to R83): the function of the spec, the same computation
on a unit's registers X and Z, and the SALSA command (R85). -/

namespace Sys2Proof.Machine

/-- `add32` (R11, R12): addition that wraps modulo 2^32. -/
def add32 (a b : Word) : Word := a + b

/-- `rotl32(v, k)` for 1 <= k <= 31 (R74). -/
def rotl32 (v : Word) (k : Nat) : Word := (v <<< k) ||| (v >>> (32 - k))

/-- `ARX(d, a, b, k)`: `X[d] <- X[d] xor rotl32(add32(X[a], X[b]), k)` (R75). -/
def arx (d a b : Fin 16) (k : Nat) (x : Block) : Block :=
  x.set d (x[d] ^^^ rotl32 (add32 x[a] x[b]) k)

/-- A quarter-round on four word indices: its four steps in order (R76). -/
def quarterRound (y0 y1 y2 y3 : Fin 16) (x : Block) : Block :=
  arx y0 y3 y2 18 (arx y3 y2 y1 13 (arx y2 y1 y0 9 (arx y1 y0 y3 7 x)))

/-- A column round: the quarter-rounds (0,4,8,12), (5,9,13,1), (10,14,2,6), (15,3,7,11) (R77). -/
def columnRound (x : Block) : Block :=
  quarterRound 15 3 7 11 (quarterRound 10 14 2 6 (quarterRound 5 9 13 1 (quarterRound 0 4 8 12 x)))

/-- A row round: the quarter-rounds (0,1,2,3), (5,6,7,4), (10,11,8,9), (15,12,13,14) (R78). -/
def rowRound (x : Block) : Block :=
  quarterRound 15 12 13 14 (quarterRound 10 11 8 9 (quarterRound 5 6 7 4 (quarterRound 0 1 2 3 x)))

/-- A double round: one column round, then one row round (R80). -/
def doubleRound (x : Block) : Block := rowRound (columnRound x)

/-- `SalsaCore(n, in)`: n/2 double rounds and the feed-forward (R81). -/
def salsaCore (n : Nat) (inp : Block) : Block := zipBlock add32 (doubleRound^[n / 2] inp) inp

/-! ## The core on a unit's registers -/

/-- The input block goes to the snapshot Z and the working file X (R81). -/
def MixRegs.loadSalsa (inp : Block) (u : MixRegs) : MixRegs := { u with x := inp, z := inp }

/-- One double round permutes X in place (R15, R80). -/
def MixRegs.stepSalsa (u : MixRegs) : MixRegs := { u with x := doubleRound u.x }

/-- X and Z are zeroed (R17, R81). -/
def MixRegs.clearSalsa (u : MixRegs) : MixRegs := { u with x := zeroBlock, z := zeroBlock }

/-- `SalsaCore(n, in)` run on X and Z: the output block, and the registers it leaves (R81). -/
def MixRegs.runSalsa (n : Nat) (inp : Block) (u : MixRegs) : Block × MixRegs :=
  let w := MixRegs.stepSalsa^[n / 2] (u.loadSalsa inp)
  (zipBlock add32 w.x w.z, w.clearSalsa)

/-! ## The SALSA command -/

/-- SALSA's results: SalsaCore of the first 64 bytes of B, written back over them (R85). -/
def salsaResults (s : State) : State :=
  let (out, u) :=
    s.seq.runSalsa s.regs.rounds.toNat (blockAt (leWords (s.b.readBytes 0 64)) 0)
  { s with b := s.b.writeBytes 0 (blockBytes [out]), seq := u }

/-- SALSA (R85). -/
def execSalsa (s : State) : Host.Outcome State Fault Refusal :=
  runCommand (Instr.opc .salsa) [.rounds] salsaResults s

end Sys2Proof.Machine
end

