-- ==== Sys2Proof/Machine/BlockMix.lean ====
section
/-! DEFINITION. BlockMix (R86 to R88): the function of the spec, the same loop on a unit's registers Q and
Y, and the BLOCKMIX command (R89). -/

namespace Sys2Proof.Machine

/-- The running states of BlockMix: from Q, each input block B_k gives `SalsaCore(8, Q xor B_k)`, which
is the next Q and the k-th result (R86, R87). -/
def mixRun : Block → List Block → List Block
  | _, [] => []
  | q, c :: cs =>
    let q' := salsaCore 8 (xorBlock q c)
    q' :: mixRun q' cs

/-- The results of the even-numbered input blocks, in order (R87). -/
def evens : List Block → List Block
  | [] => []
  | [a] => [a]
  | a :: _ :: rest => a :: evens rest

/-- The results of the odd-numbered input blocks, in order (R87). -/
def odds : List Block → List Block
  | [] => []
  | [_] => []
  | _ :: c :: rest => c :: odds rest

/-- `BlockMix_r(B)` for a list of 2r blocks (R86): the running state starts as the last block; even
results fill the first half of the output, odd ones the second. -/
def blockMix (bs : List Block) : List Block :=
  let ys := mixRun (bs.getLastD zeroBlock) bs
  evens ys ++ odds ys

/-! ## BlockMix on a unit's registers -/

/-- The output position of the result for input block k of 2r: i for k = 2i, r+i for k = 2i+1 (R87). -/
def mixPosition (r k : Nat) : Nat := if k % 2 = 0 then k / 2 else r + k / 2

/-- One turn of the loop of R86 at sub-block index `sub` (R19). -/
def MixRegs.stepBlockMix (r : Nat) (bs : List Block) (u : MixRegs) : MixRegs :=
  let (out, w) := u.runSalsa 8 (xorBlock u.q (bs.getD u.sub zeroBlock))
  { w with q := out, y := u.y.set (mixPosition r u.sub) out, sub := u.sub + 1 }

/-- `BlockMix_r` run on Q and Y (R86): the output blocks, and the registers it leaves, Q and Y zero. -/
def MixRegs.runBlockMix (r : Nat) (bs : List Block) (u : MixRegs) : List Block × MixRegs :=
  let u0 : MixRegs :=
    { u with q := bs.getD (2 * r - 1) zeroBlock, y := List.replicate (2 * r) zeroBlock, sub := 0 }
  let w := (MixRegs.stepBlockMix r bs)^[2 * r] u0
  (w.y, { w with q := zeroBlock, y := [], sub := 0 })

/-! ## The BLOCKMIX command -/

/-- BLOCKMIX's results: BlockMix of the first 128·R bytes of B, in place (R89). -/
def blockMixResults (s : State) : State :=
  let (out, u) := s.seq.runBlockMix s.regs.r.toNat (s.b.readBlocks 0 s.mfLen)
  { s with b := s.b.writeBytes 0 (blockBytes out), seq := u }

/-- BLOCKMIX (R89). -/
def execBlockmix (s : State) : Host.Outcome State Fault Refusal :=
  runCommand (Instr.opc .blockmix) [.r, .b1] blockMixResults s

end Sys2Proof.Machine
end

