-- ==== Sys2Proof/Machine/Hmac.lean ====
section
/-! DEFINITION. The default of the HMAC parameter (R8, R105): HMAC by RFC 2104 over SHA-256 and SHA-512.
An engine whose parameter HMAC is `standard` runs with them (`hmacOf`).  The SHA functions are those of FIPS 180-4, which the spec names
and does not write out: PRESUMED, log entry 13. -/

namespace Sys2Proof.Machine

/-! ## The SHA-2 compression, for both word widths -/

/-- What tells SHA-256 and SHA-512 apart (FIPS 180-4, PRESUMED): the word width, the rotation distances of
the four functions, and the round constants. -/
structure ShaFamily where
  w : Nat
  bigSigma0 : Nat × Nat × Nat
  bigSigma1 : Nat × Nat × Nat
  smallSigma0 : Nat × Nat × Nat
  smallSigma1 : Nat × Nat × Nat
  constants : List (BitVec w)

/-- Right rotation of a w-bit word. -/
def rotr (v : BitVec w) (k : Nat) : BitVec w := (v >>> k) ||| (v <<< (w - k))

/-- The xor of three right rotations. -/
def rotr3 (d : Nat × Nat × Nat) (v : BitVec w) : BitVec w := rotr v d.1 ^^^ rotr v d.2.1 ^^^ rotr v d.2.2

/-- The xor of two right rotations and a right shift. -/
def rotr2Shift (d : Nat × Nat × Nat) (v : BitVec w) : BitVec w :=
  rotr v d.1 ^^^ rotr v d.2.1 ^^^ (v >>> d.2.2)

/-- The eight working variables. -/
structure ShaVars (w : Nat) where
  a : BitVec w
  b : BitVec w
  c : BitVec w
  d : BitVec w
  e : BitVec w
  f : BitVec w
  g : BitVec w
  h : BitVec w

/-- One round, on a round constant plus a schedule word. -/
def ShaVars.round (m : ShaFamily) (v : ShaVars m.w) (kw : BitVec m.w) : ShaVars m.w :=
  let t1 := v.h + rotr3 m.bigSigma1 v.e + ((v.e &&& v.f) ^^^ (~~~v.e &&& v.g)) + kw
  let t2 := rotr3 m.bigSigma0 v.a + ((v.a &&& v.b) ^^^ (v.a &&& v.c) ^^^ (v.b &&& v.c))
  { a := t1 + t2, b := v.a, c := v.b, d := v.c, e := v.d + t1, f := v.e, g := v.f, h := v.g }

/-- The message schedule, newest word first, extended by n words. -/
def shaExtend (m : ShaFamily) : Nat → List (BitVec m.w) → List (BitVec m.w)
  | 0, ws => ws
  | n + 1, ws =>
    let next := rotr2Shift m.smallSigma1 (ws.getD 1 0) + ws.getD 6 0
      + rotr2Shift m.smallSigma0 (ws.getD 14 0) + ws.getD 15 0
    shaExtend m n (next :: ws)

/-- Word-wise sum of two variable sets. -/
def ShaVars.add (u v : ShaVars w) : ShaVars w where
  a := u.a + v.a
  b := u.b + v.b
  c := u.c + v.c
  d := u.d + v.d
  e := u.e + v.e
  f := u.f + v.f
  g := u.g + v.g
  h := u.h + v.h

/-- The compression of one 16-word block. -/
def shaCompress (m : ShaFamily) (v : ShaVars m.w) (block : List (BitVec m.w)) : ShaVars m.w :=
  let ws := (shaExtend m (m.constants.length - 16) block.reverse).reverse
  v.add ((List.zipWith (· + ·) m.constants ws).foldl (ShaVars.round m) v)

/-- The big-endian words of a byte string, n bytes to a word. -/
def beWords (w n : Nat) : Nat → Bytes → List (BitVec w)
  | 0, _ => []
  | k + 1, s =>
    (s.take n).foldl (fun acc v => (acc <<< 8) ||| v.setWidth w) 0 :: beWords w n k (s.drop n)

/-- The padded message: a one bit, zeros, and the bit length in the last bytes of a whole block of `b`
bytes; the length takes b/8 bytes. -/
def shaPad (b : Nat) (msg : Bytes) : Bytes :=
  let bits := 8 * msg.length
  let gap := (b - (msg.length + 1 + b / 8) % b) % b
  msg ++ [0x80] ++ zeros gap ++ (List.range (b / 8)).reverse.map fun k => BitVec.ofNat 8 (bits / 2 ^ (8 * k))

/-- The compression run over n blocks of a padded message. -/
def shaBlocks (m : ShaFamily) : Nat → ShaVars m.w → Bytes → ShaVars m.w
  | 0, v, _ => v
  | n + 1, v, s =>
    shaBlocks m n (shaCompress m v (beWords m.w (m.w / 8) 16 (s.take (2 * m.w)))) (s.drop (2 * m.w))

/-- The working variables as a list, a to h. -/
def ShaVars.words (v : ShaVars w) : List (BitVec w) := [v.a, v.b, v.c, v.d, v.e, v.f, v.g, v.h]

/-- Byte i of the big-endian reading of the variables. -/
def ShaVars.byte (v : ShaVars w) (i : Nat) : Byte :=
  (v.words.getD (i / (w / 8)) 0).extractLsb' (w - 8 - 8 * (i % (w / 8))) 8

/-! ## SHA-256 and SHA-512 -/

/-- The round constants of SHA-256 (FIPS 180-4, PRESUMED). -/
def sha256Constants : List (BitVec 32) :=
  [0x428a2f98, 0x71374491, 0xb5c0fbcf, 0xe9b5dba5, 0x3956c25b, 0x59f111f1, 0x923f82a4, 0xab1c5ed5]
  ++ [0xd807aa98, 0x12835b01, 0x243185be, 0x550c7dc3, 0x72be5d74, 0x80deb1fe, 0x9bdc06a7, 0xc19bf174]
  ++ [0xe49b69c1, 0xefbe4786, 0x0fc19dc6, 0x240ca1cc, 0x2de92c6f, 0x4a7484aa, 0x5cb0a9dc, 0x76f988da]
  ++ [0x983e5152, 0xa831c66d, 0xb00327c8, 0xbf597fc7, 0xc6e00bf3, 0xd5a79147, 0x06ca6351, 0x14292967]
  ++ [0x27b70a85, 0x2e1b2138, 0x4d2c6dfc, 0x53380d13, 0x650a7354, 0x766a0abb, 0x81c2c92e, 0x92722c85]
  ++ [0xa2bfe8a1, 0xa81a664b, 0xc24b8b70, 0xc76c51a3, 0xd192e819, 0xd6990624, 0xf40e3585, 0x106aa070]
  ++ [0x19a4c116, 0x1e376c08, 0x2748774c, 0x34b0bcb5, 0x391c0cb3, 0x4ed8aa4a, 0x5b9cca4f, 0x682e6ff3]
  ++ [0x748f82ee, 0x78a5636f, 0x84c87814, 0x8cc70208, 0x90befffa, 0xa4506ceb, 0xbef9a3f7, 0xc67178f2]

/-- The round constants of SHA-512 (FIPS 180-4, PRESUMED). -/
def sha512Constants : List (BitVec 64) :=
  [0x428a2f98d728ae22, 0x7137449123ef65cd, 0xb5c0fbcfec4d3b2f, 0xe9b5dba58189dbbc]
  ++ [0x3956c25bf348b538, 0x59f111f1b605d019, 0x923f82a4af194f9b, 0xab1c5ed5da6d8118]
  ++ [0xd807aa98a3030242, 0x12835b0145706fbe, 0x243185be4ee4b28c, 0x550c7dc3d5ffb4e2]
  ++ [0x72be5d74f27b896f, 0x80deb1fe3b1696b1, 0x9bdc06a725c71235, 0xc19bf174cf692694]
  ++ [0xe49b69c19ef14ad2, 0xefbe4786384f25e3, 0x0fc19dc68b8cd5b5, 0x240ca1cc77ac9c65]
  ++ [0x2de92c6f592b0275, 0x4a7484aa6ea6e483, 0x5cb0a9dcbd41fbd4, 0x76f988da831153b5]
  ++ [0x983e5152ee66dfab, 0xa831c66d2db43210, 0xb00327c898fb213f, 0xbf597fc7beef0ee4]
  ++ [0xc6e00bf33da88fc2, 0xd5a79147930aa725, 0x06ca6351e003826f, 0x142929670a0e6e70]
  ++ [0x27b70a8546d22ffc, 0x2e1b21385c26c926, 0x4d2c6dfc5ac42aed, 0x53380d139d95b3df]
  ++ [0x650a73548baf63de, 0x766a0abb3c77b2a8, 0x81c2c92e47edaee6, 0x92722c851482353b]
  ++ [0xa2bfe8a14cf10364, 0xa81a664bbc423001, 0xc24b8b70d0f89791, 0xc76c51a30654be30]
  ++ [0xd192e819d6ef5218, 0xd69906245565a910, 0xf40e35855771202a, 0x106aa07032bbd1b8]
  ++ [0x19a4c116b8d2d0c8, 0x1e376c085141ab53, 0x2748774cdf8eeb99, 0x34b0bcb5e19b48a8]
  ++ [0x391c0cb3c5c95a63, 0x4ed8aa4ae3418acb, 0x5b9cca4f7763e373, 0x682e6ff3d6b2b8a3]
  ++ [0x748f82ee5defb2fc, 0x78a5636f43172f60, 0x84c87814a1f0ab72, 0x8cc702081a6439ec]
  ++ [0x90befffa23631e28, 0xa4506cebde82bde9, 0xbef9a3f7b2c67915, 0xc67178f2e372532b]
  ++ [0xca273eceea26619c, 0xd186b8c721c0c207, 0xeada7dd6cde0eb1e, 0xf57d4f7fee6ed178]
  ++ [0x06f067aa72176fba, 0x0a637dc5a2c898a6, 0x113f9804bef90dae, 0x1b710b35131c471b]
  ++ [0x28db77f523047d84, 0x32caab7b40c72493, 0x3c9ebe0a15c9bebc, 0x431d67c49c100d4c]
  ++ [0x4cc5d4becb3e42b6, 0x597f299cfc657e2a, 0x5fcb6fab3ad6faec, 0x6c44198c4a475817]

/-- SHA-256's parameters (FIPS 180-4, PRESUMED). -/
def sha256Family : ShaFamily where
  w := 32
  bigSigma0 := (2, 13, 22)
  bigSigma1 := (6, 11, 25)
  smallSigma0 := (7, 18, 3)
  smallSigma1 := (17, 19, 10)
  constants := sha256Constants

/-- SHA-512's parameters (FIPS 180-4, PRESUMED). -/
def sha512Family : ShaFamily where
  w := 64
  bigSigma0 := (28, 34, 39)
  bigSigma1 := (14, 18, 41)
  smallSigma0 := (1, 8, 7)
  smallSigma1 := (19, 61, 6)
  constants := sha512Constants

/-- The initial variables of SHA-256 (FIPS 180-4, PRESUMED). -/
def sha256Start : ShaVars sha256Family.w :=
  ⟨0x6a09e667, 0xbb67ae85, 0x3c6ef372, 0xa54ff53a,
    0x510e527f, 0x9b05688c, 0x1f83d9ab, 0x5be0cd19⟩

/-- The initial variables of SHA-512 (FIPS 180-4, PRESUMED). -/
def sha512Start : ShaVars sha512Family.w :=
  ⟨0x6a09e667f3bcc908, 0xbb67ae8584caa73b, 0x3c6ef372fe94f82b, 0xa54ff53a5f1d36f1,
    0x510e527fade682d1, 0x9b05688c2b3e6c1f, 0x1f83d9abfb41bd6b, 0x5be0cd19137e2179⟩

/-- The input block size b of a binding's hash: 64 bytes for SHA-256, 128 for SHA-512 (R105). -/
def Binding.inputBlock : Binding → Nat
  | .sha256 => 64
  | .sha512 => 128

/-- The hash H of a binding (R105): SHA-256 or SHA-512. -/
def hashOf (k : Binding) (msg : Bytes) : Vector Byte k.hLen :=
  let s := shaPad (Binding.inputBlock k) msg
  let n := s.length / Binding.inputBlock k
  match k with
  | .sha256 =>
    let v := shaBlocks sha256Family n sha256Start s
    Vector.ofFn fun i => v.byte i.val
  | .sha512 =>
    let v := shaBlocks sha512Family n sha512Start s
    Vector.ofFn fun i => v.byte i.val

/-! ## HMAC -/

/-- `K0` (R105): the key, hashed first when it is longer than b bytes, padded with zeros to b bytes. -/
def hmacKey (hash : (k : Binding) → Bytes → Vector Byte k.hLen) (k : Binding) (key : Bytes) : Bytes :=
  if Binding.inputBlock k < key.length then (hash k key).toList ++ zeros (Binding.inputBlock k - k.hLen)
  else key ++ zeros (Binding.inputBlock k - key.length)

/-- HMAC by RFC 2104 (R105): `H((K0 xor opad) ‖ H((K0 xor ipad) ‖ msg))`, ipad bytes 0x36, opad 0x5c. -/
def hmacOver (hash : (k : Binding) → Bytes → Vector Byte k.hLen) : HmacFn := fun k key msg =>
  let k0 := hmacKey hash k key
  hash k (k0.map (· ^^^ 0x5c) ++ (hash k (k0.map (· ^^^ 0x36) ++ msg)).toList)

/-- The intended values of the HMAC parameter (R105, D47): HMAC-SHA256 and HMAC-SHA512. -/
def intendedHmac : HmacFn := hmacOver hashOf

end Sys2Proof.Machine
end

