-- ==== Sys2Proof/Machine/Pbkdf2.lean ====
section
/-! DEFINITION. The PBKDF2 block function and its output (R106 to R109), over any HMAC (R104),
and the HMAC an engine is built with (R8). -/

namespace Sys2Proof.Machine

/-- The function family the parameter HMAC stands for (R8, R104, R105). -/
def hmacOf : HmacChoice → HmacFn
  | .standard => intendedHmac
  | .injected k => Config.hmac k

/-- The HMAC the engine's commands run with: its parameter (R104).  Every function below takes its HMAC as an
argument and assumes nothing of it. -/
def State.hmac (s : State) : HmacFn := hmacOf s.cfg.hmac

/-- The start of `F_s(K, S, c, i)`: `U <- HMAC_s(K, S ‖ be32(i)); T <- U` (R106). -/
def PbkRegs.start (h : HmacFn) (k : Binding) (key salt : Bytes) (i : Word) : PbkRegs :=
  let u1 := (h k key (salt ++ be32 i)).toList
  { u := u1, t := u1, blk := i, count := 1 }

/-- One further iteration: `U <- HMAC_s(K, U); T <- T xor U` (R106). -/
def PbkRegs.iterate (h : HmacFn) (k : Binding) (key : Bytes) (a : PbkRegs) : PbkRegs :=
  let u' := (h k key a.u).toList
  { a with u := u', t := xorBytes a.t u', count := a.count + 1 }

/-- `F_s(K, S, c, i)`, the PBKDF2 block with index i for c >= 1 iterations: U1 counts as the first (R106).
The accumulators are zeroed after it (R17). -/
def pbkdf2Block (h : HmacFn) (k : Binding) (key salt : Bytes) (c : Nat) (i : Word) : Bytes :=
  ((PbkRegs.iterate h k key)^[c - 1] (PbkRegs.start h k key salt i)).t

/-- The block index of a stream position: `floor(x / hLen) + 1` (R108). -/
def blockIndex (k : Binding) (x : Nat) : Word := BitVec.ofNat 32 (x / k.hLen + 1)

/-- The stream byte at position x < L(s) (R108). -/
def streamByte (h : HmacFn) (k : Binding) (key salt : Bytes) (c x : Nat) : Byte :=
  (pbkdf2Block h k key salt c (blockIndex k x)).getD (x % k.hLen) 0

/-- `PBKDF2_s(K, S, c, len)`: the blocks 1, 2, ... cut to len bytes (R109). -/
def pbkdf2 (h : HmacFn) (k : Binding) (key salt : Bytes) (c len : Nat) : Bytes :=
  ((List.range ((len + k.hLen - 1) / k.hLen)).flatMap fun i =>
    pbkdf2Block h k key salt c (BitVec.ofNat 32 (i + 1))).take len

end Sys2Proof.Machine
end

