-- ==== Sys2Proof/Machine/Stream.lean ====
section
/-! DEFINITION. The seekable PBKDF2 stream (R110 to R119): opening, reading through the cached block,
seeking and closing, and its commands. -/

namespace Sys2Proof.Machine

/-- `skey`, the stream's private key (R38). -/
def Stream.keyBytes (t : Stream) : Bytes := t.skey.readBytes 0 t.skeyLen

/-- `ssalt`, the stream's private salt (R38). -/
def Stream.saltBytes (t : Stream) : Bytes := t.ssalt.readBytes 0 t.ssaltLen

/-! ## Opening and closing -/

/-- A stream installed over the old one (R112, R124): SKEY, SSALT and `cache_bytes` are wiped, `cache_valid`
cleared, and the new key, salt, iteration count and binding take their place, the cursor at 0.
`cache_idx` keeps its value. -/
def Stream.reopen (key salt : Bytes) (c : Word) (k : Binding) (t : Stream) : Stream where
  isOpen := true
  skey := .ofBytes key
  skeyLen := key.length
  ssalt := .ofBytes salt
  ssaltLen := salt.length
  siter := c
  ssel := k
  pos := 0
  cacheValid := false
  cacheIdx := t.cacheIdx
  cacheBytes := zeros k.hLen

/-- OPEN_PBKDF2's results (R112). -/
def openPbkdf2Results (s : State) : State :=
  { s with stream := s.stream.reopen s.keyBytes s.saltBytes s.regs.iter s.binding }

/-- OPEN_PBKDF2 (R112). -/
def execOpenPbkdf2 (s : State) : Host.Outcome State Fault Refusal :=
  runCommand (Instr.opc .openPbkdf2) [.iter, .key, .salt] openPbkdf2Results s

/-- CLOSE's results: the stream closed, its secret state wiped (R118). -/
def closeResults (s : State) : State := { s with stream := .closed }

/-- CLOSE (R118). -/
def execClose (s : State) : Host.Outcome State Fault Refusal :=
  runCommand (Instr.opc .close) [] closeResults s

/-! ## Reading -/

/-- The stream byte at position x, through the cached block: used when it is the block of x, else
computed and cached (R111). -/
def Stream.fetch (h : HmacFn) (x : Nat) (t : Stream) : Byte × Stream :=
  let i := blockIndex t.ssel x
  if t.cacheValid && t.cacheIdx == i then (t.cacheBytes.getD (x % t.ssel.hLen) 0, t)
  else
    let blk := pbkdf2Block h t.ssel t.keyBytes t.saltBytes t.siter.toNat i
    (blk.getD (x % t.ssel.hLen) 0, { t with cacheValid := true, cacheIdx := i, cacheBytes := blk })

/-- The n stream bytes from position x on, one after the other (R113). -/
def Stream.fetchMany (h : HmacFn) : Nat → Nat → Stream → Bytes × Stream
  | 0, _, t => ([], t)
  | n + 1, x, t =>
    let (v, t1) := t.fetch h x
    let (vs, t2) := Stream.fetchMany h n (x + 1) t1
    (v :: vs, t2)

/-- `count = min(n, max(0, L - pos))`, the bytes a read of READ_LEN delivers (R113). -/
def State.readCountNext (s : State) : Nat :=
  min s.regs.readLen.toNat (domainLen s.stream.ssel - s.stream.pos)

/-- STREAM_READ's results over an HMAC: OUT, POS, READ_COUNT and the cache (R113). -/
def streamReadResults (h : HmacFn) (s : State) : State :=
  let count := s.readCountNext
  let (bytes, t) := s.stream.fetchMany h count s.stream.pos
  { s with
    out := s.out.writeBytes 0 bytes
    stream := { t with pos := t.pos + count }
    readCount := BitVec.ofNat 32 count }

/-- STREAM_READ (R113). -/
def execStreamRead (s : State) : Host.Outcome State Fault Refusal :=
  runCommand (Instr.opc .streamRead) [.opened, .rlen] (streamReadResults s.hmac) s

/-! ## Seeking -/

/-- A seek's results: the cursor at the target; the cache is not touched (R115). -/
def seekResults (o : SeekOrigin) (s : State) : State :=
  { s with stream := { s.stream with pos := (s.seekTarget o).toNat } }

/-- STREAM_SEEK.BEGIN (R115). -/
def execStreamSeekBegin (s : State) : Host.Outcome State Fault Refusal :=
  runCommand (Instr.opc .streamSeekBegin) [.opened, .seek .fromBegin] (seekResults .fromBegin) s

/-- STREAM_SEEK.CURRENT (R115). -/
def execStreamSeekCurrent (s : State) : Host.Outcome State Fault Refusal :=
  runCommand (Instr.opc .streamSeekCurrent) [.opened, .seek .fromCurrent] (seekResults .fromCurrent) s

/-- STREAM_SEEK.END (R115). -/
def execStreamSeekEnd (s : State) : Host.Outcome State Fault Refusal :=
  runCommand (Instr.opc .streamSeekEnd) [.opened, .seek .fromEnd] (seekResults .fromEnd) s

/-! ## Writing and resizing, which the read-only stream refuses -/

/-- STREAM_WRITE: always completes with UNSUPPORTED_OPERATION and changes nothing else (R116). -/
def execStreamWrite (s : State) : Host.Outcome State Fault Refusal :=
  .next (s.complete (Instr.opc .streamWrite) .unsupportedOperation)

/-- STREAM_SETLEN: always completes with UNSUPPORTED_OPERATION and changes nothing else (R117). -/
def execStreamSetlen (s : State) : Host.Outcome State Fault Refusal :=
  .next (s.complete (Instr.opc .streamSetlen) .unsupportedOperation)

end Sys2Proof.Machine
end

