-- ==== Sys2Proof/Machine/Control.lean ====
section
/-! DEFINITION. The control commands NOP and ZEROIZE (R125, R126). -/

namespace Sys2Proof.Machine

/-- NOP: nothing but completion (R125). -/
def execNop (s : State) : Host.Outcome State Fault Refusal :=
  runCommand (Instr.opc .nop) [] id s

/-- ZEROIZE's results: those of CLOSE, and every byte of KEY, SALT, B and OUT zero (R126). -/
def zeroizeResults (s : State) : State :=
  { closeResults s with
    key := s.key.wipe 0 s.cfg.keyMax
    salt := s.salt.wipe 0 s.cfg.saltMax
    b := s.b.wipe 0 s.cfg.bBytes
    out := s.out.wipe 0 s.cfg.outBytes }

/-- ZEROIZE (R126). -/
def execZeroize (s : State) : Host.Outcome State Fault Refusal :=
  runCommand (Instr.opc .zeroize) [] zeroizeResults s

end Sys2Proof.Machine
end

