-- ==== Sys2Proof/Machine/SMix.lean ====
section
/-! DEFINITION. SMix (R90 to R94): the function of the spec, the memory-access schedule of R92 as steps of
a worker unit on its registers and its scratch memory, and the SMIX command (R95). -/

namespace Sys2Proof.Machine

/-- `Integerify(S) = S[16·(2r-1)]`, the first word of the last block (R90). -/
def integerify (st : List Block) : Word := (st.getLastD zeroBlock)[0]

/-- `j = Integerify(S) and (N - 1)` (R90). -/
def smixIndex (n : Word) (st : List Block) : Nat := (integerify st &&& (n - 1)).toNat

/-- Phase FILL, `count` turns: the entries it stores, in order, and the state it leaves (R91). -/
def smixFill : Nat → List Block → List (List Block) × List Block
  | 0, st => ([], st)
  | k + 1, st =>
    let (vs, last) := smixFill k (blockMix st)
    (st :: vs, last)

/-- One turn of phase MIX on the table V (R91). -/
def smixTurn (n : Word) (table : List (List Block)) (st : List Block) : List Block :=
  blockMix (xorBlocks st (table.getD (smixIndex n st) []))

/-- `SMix_{r,N}(S)` on a lane state of 2r blocks (R91). -/
def smix (n : Word) (st : List Block) : List Block :=
  let (table, filled) := smixFill n.toNat st
  (smixTurn n table)^[n.toNat] filled

/-! ## The schedule on a worker unit -/

/-- What a unit and the shared buffer B hold while the unit mixes a lane. -/
structure LaneRun where
  unit : Worker
  b : Mem
deriving DecidableEq, Repr

/-- One step of the schedule of R92 for lane k, by the phase and index the unit holds (R19). -/
def LaneRun.step (n : Word) (r k : Nat) (l : LaneRun) : LaneRun :=
  let u := l.unit.regs
  let mf := 128 * r
  match u.phase with
  | .idle => l
  | .load =>
    { l with unit := { l.unit with
        regs := { u with s := l.b.readBlocks (k * mf) mf, phase := .fill, idx := 0 } } }
  | .fill =>
    if u.idx < n.toNat then
      let (mixed, w) := u.runBlockMix r u.s
      { l with unit := { l.unit with
          regs := { w with s := mixed, idx := u.idx + 1 }
          v := l.unit.v.writeBytes (u.idx * mf) (blockBytes u.s) } }
    else { l with unit := { l.unit with regs := { u with phase := .mix, idx := 0 } } }
  | .mix =>
    if u.idx < n.toNat then
      let t := l.unit.v.readBlocks (smixIndex n u.s * mf) mf
      let (mixed, w) := u.runBlockMix r (xorBlocks u.s t)
      { l with unit := { l.unit with regs := { w with s := mixed, t := t, idx := u.idx + 1 } } }
    else { l with unit := { l.unit with regs := { u with phase := .writeback, idx := 0 } } }
  | .writeback =>
    { unit := { l.unit with regs := { u with phase := .wipe } }
      b := l.b.writeBytes (k * mf) (blockBytes u.s) }
  | .wipe =>
    { l with unit := { l.unit with
        regs := { u with s := [], t := [], phase := .idle }
        v := l.unit.v.wipe 0 (n.toNat * mf) } }

/-- The whole schedule for lane k: LOAD, N turns of FILL and its end, N turns of MIX and its end,
WRITEBACK and WIPE, 2N+5 steps in all (R92). -/
def mixLane (n : Word) (r k : Nat) (u : Worker) (b : Mem) : LaneRun :=
  (LaneRun.step n r k)^[2 * n.toNat + 5]
    { unit := { u with regs := { u.regs with phase := .load } }, b := b }

/-! ## The SMIX command -/

/-- SMIX's results: the schedule of R92 for lane LANE on worker unit 0 (R95, R144). -/
def smixResults (s : State) : State :=
  let l := mixLane s.regs.n s.regs.r.toNat s.regs.lane.toNat (s.units.getD 0 Worker.quiet) s.b
  { s with b := l.b, units := s.units.set 0 l.unit }

/-- SMIX (R95). -/
def execSmix (s : State) : Host.Outcome State Fault Refusal :=
  runCommand (Instr.opc .smix) [.n, .r, .p, .mem, .lane, .b, .v] smixResults s

end Sys2Proof.Machine
end

