-- ==== Sys2Proof/Machine/Parallel.lean ====
section
/-! DEFINITION. The parallel lane engine (R96 to R102): worker units that claim lanes from one counter and
mix them, in any interleaving, until all are done; the function of R100 it computes; and the MIX_ALL
command (R103). -/

namespace Sys2Proof.Machine

/-! ## The function of R100 -/

/-- B with lane k replaced by `LEBytes(SMix(LEWords(lane k)))` (R100). -/
def mixedLane (n : Word) (r : Nat) (b : Mem) (k : Nat) : Mem :=
  b.writeBytes (k * (128 * r)) (blockBytes (smix n (b.readBlocks (k * (128 * r)) (128 * r))))

/-- B with each of the lanes 0 .. p-1 so replaced (R100, R120). -/
def mixedLanes (n : Word) (r p : Nat) (b : Mem) : Mem := (List.range p).foldl (mixedLane n r) b

/-! ## The worker units as agents -/

/-- What a mixing phase is run with: N, r, P and Weff (R96). -/
structure MixJob where
  n : Word
  r : Nat
  p : Nat
  weff : Nat
deriving DecidableEq, Repr

/-- What the worker units share and hold during a mixing phase (R39, R41, R61). -/
structure Pool where
  claim : Nat
  units : List Worker
  b : Mem
deriving DecidableEq, Repr

/-- The claim step of a unit, one fetch-and-increment (R97, R98): it goes on to mix the lane it claimed,
or is DONE when no lane is left. -/
def Pool.claimStep (j : MixJob) (w : Nat) (u : Worker) (q : Pool) : Pool :=
  { q with
    claim := q.claim + 1
    units := q.units.set w { u with wstate := if j.p ≤ q.claim then .done else .mixing q.claim } }

/-- The mix step of a unit: the whole schedule for its lane, and back to CLAIMING (R98). -/
def Pool.mixStep (j : MixJob) (w k : Nat) (u : Worker) (q : Pool) : Pool :=
  let l := mixLane j.n j.r k u q.b
  { q with units := q.units.set w { l.unit with wstate := .claiming }, b := l.b }

/-- A turn of unit w (R98).  A unit at or above Weff, or one that is DONE, does not move. -/
def Pool.turn (j : MixJob) (w : Nat) (q : Pool) : Pool :=
  if w < j.weff then
    match q.units[w]? with
    | none => q
    | some u =>
      match u.wstate with
      | .claiming => q.claimStep j w u
      | .mixing k => q.mixStep j w k u
      | .idle | .done => q
  else q

/-- A unit that can take a step: CLAIMING or MIXING (R98). -/
def Worker.canMove (u : Worker) : Bool :=
  match u.wstate with
  | .claiming | .mixing _ => true
  | .idle | .done => false

/-- The lowest-numbered unit that can take a step. -/
def Pool.firstMovable (q : Pool) : Option Nat := q.units.findIdx? Worker.canMove

/-- With no turn named any more, the lowest-numbered unit that can move does, until none can (the weak
fairness of R157; at most 2P + Weff steps, R101). -/
def Pool.drain (j : MixJob) : Nat → Pool → Pool
  | 0, q => q
  | fuel + 1, q =>
    match q.firstMovable with
    | none => q
    | some w => Pool.drain j fuel (q.turn j w)

/-- The mixing phase under a list of turns, until every unit is DONE: the pool it leaves, and the turns
it did not use (R99, R102). -/
def Pool.run (j : MixJob) : List Nat → Pool → Pool × List Nat
  | ts, q =>
    match q.firstMovable with
    | none => (q, ts)
    | some _ =>
      match ts with
      | [] => (q.drain j (2 * j.p + j.weff), [])
      | w :: ts' => Pool.run j ts' (q.turn j w)

/-- The units below Weff start in CLAIMING, the others stay IDLE (R96, R98). -/
def startUnits (weff : Nat) (us : List Worker) : List Worker :=
  (us.take weff).map (fun u => { u with wstate := .claiming }) ++ us.drop weff

/-- The mixing phase of MIX_ALL, EFFECTIVE_SALT and OPEN_SCRYPT (R96 to R99): the claim counter starts at
0, the units run, and after the join every unit is IDLE and the counter 0. -/
def mixPhase (s : State) : State :=
  let j : MixJob := { n := s.regs.n, r := s.regs.r.toNat, p := s.regs.p.toNat, weff := s.weff }
  let (q, ts) := Pool.run j s.workerTurns { claim := 0, units := startUnits s.weff s.units, b := s.b }
  { s with
    b := q.b
    units := q.units.map fun u => { u with wstate := .idle }
    claim := 0
    workerTurns := ts }

/-! ## The MIX_ALL command -/

/-- MIX_ALL (R103). -/
def execMixAll (s : State) : Host.Outcome State Fault Refusal :=
  runCommand (Instr.opc .mixAll) [.n, .r, .p, .t, .mem, .b, .v] mixPhase s

end Sys2Proof.Machine
end

