-- ==== Sys2Proof/Machine/Scrypt.lean ====
section
/-! DEFINITION. The scrypt orchestration (R120, R121): the scrypt functions of the spec, over any HMAC, and
the commands PBKDF2_FILL, EFFECTIVE_SALT and OPEN_SCRYPT (R122 to R124). -/

namespace Sys2Proof.Machine

/-! ## The functions of R120 -/

/-- `EffectiveSalt_s(K, S, N, r, p)` (R120): one PBKDF2 pass of p·128·r bytes, its p lanes mixed. -/
def effectiveSalt (h : HmacFn) (k : Binding) (key salt : Bytes) (n : Word) (r p : Nat) : Bytes :=
  (mixedLanes n r p (.ofBytes (pbkdf2 h k key salt 1 (128 * r * p)))).readBytes 0 (128 * r * p)

/-- `compute_key(K, S, N, r, p, t, len)` (R120): the first len bytes of the stream keyed by the password
and salted by the effective salt.  The thread count t does not appear in it. -/
def computeKey (h : HmacFn) (k : Binding) (key salt : Bytes) (n : Word) (r p len : Nat) : Bytes :=
  pbkdf2 h k key (effectiveSalt h k key salt n r p) 1 len

/-! ## The commands -/

/-- Stage A: one PBKDF2 pass with one iteration fills B[0..128·r·p) (R122). -/
def fillResults (h : HmacFn) (s : State) : State :=
  { s with b := s.b.writeBytes 0 (pbkdf2 h s.binding s.keyBytes s.saltBytes 1 s.lanesLen) }

/-- PBKDF2_FILL (R122). -/
def execPbkdf2Fill (s : State) : Host.Outcome State Fault Refusal :=
  runCommand (Instr.opc .pbkdf2Fill) [.r, .p, .dom, .key, .salt, .b] (fillResults s.hmac) s

/-- EFFECTIVE_SALT's results: stage A, then the mixing phase over B (R123). -/
def effectiveSaltResults (h : HmacFn) (s : State) : State := mixPhase (fillResults h s)

/-- EFFECTIVE_SALT (R123). -/
def execEffectiveSalt (s : State) : Host.Outcome State Fault Refusal :=
  runCommand (Instr.opc .effectiveSalt) [.n, .r, .p, .t, .mem, .dom, .key, .salt, .b, .v]
    (effectiveSaltResults s.hmac) s

/-- OPEN_SCRYPT's results: those of EFFECTIVE_SALT, then the stream opened on the effective salt in B with
one iteration (R124). -/
def openScryptResults (h : HmacFn) (s : State) : State :=
  let t := effectiveSaltResults h s
  { t with stream := t.stream.reopen s.keyBytes (t.b.readBytes 0 s.lanesLen) 1 s.binding }

/-- OPEN_SCRYPT (R124). -/
def execOpenScrypt (s : State) : Host.Outcome State Fault Refusal :=
  runCommand (Instr.opc .openScrypt) [.n, .r, .p, .t, .mem, .dom, .key, .salt, .b, .v]
    (openScryptResults s.hmac) s

end Sys2Proof.Machine
end

