-- ==== Sys2Proof/Machine/Dispatch.lean ====
section
/-! DEFINITION. `exec`: the running and completion of a command, one arm per row of the opcode map (R69). -/

namespace Sys2Proof.Machine

/-- What a command does from acceptance to completion (R128): one meaning per row of R69. -/
def exec (i : Instr) (s : State) : Host.Outcome State Fault Refusal :=
  match i with
  | .nop => Sys2Proof.Machine.execNop s
  | .salsa => Sys2Proof.Machine.execSalsa s
  | .blockmix => Sys2Proof.Machine.execBlockmix s
  | .smix => Sys2Proof.Machine.execSmix s
  | .mixAll => Sys2Proof.Machine.execMixAll s
  | .pbkdf2Fill => Sys2Proof.Machine.execPbkdf2Fill s
  | .effectiveSalt => Sys2Proof.Machine.execEffectiveSalt s
  | .openScrypt => Sys2Proof.Machine.execOpenScrypt s
  | .openPbkdf2 => Sys2Proof.Machine.execOpenPbkdf2 s
  | .streamRead => Sys2Proof.Machine.execStreamRead s
  | .streamSeekBegin => Sys2Proof.Machine.execStreamSeekBegin s
  | .streamSeekCurrent => Sys2Proof.Machine.execStreamSeekCurrent s
  | .streamSeekEnd => Sys2Proof.Machine.execStreamSeekEnd s
  | .streamWrite => Sys2Proof.Machine.execStreamWrite s
  | .streamSetlen => Sys2Proof.Machine.execStreamSetlen s
  | .close => Sys2Proof.Machine.execClose s
  | .zeroize => Sys2Proof.Machine.execZeroize s

end Sys2Proof.Machine
end

