-- ==== Sys2Proof/Machine/Sequencer.lean ====
section
/-! DEFINITION. What `step` calls: the sequencer's turn, which runs a command or completes an illegal word
(R70, R128), the events of the schedule, the reset input (R147, R148), and the command word a test or a
claim starts the machine with. -/

namespace Sys2Proof.Machine

/-- An illegal command word completes with ILLEGAL_COMMAND and no other effect, ERR_CODE recording its
bits [7:0] "whatever they are" (R70, R130, R137). -/
def State.completeIllegal (cw : Word) (s : State) : State :=
  s.complete (cw.extractLsb' 0 8) .illegalCommand

/-- The reset input is asserted: one step that puts every piece of state in its reset value, whatever the
engine was doing (R148); the line is held (R147), and the parameters and the outside world's schedule, the
events and the units' turns to come, stay (log entry 17). -/
def State.assertReset (s : State) : State :=
  { State.resetWith s.cfg with inputs := s.inputs, workerTurns := s.workerTurns, resetLine := true }

/-- The reset input is deasserted "to the state of rule R148" (R147). -/
def State.releaseReset (s : State) : State := { s with resetLine := false }

/-- A command word standing accepted, with the sequencer's turn next: what a host write of it to CMD
leaves (R129), and the event that makes the engine move first (log entry 6). -/
def State.withCommand (cw : Word) (s : State) : State :=
  { s.accept cw with inputs := .engineTurn :: s.inputs }

/-- The sequencer's turn (R128): a running command is decoded, runs and completes; an IDLE engine waits
for a host access and nothing changes (R146). -/
def engineStep (s : State) : Host.Outcome State Fault Refusal :=
  match s.engine with
  | .idle => .next s
  | .running cw =>
    match decode cw with
    | .ok i => exec i s
    | .error _ => .next (s.completeIllegal cw)

/-- One event of the schedule (R13, R46, R147).  A host access while reset is asserted is refused. -/
def inputStep (e : Input) (s : State) : Host.Outcome State Fault Refusal :=
  match e with
  | .access a => if s.resetLine then .refused .accessDuringReset else .next (s.access a)
  | .resetAssert => .next s.assertReset
  | .resetRelease => .next s.releaseReset
  | .engineTurn => engineStep s

end Sys2Proof.Machine
end

