-- ==== Sys2Proof/Machine/Step.lean ====
section
/-! DEFINITION. One step of the machine: the next event of the schedule, or, when the schedule is empty,
the engine's own turn (R13, R128, R157). -/

namespace Sys2Proof.Machine

/-- One step (R157): the first event to come is taken off the schedule and happens; with no event to
come, the engine takes its turn, so that every accepted command completes (R131). -/
def step (s : State) : Host.Outcome State Fault Refusal :=
  match s.inputs with
  | [] => engineStep s
  | e :: es => inputStep e { s with inputs := es }

/-- The state in which the next step runs the command word whose bits are `w`: the engine fetches
nothing (R63), so the word stands accepted as a host write to CMD leaves it (log entry 6).  Bits of `w`
above `nbits`, and above the 32 of a command word, are 0. -/
def State.withFetchWord (s : State) (nbits w : Nat) : State :=
  s.withCommand (BitVec.ofNat 32 (w % 2 ^ nbits))

end Sys2Proof.Machine
end

