-- ==== Sys2Proof/Safety.lean ====
section
/-! DEFINITION. What a sound state of the engine is, in the terms claims use: the bounds and canonical forms of
its data, no secret left in scratch between steps (R17), a cache that holds what it says (R111), and the
flags that go together (R129). -/

namespace Sys2Proof.Machine

/-- A byte space in canonical form, inside its n bytes (R43). -/
structure Mem.Fits (n : Nat) (m : Mem) : Prop where
  wf : m.wf = true
  within : m.within n = true

/-- The scratch of R17 and the loop state of R19, R39 and R41 as they are whenever no step of a command is
under way: every register and every V_w zero, the claim counter 0, every worker unit IDLE. -/
structure State.Quiet (s : State) : Prop where
  claim : s.claim = 0
  seq : s.seq = MixRegs.zero
  pbk : s.pbk = PbkRegs.zero
  units : ∀ u ∈ s.units, u = Worker.quiet

/-- The stream's state keeps the ranges of R38, a valid cached block is the block its index names (R111),
and a closed stream holds nothing (R110, R118). -/
structure Stream.Sound (c : Params) (t : Stream) : Prop where
  skey : t.skey.Fits t.skeyLen
  skeyLen : t.skeyLen ≤ c.keyMax
  ssalt : t.ssalt.Fits t.ssaltLen
  ssaltLen : t.ssaltLen ≤ c.bBytes
  pos : t.pos < 2 ^ 63
  built : t.ssel = .sha512 → c.hasSha512 = true
  cacheLen : t.cacheBytes.length = t.ssel.hLen
  cacheValid : t.cacheValid = true →
    t.cacheBytes = pbkdf2Block (hmacOf c.hmac) t.ssel t.keyBytes t.saltBytes t.siter.toNat t.cacheIdx
  cacheEmpty : t.cacheValid = false → t.cacheBytes = zeros t.ssel.hLen
  iterations : t.isOpen = true → t.siter ≠ 0
  closed : t.isOpen = false → t = Stream.closed

/-- A sound state. -/
structure State.Sound (s : State) : Prop where
  /-- The parameters are legal (R8). -/
  cfg : s.cfg.wf = true
  /-- The host-visible spaces are canonical and of their sizes (R43). -/
  key : s.key.Fits s.cfg.keyMax
  salt : s.salt.Fits s.cfg.saltMax
  b : s.b.Fits s.cfg.bBytes
  out : s.out.Fits s.cfg.outBytes
  /-- There are W_HW worker units (R13). -/
  units : s.units.length = s.cfg.wHw
  /-- No scratch is left between steps (R17). -/
  quiet : s.Quiet
  /-- HMAC_SEL is 0 where HMAC-SHA512 is not built (R29). -/
  hmacSel : s.regs.hmacSel = true → s.cfg.hasSha512 = true
  /-- The stream is sound. -/
  stream : s.stream.Sound s.cfg
  /-- A running command has DONE and ERR clear (R129). -/
  running : s.busy = true → s.done = false ∧ s.err = false
  /-- No error code above 5 is ever recorded (R132). -/
  errCode : s.errCode.toNat ≤ 5
  /-- While reset is asserted the engine is IDLE (R147, R148). -/
  held : s.resetLine = true → s.engine = .idle

/-- A run that stays safe: it takes n steps and every one of them gives a next state. -/
def State.runsFor (n : Nat) (s : State) : Prop := ∃ t, Host.Core.run Sys2Proof.core n s = .next t

end Sys2Proof.Machine
end

