-- ==== Sys2Proof/Certificates/Slice0/Obligations.lean ====
section
/-! DEFINITION. The statements about the engine, from the numbered rules of the spec, and the few predicates they
are written with: what completion leaves, what a command leaves alone, and the host's accesses by offset. -/

namespace Sys2Proof.Machine

/-! ## The predicates of the statements -/

/-- Two spaces read alike at every offset. -/
def SameBytes (m m' : Mem) : Prop := ∀ a, m'.read a = m.read a

/-- Two spaces read alike at every offset outside the n bytes from a on. -/
def SameBytesOutside (a n : Nat) (m m' : Mem) : Prop := ∀ x, x < a ∨ a + n ≤ x → m'.read x = m.read x

/-- What every completion leaves (R130): IDLE, DONE, ERR and ERR_CODE = (opc << 8) or code, every unit IDLE, the
claim counter 0, the scratch zero; the flags, registers and lines no command writes are as before. -/
structure Finished (opc code : Byte) (s t : State) : Prop where
  idle : t.engine = .idle
  done : t.done = true
  err : t.err = decide (code ≠ 0)
  errCode : t.errCodeWord = opc.setWidth 32 <<< 8 ||| code.setWidth 32
  quiet : t.Quiet
  units : t.units.length = s.units.length
  overrun : t.overrun = s.overrun
  irqEn : t.irqEn = s.irqEn
  regs : t.regs = s.regs
  cfg : t.cfg = s.cfg
  resetLine : t.resetLine = s.resetLine
  inputs : t.inputs = s.inputs
  resp : t.resp = s.resp

/-- KEY and SALT are unchanged. -/
def KeepsKeySalt (s t : State) : Prop := SameBytes s.key t.key ∧ SameBytes s.salt t.salt

/-- READ_COUNT, the stream with its cursor and cache, and OUT are unchanged. -/
def KeepsStreamSide (s t : State) : Prop :=
  t.readCount = s.readCount ∧ t.stream = s.stream ∧ SameBytes s.out t.out

/-- A command that completes with an error changes nothing but DONE, ERR and ERR_CODE (R136). -/
def Rejected (opc code : Byte) (s t : State) : Prop :=
  Finished opc code s t ∧ KeepsKeySalt s t ∧ KeepsStreamSide s t ∧ SameBytes s.b t.b
    ∧ t.workerTurns = s.workerTurns

/-- A command with operation code `opc` and the checks of `row`, in that order: with a failing check it completes
with the first one's code and nothing else happens; with none it completes with code 0, and `effect` holds of the
state before and the state after. -/
def CommandRule (i : Instr) (opc : Byte) (row : List Check) (effect : State → State → Prop) : Prop :=
  ∀ s : State, s.Sound →
    (∀ c, firstFailing s row = some c → ∃ t, exec i s = .next t ∧ Rejected opc c.error.code s t)
      ∧ (firstFailing s row = none → ∃ t, exec i s = .next t ∧ Finished opc 0 s t ∧ effect s t)

/-- The command word of each row of R69's table, as the table writes it. -/
def tableWord : Instr → Word
  | .nop => 0x00000000
  | .salsa => 0x00000001
  | .blockmix => 0x00000002
  | .smix => 0x00000003
  | .mixAll => 0x00000004
  | .pbkdf2Fill => 0x00000005
  | .effectiveSalt => 0x00000006
  | .openScrypt => 0x00000007
  | .openPbkdf2 => 0x00000008
  | .streamRead => 0x00000009
  | .streamSeekBegin => 0x0000000A
  | .streamSeekCurrent => 0x0000010A
  | .streamSeekEnd => 0x0000020A
  | .streamWrite => 0x0000000B
  | .streamSetlen => 0x0000000C
  | .close => 0x0000000D
  | .zeroize => 0x0000000E

/-- Steps 3 to 5 of R135 for each command: the open check of STREAM_READ and STREAM_SEEK, then the row of R135's
table, its invalid-parameter checks and then its resource checks. -/
def checkRow : Instr → List Check
  | .nop | .close | .zeroize | .streamWrite | .streamSetlen => []
  | .salsa => [.rounds]
  | .blockmix => [.r, .b1]
  | .smix => [.n, .r, .p, .mem, .lane, .b, .v]
  | .mixAll => [.n, .r, .p, .t, .mem, .b, .v]
  | .pbkdf2Fill => [.r, .p, .dom, .key, .salt, .b]
  | .effectiveSalt | .openScrypt => [.n, .r, .p, .t, .mem, .dom, .key, .salt, .b, .v]
  | .openPbkdf2 => [.iter, .key, .salt]
  | .streamRead => [.opened, .rlen]
  | .streamSeekBegin => [.opened, .seek .fromBegin]
  | .streamSeekCurrent => [.opened, .seek .fromCurrent]
  | .streamSeekEnd => [.opened, .seek .fromEnd]

/-- The code the running word `cw` completes with (R135). -/
def expectedCode (s : State) (cw : Word) : ErrorCode :=
  match decode cw with
  | .error _ => .illegalCommand
  | .ok i =>
    if i = .streamWrite ∨ i = .streamSetlen then .unsupportedOperation
    else
      match firstFailing s (checkRow i) with
      | some c => c.error
      | none => .none

/-- The host address of an offset of the map of R44. -/
def hostAddr (s : State) (off : Nat) : Word := s.cfg.engineBase + BitVec.ofNat 32 off

/-- A host read at an offset of the map. -/
def hostRead (size : AccessSize) (off : Nat) (s : State) : State := s.access (.read (hostAddr s off) size)

/-- A host write at an offset of the map. -/
def hostWrite (size : AccessSize) (off : Nat) (v : Word) (s : State) : State :=
  s.access (.write (hostAddr s off) size v)

/-- A 4-byte host read at an offset answers OKAY with the value v and changes nothing. -/
def ReadsAs (s : State) (off : Nat) (v : Word) : Prop := hostRead .four off s = s.respond true v

/-- The offset of a window in the map of R44. -/
def Window.base : Window → Nat
  | .key => 0x10000
  | .salt => 0x20000
  | .out => 0x30000
  | .b => 0x100000

/-- The offset lies in the CSR block or in the backed part of a window (R44). -/
def Backed (c : Params) (off : Nat) : Prop :=
  off < 0x1000 ∨ ∃ w : Window, w.base ≤ off ∧ off < w.base + w.capacity c

/-- The sixteen steps (d, a, b, k) of a column round, in the order of R77's table. -/
def columnSteps : List (Fin 16 × Fin 16 × Fin 16 × Nat) :=
  [(4, 0, 12, 7), (8, 4, 0, 9), (12, 8, 4, 13), (0, 12, 8, 18), (9, 5, 1, 7), (13, 9, 5, 9), (1, 13, 9, 13),
    (5, 1, 13, 18), (14, 10, 6, 7), (2, 14, 10, 9), (6, 2, 14, 13), (10, 6, 2, 18), (3, 15, 11, 7), (7, 3, 15, 9),
    (11, 7, 3, 13), (15, 11, 7, 18)]

/-- The sixteen steps (d, a, b, k) of a row round, in the order of R78's table. -/
def rowSteps : List (Fin 16 × Fin 16 × Fin 16 × Nat) :=
  [(1, 0, 3, 7), (2, 1, 0, 9), (3, 2, 1, 13), (0, 3, 2, 18), (6, 5, 4, 7), (7, 6, 5, 9), (4, 7, 6, 13),
    (5, 4, 7, 18), (11, 10, 9, 7), (8, 11, 10, 9), (9, 8, 11, 13), (10, 9, 8, 18), (12, 15, 14, 7), (13, 12, 15, 9),
    (14, 13, 12, 13), (15, 14, 13, 18)]

/-- A list of ARX steps, performed in order. -/
def runSteps (steps : List (Fin 16 × Fin 16 × Fin 16 × Nat)) (x : Block) : Block :=
  steps.foldl (fun y (d, a, b, k) => arx d a b k y) x

/-- The offsets whose writes a RUNNING engine drops with OVERRUN, beside the windows: CMD and the operand registers
(R50). -/
def droppedOffsets : List Nat :=
  [0x020, 0x030, 0x034, 0x038, 0x03C, 0x040, 0x044, 0x048, 0x04C, 0x050, 0x054, 0x058, 0x060, 0x064]

/-- The value of n bytes, the first the least significant (R48). -/
def byteSum (m : Mem) (a n : Nat) : Nat := ((List.range n).map fun k => (m.read (a + k)).toNat * 2 ^ (8 * k)).sum

end Sys2Proof.Machine

open Sys2Proof Sys2Proof.Machine

/-! ## Encoding -/

/-- A few words of R69's table, written out, decode to their commands. -/
def Obligations.SampleWordsDecode : Prop :=
  decode 0x00000000#32 = .ok .nop ∧ decode 0x00000001#32 = .ok .salsa ∧ decode 0x00000004#32 = .ok .mixAll
    ∧ decode 0x00000007#32 = .ok .openScrypt ∧ decode 0x00000009#32 = .ok .streamRead
    ∧ decode 0x0000020A#32 = .ok .streamSeekEnd ∧ decode 0x0000000E#32 = .ok .zeroize

/-- R69: the words that select each command are exactly those of the table. -/
def Obligations.ExactlyTheTableWordsDecode : Prop :=
  ∀ (cw : Word) (i : Instr), decode cw = .ok i ↔ cw = tableWord i

/-- R70: the illegal words are exactly those with OPC in 0x0F to 0xFF, with RSVD not 0, with ORG not 0 and OPC not
0x0A, or with ORG = 3 and OPC = 0x0A. -/
def Obligations.IllegalWordsAreExactlyThese : Prop :=
  ∀ cw : Word, (∃ x, decode cw = .error x) ↔
    0x0F ≤ cw.toNat % 2 ^ 8 ∨ cw.toNat / 2 ^ 10 ≠ 0
      ∨ (cw.toNat / 2 ^ 8 % 4 ≠ 0 ∧ cw.toNat % 2 ^ 8 ≠ 0x0A)
      ∨ (cw.toNat / 2 ^ 8 % 4 = 3 ∧ cw.toNat % 2 ^ 8 = 0x0A)

/-- Decoding and encoding agree, for every command, every word and every value of the fields: no bit of the format
of R65 is dropped, and a word decodes exactly when its fields are well formed. -/
def Obligations.DecodeAndEncodeAgree : Prop :=
  (∀ i : Instr, i.wf = true ∧ decode (encode i) = .ok i)
    ∧ (∀ (cw : Word) (i : Instr), decode cw = .ok i → encode i = cw)
    ∧ (∀ cw : Word, wordOf (fieldsOf cw) = cw)
    ∧ ∀ f : CommandFields, fieldsOf (wordOf f) = f ∧ (f.wf = true ↔ ∃ i, decode (wordOf f) = .ok i)

/-! ## Steps -/

/-- A step runs the decoded command: when the engine is RUNNING a word that decodes, and the next event is the
engine's turn or there is none, the step is `exec` of the command; `withFetchWord` makes it so. -/
def Obligations.StepRunsDecodedCommand : Prop :=
  (∀ (s : State) (cw : Word) (i : Instr), s.engine = .running cw → decode cw = .ok i →
    (s.inputs = [] → step s = exec i s)
      ∧ ∀ es, s.inputs = .engineTurn :: es → step s = exec i { s with inputs := es })
    ∧ ∀ (s : State) (cw : Word) (i : Instr), decode cw = .ok i →
        step (s.withFetchWord 32 cw.toNat) = exec i (s.accept cw)

/-- R70, R137: an illegal running word completes with ILLEGAL_COMMAND and no other effect, ERR_CODE recording its
bits [7:0] whatever they are. -/
def Obligations.IllegalWordCompletes : Prop :=
  ∀ (s : State) (cw : Word) (x : Illegal), s.Sound → s.engine = .running cw → decode cw = .error x →
    ∃ t, engineStep s = .next t ∧ Rejected (cw.extractLsb' 0 8) 4 s t

/-- A host access is one step, whole, while the reset line is low (R46); while it is asserted the step is refused
(R147: the model's choice for RESET_ACCESS, log entry 7); an IDLE engine with no event to come does not move
(log entry 5). -/
def Obligations.StepTakesOneEvent : Prop :=
  ∀ (s : State) (es : List Input),
    (∀ a, s.inputs = .access a :: es → s.resetLine = false → step s = .next ({ s with inputs := es }.access a))
      ∧ (∀ a, s.inputs = .access a :: es → s.resetLine = true → step s = .refused .accessDuringReset)
      ∧ (s.inputs = [] → s.engine = .idle → step s = .next s)

/-- The reset step puts every piece of state in its reset value, whatever the engine was doing: R148 with R42 and R38.
That the step is the one of the assertion, the line held after it, and that the schedule, the events and the units'
turns to come, stays, is the model's reading (DEDUCED, log entry 17). -/
def Obligations.ResetStepClearsEverything : Prop :=
  ∀ (s : State) (es : List Input), s.inputs = .resetAssert :: es → ∃ t, step s = .next t
    ∧ t.engine = .idle ∧ t.statusWord = 0 ∧ t.errCodeWord = 0 ∧ t.irqEn = false ∧ t.irq = false
    ∧ t.regs = { n := 0, r := 0, p := 0, maxThreads := 0, rounds := 8, hmacSel := false, iter := 0, keyLen := 0,
                 saltLen := 0, lane := 0, readLen := 0, seekOffLo := 0, seekOffHi := 0 }
    ∧ t.readCount = 0
    ∧ (∀ a, t.key.read a = 0 ∧ t.salt.read a = 0 ∧ t.b.read a = 0 ∧ t.out.read a = 0)
    ∧ (t.stream.isOpen = false ∧ t.stream.keyBytes = [] ∧ t.stream.saltBytes = [] ∧ t.stream.siter = 0
        ∧ t.stream.ssel = .sha256 ∧ t.stream.pos = 0 ∧ t.stream.cacheValid = false ∧ t.stream.cacheIdx = 0)
    ∧ (∀ a, t.stream.skey.read a = 0 ∧ t.stream.ssalt.read a = 0)
    ∧ (t.stream.cacheBytes.length = 32 ∧ ∀ v ∈ t.stream.cacheBytes, v = 0) ∧ t.stream = Stream.closed
    ∧ t.claim = 0 ∧ t.Quiet ∧ t.units.length = s.cfg.wHw ∧ t.cfg = s.cfg
    ∧ t.resetLine = true ∧ t.inputs = es ∧ t.workerTurns = s.workerTurns

/-- R42: what every piece of state holds after reset, the registers by what the host reads at their offsets (R21's
"reset" column). -/
def Obligations.ResetValues : Prop :=
  ∀ c : Params, c.wf = true → ∀ s : State, s = State.resetWith c →
    ReadsAs s 0x000 0x53435259 ∧ ReadsAs s 0x004 (BitVec.ofNat 32 (c.wHw + 256 * c.hasSha512.toNat))
    ∧ ReadsAs s 0x008 (BitVec.ofNat 32 c.keyMax) ∧ ReadsAs s 0x00C (BitVec.ofNat 32 c.saltMax)
    ∧ ReadsAs s 0x010 (BitVec.ofNat 32 c.bBytes) ∧ ReadsAs s 0x014 (BitVec.ofNat 32 c.outBytes)
    ∧ ReadsAs s 0x018 (BitVec.ofNat 32 c.vlaneBytes) ∧ ReadsAs s 0x040 8
    ∧ (∀ k, k < 1024 → k ∉ [0, 1, 2, 3, 4, 5, 6, 16] → ReadsAs s (4 * k) 0)
    ∧ s.engine = .idle ∧ s.irq = false ∧ s.claim = 0 ∧ s.units = List.replicate c.wHw Worker.quiet
    ∧ s.seq = MixRegs.zero ∧ s.pbk = PbkRegs.zero ∧ s.stream = Stream.closed
    ∧ ∀ a, s.key.read a = 0 ∧ s.salt.read a = 0 ∧ s.b.read a = 0 ∧ s.out.read a = 0

/-- The state after reset is sound, for every legal choice of the parameters. -/
def Obligations.ResetIsSound : Prop := ∀ c : Params, c.wf = true → (State.resetWith c).Sound

/-- Every step keeps a sound state sound: the byte spaces canonical and of their sizes (R43), no scratch left
(R17), HMAC_SEL hard-wired where SHA-512 is not built (R29), a valid cached block the block its index names
(R111), the position below 2^63 (R38), a closed stream empty (R118), DONE and ERR clear while RUNNING (R129). -/
def Obligations.StepKeepsSound : Prop := ∀ s t : State, s.Sound → step s = .next t → t.Sound

/-- No step changes the parameters of the implementation (R8). -/
def Obligations.StepKeepsParameters : Prop := ∀ s t : State, step s = .next t → t.cfg = s.cfg

/-! ## The command lifecycle -/

/-- R129: a host write of any word to CMD while IDLE makes the engine RUNNING with DONE and ERR clear and nothing
else changed; an illegal word then completes with ILLEGAL_COMMAND; while RUNNING no host access changes an operand
register or a window, and a write to CMD is dropped and sets OVERRUN. -/
def Obligations.AcceptanceOfACommand : Prop :=
  ∀ s : State, s.cfg.wf = true → ∀ cw : Word,
    (s.engine = .idle →
      hostWrite .four 0x020 cw s
          = { s with engine := .running cw, done := false, err := false, resp := some ⟨true, 0⟩ }
        ∧ (hostWrite .four 0x020 cw s).statusWord.getLsbD 0 = true
        ∧ (∀ x, decode cw = .error x →
            ∃ t, engineStep (hostWrite .four 0x020 cw s) = .next t ∧ t.errCode = 4 ∧ t.err = true))
      ∧ (∀ w, s.engine = .running w →
          hostWrite .four 0x020 cw s = { s with overrun := true, resp := some ⟨true, 0⟩ }
            ∧ ∀ a : HostAccess, (s.access a).engine = s.engine ∧ (s.access a).regs = s.regs
                ∧ (s.access a).key = s.key ∧ (s.access a).salt = s.salt ∧ (s.access a).b = s.b
                ∧ (s.access a).out = s.out)

/-- Every command completes from every state, whatever it holds: `exec` never stops, and the state it answers is a
completion with some code (R130, R131, R141). -/
def Obligations.EveryCommandCompletes : Prop :=
  ∀ (i : Instr) (s : State), ∃ (t : State) (e : ErrorCode), exec i s = .next t ∧ Finished i.opc e.code s t

/-- Errors are precise and have no partial effect: a command that completes with ERR set changes nothing but DONE,
ERR and ERR_CODE (R136). -/
def Obligations.ErrorsArePrecise : Prop :=
  ∀ (i : Instr) (s t : State), s.Sound → exec i s = .next t → t.err = true →
    Rejected i.opc t.errCode s t ∧ t.errCode ≠ 0

/-- R135: the code a running word completes with is the first that applies, of ILLEGAL_COMMAND,
UNSUPPORTED_OPERATION, STREAM_CLOSED, the invalid-parameter checks of its row in order and the resource checks of
its row in order; with none it succeeds. -/
def Obligations.FirstFailingCheckDecides : Prop :=
  ∀ (s : State) (cw : Word), s.engine = .running cw →
    ∃ t, engineStep s = .next t ∧ t.errCode = (expectedCode s cw).code
      ∧ (t.err = true ↔ expectedCode s cw ≠ .none)

/-- R133, R134: when each check fails, and with which code, over mathematical integers. -/
def Obligations.CheckConditions : Prop :=
  ∀ s : State, s.Sound → ∀ n r p mt : Nat,
    n = s.regs.n.toNat → r = s.regs.r.toNat → p = s.regs.p.toNat → mt = s.regs.maxThreads.toNat →
    (Check.n.fails s = true ↔ ¬ ∃ e, n = 2 ^ e) ∧ (Check.r.fails s = true ↔ r = 0)
    ∧ (Check.p.fails s = true ↔ p = 0) ∧ (Check.t.fails s = true ↔ mt = 0)
    ∧ (Check.mem.fails s = true ↔ 2 ^ 64 ≤ 128 * r * n * p)
    ∧ (Check.dom.fails s = true ↔ (if s.regs.hmacSel then 64 else 32) * (2 ^ 32 - 1) < 128 * r * p)
    ∧ (Check.key.fails s = true ↔ s.cfg.keyMax < s.regs.keyLen.toNat)
    ∧ (Check.salt.fails s = true ↔ s.cfg.saltMax < s.regs.saltLen.toNat)
    ∧ (Check.lane.fails s = true ↔ p ≤ s.regs.lane.toNat)
    ∧ (Check.rounds.fails s = true ↔ s.regs.rounds.toNat ∉ [2, 4, 6, 8, 10, 12, 14, 16, 18, 20])
    ∧ (Check.iter.fails s = true ↔ s.regs.iter = 0)
    ∧ (Check.rlen.fails s = true ↔ s.cfg.outBytes < s.regs.readLen.toNat)
    ∧ (∀ o, (Check.seek o).fails s = true ↔ s.seekTarget o < 0 ∨ 2 ^ 63 - 1 < s.seekTarget o)
    ∧ (Check.b1.fails s = true ↔ s.cfg.bBytes < 128 * r)
    ∧ (Check.b.fails s = true ↔ s.cfg.bBytes < 128 * r * p)
    ∧ (Check.v.fails s = true ↔ s.cfg.vlaneBytes < 128 * r * n)
    ∧ (∀ c ∈ [Check.n, .r, .p, .t, .mem, .dom, .key, .salt, .lane, .rounds, .iter, .rlen, .seek .fromBegin,
        .seek .fromCurrent, .seek .fromEnd], c.error.code = 1)
    ∧ ∀ c ∈ [Check.b1, .b, .v], c.error.code = 2

/-! ## The commands -/

/-- R125: NOP does nothing but complete; issued while RUNNING it is dropped like any CMD write; on a fresh engine it
leaves STATUS = 0x0000_0002. -/
def Obligations.NopOnlyCompletes : Prop :=
  (∀ s : State, s.Sound →
    exec .nop s = .next { s with engine := .idle, done := true, err := false, errCode := 0, errOpc := 0 }
      ∧ ∀ cw, s.engine = .running cw →
          hostWrite .four 0x020 (tableWord .nop) s = { s with overrun := true, resp := some ⟨true, 0⟩ })
    ∧ ∃ t, engineStep (hostWrite .four 0x020 (tableWord .nop) State.reset) = .next t ∧ t.statusWord = 0x00000002

/-- R85: SALSA applies the core with ROUNDS rounds to the first 64 bytes of B in place; B[64..) and everything
else is as before. -/
def Obligations.SalsaCommand : Prop :=
  CommandRule .salsa 0x01 [.rounds] fun s t =>
    t.b.readBytes 0 64
        = blockBytes [salsaCore s.regs.rounds.toNat (blockAt (leWords (s.b.readBytes 0 64)) 0)]
      ∧ SameBytesOutside 0 64 s.b t.b ∧ KeepsKeySalt s t ∧ KeepsStreamSide s t ∧ t.workerTurns = s.workerTurns

/-- R89: BLOCKMIX applies BlockMix to the first 128·R bytes of B in place. -/
def Obligations.BlockmixCommand : Prop :=
  CommandRule .blockmix 0x02 [.r, .b1] fun s t =>
    let n := 128 * s.regs.r.toNat
    t.b.readBytes 0 n = blockBytes (blockMix (blocksOf (leWords (s.b.readBytes 0 n))))
      ∧ SameBytesOutside 0 n s.b t.b ∧ KeepsKeySalt s t ∧ KeepsStreamSide s t ∧ t.workerTurns = s.workerTurns

/-- R95: SMIX runs SMix on lane LANE of B, in place; the other lanes are untouched. -/
def Obligations.SmixCommand : Prop :=
  CommandRule .smix 0x03 [.n, .r, .p, .mem, .lane, .b, .v] fun s t =>
    let mf := 128 * s.regs.r.toNat
    let a := s.regs.lane.toNat * mf
    t.b.readBytes a mf = blockBytes (smix s.regs.n (blocksOf (leWords (s.b.readBytes a mf))))
      ∧ SameBytesOutside a mf s.b t.b ∧ KeepsKeySalt s t ∧ KeepsStreamSide s t ∧ t.workerTurns = s.workerTurns

/-- R103 with the result of R100: MIX_ALL replaces each of the P lanes of B by SMix of it, in every interleaving of
the worker units, and leaves B[P·MFLen..) alone. -/
def Obligations.MixAllCommand : Prop :=
  CommandRule .mixAll 0x04 [.n, .r, .p, .t, .mem, .b, .v] fun s t =>
    let mf := 128 * s.regs.r.toNat
    (∀ k, k < s.regs.p.toNat →
      t.b.readBytes (k * mf) mf = blockBytes (smix s.regs.n (blocksOf (leWords (s.b.readBytes (k * mf) mf)))))
      ∧ SameBytesOutside 0 (s.regs.p.toNat * mf) s.b t.b ∧ KeepsKeySalt s t ∧ KeepsStreamSide s t

/-- R122: PBKDF2_FILL fills B[0..128·R·P) with one PBKDF2 pass of one iteration over the password and salt. -/
def Obligations.Pbkdf2FillCommand : Prop :=
  CommandRule .pbkdf2Fill 0x05 [.r, .p, .dom, .key, .salt, .b] fun s t =>
    let n := 128 * s.regs.r.toNat * s.regs.p.toNat
    t.b.readBytes 0 n
        = pbkdf2 s.hmac s.binding (s.key.readBytes 0 s.regs.keyLen.toNat)
            (s.salt.readBytes 0 s.regs.saltLen.toNat) 1 n
      ∧ SameBytesOutside 0 n s.b t.b ∧ KeepsKeySalt s t ∧ KeepsStreamSide s t ∧ t.workerTurns = s.workerTurns

/-- R123: EFFECTIVE_SALT leaves the effective salt in B[0..128·R·P), whatever MAX_THREADS is. -/
def Obligations.EffectiveSaltCommand : Prop :=
  CommandRule .effectiveSalt 0x06 [.n, .r, .p, .t, .mem, .dom, .key, .salt, .b, .v] fun s t =>
    let n := 128 * s.regs.r.toNat * s.regs.p.toNat
    t.b.readBytes 0 n
        = effectiveSalt s.hmac s.binding (s.key.readBytes 0 s.regs.keyLen.toNat)
            (s.salt.readBytes 0 s.regs.saltLen.toNat) s.regs.n s.regs.r.toNat s.regs.p.toNat
      ∧ SameBytesOutside 0 n s.b t.b ∧ KeepsKeySalt s t ∧ KeepsStreamSide s t

/-- R124: OPEN_SCRYPT leaves the effective salt in B and opens the stream on a copy of it, with the password as key,
one iteration and the selected binding; POS 0, SLEN L(s). -/
def Obligations.OpenScryptCommand : Prop :=
  CommandRule .openScrypt 0x07 [.n, .r, .p, .t, .mem, .dom, .key, .salt, .b, .v] fun s t =>
    let n := 128 * s.regs.r.toNat * s.regs.p.toNat
    let key := s.key.readBytes 0 s.regs.keyLen.toNat
    let es := effectiveSalt s.hmac s.binding key (s.salt.readBytes 0 s.regs.saltLen.toNat) s.regs.n
      s.regs.r.toNat s.regs.p.toNat
    t.b.readBytes 0 n = es ∧ SameBytesOutside 0 n s.b t.b
      ∧ t.stream.isOpen = true ∧ t.stream.keyBytes = key ∧ t.stream.saltBytes = es ∧ t.stream.siter = 1
      ∧ t.stream.ssel = s.binding ∧ t.stream.pos = 0 ∧ t.stream.cacheValid = false
      ∧ (∀ v ∈ t.stream.cacheBytes, v = 0) ∧ t.streamLen = s.binding.hLen * (2 ^ 32 - 1)
      ∧ KeepsKeySalt s t ∧ t.readCount = s.readCount ∧ SameBytes s.out t.out

/-- R112: OPEN_PBKDF2 re-keys the stream with copies of the password and salt, ITER iterations and the selected
binding; POS 0, SLEN L(ssel), the old secret state gone; no later host access changes the open stream. -/
def Obligations.OpenPbkdf2Command : Prop :=
  CommandRule .openPbkdf2 0x08 [.iter, .key, .salt] fun s t =>
    t.stream.isOpen = true ∧ t.stream.keyBytes = s.key.readBytes 0 s.regs.keyLen.toNat
      ∧ t.stream.saltBytes = s.salt.readBytes 0 s.regs.saltLen.toNat ∧ t.stream.siter = s.regs.iter
      ∧ t.stream.ssel = s.binding ∧ t.stream.pos = 0 ∧ t.stream.cacheValid = false
      ∧ (∀ v ∈ t.stream.cacheBytes, v = 0) ∧ t.streamLen = s.binding.hLen * (2 ^ 32 - 1)
      ∧ (∀ a, s.regs.keyLen.toNat ≤ a → t.stream.skey.read a = 0)
      ∧ (∀ a, s.regs.saltLen.toNat ≤ a → t.stream.ssalt.read a = 0)
      ∧ (∀ a : HostAccess, (t.access a).stream = t.stream)
      ∧ KeepsKeySalt s t ∧ SameBytes s.b t.b ∧ t.readCount = s.readCount ∧ SameBytes s.out t.out
      ∧ t.workerTurns = s.workerTurns

/-- R113: STREAM_READ delivers min(READ_LEN, max(0, L - pos)) stream bytes from the cursor into OUT, advances POS
and writes READ_COUNT; the rest of OUT, the stream's key, salt, count and binding, and B are as before. -/
def Obligations.StreamReadCommand : Prop :=
  CommandRule .streamRead 0x09 [.opened, .rlen] fun s t =>
    let count := min s.regs.readLen.toNat (s.stream.ssel.hLen * (2 ^ 32 - 1) - s.stream.pos)
    (∀ m, m < count → t.out.read m
        = streamByte s.hmac s.stream.ssel s.stream.keyBytes s.stream.saltBytes s.stream.siter.toNat
            (s.stream.pos + m))
      ∧ SameBytesOutside 0 count s.out t.out ∧ t.stream.pos = s.stream.pos + count
      ∧ t.readCount.toNat = count
      ∧ (∃ v i bs, t.stream
          = { s.stream with
              cacheValid := v, cacheIdx := i, cacheBytes := bs, pos := s.stream.pos + count })
      ∧ KeepsKeySalt s t ∧ SameBytes s.b t.b ∧ t.workerTurns = s.workerTurns

/-- R114, R115: STREAM_SEEK moves the cursor to base(origin) + offset, an integer, when it is in 0 .. 2^63 - 1, and
fails otherwise; the cache and everything else are as before; ORG = 3 is illegal. -/
def Obligations.StreamSeekCommands : Prop :=
  (∃ x, decode 0x0000030A#32 = .error x) ∧ ∀ (i : Instr) (base : State → Int),
    (i = .streamSeekBegin ∧ base = fun _ => 0)
      ∨ (i = .streamSeekCurrent ∧ base = fun s => (s.stream.pos : Int))
      ∨ (i = .streamSeekEnd ∧ base = fun s => ((s.stream.ssel.hLen * (2 ^ 32 - 1) : Nat) : Int)) →
    ∀ s : State, s.Sound → ∀ off : Int,
      off = (s.regs.seekOffHi.toNat * 2 ^ 32 + s.regs.seekOffLo.toNat : Nat)
          - (if 2 ^ 31 ≤ s.regs.seekOffHi.toNat then 2 ^ 64 else 0) →
      (s.stream.isOpen = false → ∃ t, exec i s = .next t ∧ Rejected 0x0A 5 s t)
        ∧ (s.stream.isOpen = true → base s + off < 0 ∨ 2 ^ 63 - 1 < base s + off →
            ∃ t, exec i s = .next t ∧ Rejected 0x0A 1 s t)
        ∧ (s.stream.isOpen = true → 0 ≤ base s + off → base s + off ≤ 2 ^ 63 - 1 →
            ∃ t, exec i s = .next t ∧ Finished 0x0A 0 s t
              ∧ (t.stream.pos : Int) = base s + off
              ∧ t.stream = { s.stream with pos := t.stream.pos }
              ∧ KeepsKeySalt s t ∧ SameBytes s.b t.b ∧ SameBytes s.out t.out ∧ t.readCount = s.readCount
              ∧ t.workerTurns = s.workerTurns)

/-- R116, R117: STREAM_WRITE and STREAM_SETLEN complete with UNSUPPORTED_OPERATION and change nothing else, whether
the stream is open or closed. -/
def Obligations.StreamIsReadOnly : Prop :=
  ∀ s : State, s.Sound →
    (∃ t, exec .streamWrite s = .next t ∧ Rejected 0x0B 3 s t ∧ t.errCodeWord = 0x00000B03)
      ∧ ∃ t, exec .streamSetlen s = .next t ∧ Rejected 0x0C 3 s t ∧ t.errCodeWord = 0x00000C03

/-- R118: CLOSE wipes the stream's copies and its cached block and closes it, with POS and SLEN 0; the host's
windows and READ_COUNT are as before. -/
def Obligations.CloseCommand : Prop :=
  ∀ s : State, s.Sound → ∃ t, exec .close s = .next t ∧ Finished 0x0D 0 s t
    ∧ t.errCodeWord = 0x00000D00
    ∧ (∀ a, t.stream.skey.read a = 0 ∧ t.stream.ssalt.read a = 0)
    ∧ (t.stream.keyBytes = [] ∧ t.stream.saltBytes = [] ∧ t.stream.siter = 0 ∧ t.stream.ssel = .sha256
        ∧ t.stream.pos = 0 ∧ t.stream.cacheValid = false ∧ t.stream.cacheIdx = 0
        ∧ (∀ v ∈ t.stream.cacheBytes, v = 0) ∧ t.stream.isOpen = false)
    ∧ t.streamLen = 0 ∧ (s.stream.isOpen = false → t.stream = s.stream)
    ∧ KeepsKeySalt s t ∧ SameBytes s.b t.b ∧ SameBytes s.out t.out ∧ t.readCount = s.readCount
    ∧ t.workerTurns = s.workerTurns

/-- R126: ZEROIZE closes the stream as CLOSE does and writes zero to every byte of KEY, SALT, B and OUT; the
registers keep their values. -/
def Obligations.ZeroizeCommand : Prop :=
  ∀ s : State, s.Sound → ∃ t, exec .zeroize s = .next t ∧ Finished 0x0E 0 s t
    ∧ t.errCodeWord = 0x00000E00 ∧ t.stream = Stream.closed ∧ t.streamLen = 0
    ∧ (∀ a, t.key.read a = 0 ∧ t.salt.read a = 0 ∧ t.b.read a = 0 ∧ t.out.read a = 0)
    ∧ t.readCount = s.readCount ∧ t.workerTurns = s.workerTurns

/-! ## Mixing -/

/-- The result of mixing does not depend on the thread count, on the number of worker units or on which unit moves
when (R100): two engines that hold the same lanes and cost parameters end with the same bytes of lanes. -/
def Obligations.MixingIsScheduleIndependent : Prop :=
  ∀ s t : State, s.Sound → t.Sound → s.regs.n = t.regs.n → s.regs.r = t.regs.r → s.regs.p = t.regs.p →
    (∀ a, a < 128 * s.regs.r.toNat * s.regs.p.toNat → s.b.read a = t.b.read a) →
    firstFailing s (checkRow .mixAll) = none → firstFailing t (checkRow .mixAll) = none →
    ∃ s' t', exec .mixAll s = .next s' ∧ exec .mixAll t = .next t'
      ∧ ∀ a, a < 128 * s.regs.r.toNat * s.regs.p.toNat → s'.b.read a = t'.b.read a

/-- The mixing phase ends under every list of turns: when no turn is left every unit below Weff is DONE and every
unit at or above it never moved, and the claim counter stands at P + Weff (R99, R101). -/
def Obligations.MixingPhaseEnds : Prop :=
  ∀ (j : MixJob) (us : List Worker) (b : Mem) (turns : List Nat) (w : Nat) (u : Worker),
    j.n ≠ 0 → 0 < j.r → 0 < j.weff → j.weff ≤ us.length → (∀ v ∈ us, v = Worker.quiet) → b.wf = true →
    ∀ q : Pool, q = (Pool.run j turns { claim := 0, units := startUnits j.weff us, b := b }).1 →
      q.units[w]? = some u → u.wstate = (if w < j.weff then .done else .idle) ∧ q.claim = j.p + j.weff

/-- A claim step is one fetch-and-increment of the shared counter (R97, R98): the unit goes on to the lane it
claimed, or stops when no lane is left; no other unit, and no byte of B, changes. -/
def Obligations.ClaimStepFetchesAndIncrements : Prop :=
  ∀ (j : MixJob) (q : Pool) (w : Nat) (u : Worker), w < j.weff → q.units[w]? = some u →
    u.wstate = .claiming → ∃ q' : Pool, q' = q.turn j w ∧ q'.claim = q.claim + 1 ∧ q'.b = q.b
      ∧ q'.units[w]? = some { u with wstate := if q.claim < j.p then .mixing q.claim else .done }
      ∧ ∀ v, v ≠ w → q'.units[v]? = q.units[v]?

/-- R92: the schedule of a lane on a worker unit. After LOAD and i turns of FILL the state is BlockMix applied i
times to the lane, and entries 0 .. i-1 of V_w hold the states before; after i turns of MIX it has been mixed i
times with the entry Integerify names; then WRITEBACK puts SMix of the lane over the lane alone, and WIPE leaves the
unit's registers and V_w zero. -/
def Obligations.LaneScheduleComputesSMix : Prop :=
  ∀ (n : Word) (r k : Nat) (u : Worker) (b : Mem), n ≠ 0 → u.regs = MixRegs.zero → u.v = [] →
    ∀ (mf : Nat) (s0 : List Block) (run : Nat → LaneRun),
      mf = 128 * r → s0 = b.readBlocks (k * mf) mf →
      (∀ i, run i = (LaneRun.step n r k)^[i] { unit := { u with regs := { u.regs with phase := .load } }, b := b }) →
      (∀ i, i ≤ n.toNat → (run (1 + i)).unit.regs.phase = .fill ∧ (run (1 + i)).unit.regs.idx = i
          ∧ (run (1 + i)).unit.regs.s = blockMix^[i] s0 ∧ (run (1 + i)).b = b
          ∧ ∀ e, e < i → (run (1 + i)).unit.v.readBlocks (e * mf) mf = blockMix^[e] s0)
        ∧ (∀ i, i ≤ n.toNat → (run (n.toNat + 2 + i)).unit.regs.phase = .mix
            ∧ (run (n.toNat + 2 + i)).unit.regs.idx = i ∧ (run (n.toNat + 2 + i)).b = b
            ∧ (run (n.toNat + 2 + i)).unit.regs.s
              = (fun st => blockMix (xorBlocks st (blockMix^[smixIndex n st] s0)))^[i] (blockMix^[n.toNat] s0))
        ∧ (mixLane n r k u b).b.readBytes (k * mf) mf = blockBytes (smix n s0)
        ∧ SameBytesOutside (k * mf) mf b (mixLane n r k u b).b ∧ (mixLane n r k u b).unit = u

/-- R90: the index of a lane state is the first word of its last block modulo N, for N a power of two. -/
def Obligations.IntegerifyIsFirstWordOfLastBlock : Prop :=
  ∀ (n : Word) (e r : Nat) (st : List Block), n.toNat = 2 ^ e → st.length = 2 * r → 1 ≤ r →
    smixIndex n st = ((wordsOf st).getD (16 * (2 * r - 1)) 0).toNat % n.toNat

/-- R86, R87: BlockMix runs the core over the 2r blocks in order, the running state starting as the last block;
the result for block 2i is output block i, the one for block 2i+1 is output block r+i. -/
def Obligations.BlockMixDeinterleaves : Prop :=
  ∀ (r : Nat) (bs : List Block), 1 ≤ r → bs.length = 2 * r →
    ∃ q : Nat → Block, q 0 = bs.getD (2 * r - 1) zeroBlock
      ∧ (∀ k, k < 2 * r → q (k + 1) = salsaCore 8 (xorBlock (q k) (bs.getD k zeroBlock)))
      ∧ (blockMix bs).length = 2 * r
      ∧ ∀ i, i < r → (blockMix bs).getD i zeroBlock = q (2 * i + 1)
          ∧ (blockMix bs).getD (r + i) zeroBlock = q (2 * i + 2)

/-! ## The Salsa core -/

/-- The Salsa core from its steps up. R75: an ARX step writes X[d] alone, with X[d] xor the rotated wrapping sum of X[a]
and X[b], and d is never a or b. R76 to R78: a quarter-round is its four steps, a column round and a row round their
four quarter-rounds and their sixteen steps, in order. R80: a double round is a column round and then a row round,
and n rounds are n/2 of them. With R81: the core adds the input word by word, and run on the registers X and Z it
gives that block and leaves them zero. -/
def Obligations.RoundsAreTheirStepTables : Prop :=
  (∀ (d a b : Fin 16) (k : Nat) (x : Block) (j : Fin 16),
    (arx d a b k x)[j] = if j = d then x[d] ^^^ rotl32 (x[a] + x[b]) k else x[j])
    ∧ (∀ p ∈ columnSteps ++ rowSteps, p.1 ≠ p.2.1 ∧ p.1 ≠ p.2.2.1)
    ∧ (∀ (y0 y1 y2 y3 : Fin 16) (x : Block), quarterRound y0 y1 y2 y3 x
        = runSteps [(y1, y0, y3, 7), (y2, y1, y0, 9), (y3, y2, y1, 13), (y0, y3, y2, 18)] x)
    ∧ (∀ x : Block,
        columnRound x = quarterRound 15 3 7 11 (quarterRound 10 14 2 6 (quarterRound 5 9 13 1 (quarterRound 0 4 8 12 x)))
          ∧ columnRound x = runSteps columnSteps x
          ∧ rowRound x
            = quarterRound 15 12 13 14 (quarterRound 10 11 8 9 (quarterRound 5 6 7 4 (quarterRound 0 1 2 3 x)))
          ∧ rowRound x = runSteps rowSteps x ∧ doubleRound x = rowRound (columnRound x))
    ∧ ∀ (n : Nat) (inp : Block) (u : MixRegs),
        (∀ i : Fin 16, (salsaCore n inp)[i] = ((fun x => rowRound (columnRound x))^[n / 2] inp)[i] + inp[i])
          ∧ (u.runSalsa n inp).1 = salsaCore n inp
          ∧ (u.runSalsa n inp).2 = { u with x := zeroBlock, z := zeroBlock }

/-- Bit i of rotl32(v, k) is bit (i - k) mod 32 of v (R74). -/
def Obligations.RotationMovesBits : Prop :=
  ∀ (v : Word) (k i : Nat), 1 ≤ k → k ≤ 31 → i < 32 → (rotl32 v k).getLsbD i = v.getLsbD ((i + 32 - k) % 32)

/-- The zero block is a fixed point of the core for every round count, and so of BlockMix (R84, R89). -/
def Obligations.ZeroBlockIsFixed : Prop :=
  (∀ n, salsaCore n zeroBlock = zeroBlock)
    ∧ ∀ r, blockMix (List.replicate (2 * r) zeroBlock) = List.replicate (2 * r) zeroBlock

/-! ## PBKDF2 and the stream -/

/-- The PBKDF2 block is the xor of U1 .. Uc, each the HMAC of the one before, U1 of the salt and the block index in
four bytes, the most significant first (R53, R106), for every HMAC. -/
def Obligations.Pbkdf2BlockXorsItsIterations : Prop :=
  ∀ (h : HmacFn) (k : Binding) (key salt : Bytes) (c : Nat) (i : Word), 1 ≤ c →
    ∃ u : Nat → Bytes, u 1 = (h k key (salt ++ [BitVec.ofNat 8 (i.toNat / 2 ^ 24), BitVec.ofNat 8 (i.toNat / 2 ^ 16),
          BitVec.ofNat 8 (i.toNat / 2 ^ 8), BitVec.ofNat 8 i.toNat])).toList
      ∧ (∀ m, 1 ≤ m → u (m + 1) = (h k key (u m)).toList)
      ∧ (∀ m, 1 ≤ m → (u m).length = k.hLen)
      ∧ ∀ x, x < k.hLen → (pbkdf2Block h k key salt c i).getD x 0
          = ((List.range c).map fun m => (u (m + 1)).getD x 0).foldl (· ^^^ ·) 0

/-- PBKDF2 output of any length is the stream bytes from position 0 on, and the byte at x is byte x mod hLen of
block floor(x / hLen) + 1 (R108, R109). -/
def Obligations.Pbkdf2IsThePrefixOfTheStream : Prop :=
  ∀ (h : HmacFn) (k : Binding) (key salt : Bytes) (c len : Nat), len ≤ domainLen k →
    (pbkdf2 h k key salt c len).length = len
      ∧ ∀ x, x < len → (pbkdf2 h k key salt c len).getD x 0
          = (pbkdf2Block h k key salt c (BitVec.ofNat 32 (x / k.hLen + 1))).getD (x % k.hLen) 0

/-- Chunked reads (R119): with the stream open, reading n1 bytes and then n2 delivers the same bytes, and leaves the
cursor where, reading n1 + n2 at once does. -/
def Obligations.ChunkedReadsAgree : Prop :=
  ∀ (s : State) (n1 n2 : Word), s.Sound → s.stream.isOpen = true → n1.toNat + n2.toNat ≤ s.cfg.outBytes →
    ∃ t1 t2 t, exec .streamRead { s with regs := { s.regs with readLen := n1 } } = .next t1
      ∧ exec .streamRead { t1 with regs := { t1.regs with readLen := n2 } } = .next t2
      ∧ exec .streamRead { s with regs := { s.regs with readLen := n1 + n2 } } = .next t
      ∧ t1.out.readBytes 0 t1.readCount.toNat ++ t2.out.readBytes 0 t2.readCount.toNat
          = t.out.readBytes 0 t.readCount.toNat
      ∧ t2.stream.pos = t.stream.pos

/-- compute_key through the engine (R120): OPEN_SCRYPT and then STREAM_READ deliver the first READ_LEN bytes of the
scrypt stream of the password and salt, whatever MAX_THREADS, W_HW and the order of the units' turns are. -/
def Obligations.ComputeKeyThroughTheEngine : Prop :=
  ∀ s : State, s.Sound → firstFailing s (checkRow .openScrypt) = none → s.regs.readLen.toNat ≤ s.cfg.outBytes →
    ∃ t u, exec .openScrypt s = .next t ∧ exec .streamRead t = .next u
      ∧ u.readCount = s.regs.readLen
      ∧ u.out.readBytes 0 s.regs.readLen.toNat
          = computeKey s.hmac s.binding (s.key.readBytes 0 s.regs.keyLen.toNat)
              (s.salt.readBytes 0 s.regs.saltLen.toNat) s.regs.n s.regs.r.toNat s.regs.p.toNat
              s.regs.readLen.toNat

/-! ## The host's accesses -/

/-- STATUS (R24): what each bit reads, and that a host write clears exactly the DONE, ERR and OVERRUN bits written
as 1, IDLE or RUNNING. -/
def Obligations.StatusRegister : Prop :=
  ∀ s : State, s.cfg.wf = true →
    (∃ v : Word, ReadsAs s 0x024 v ∧ (v.getLsbD 0 = true ↔ ∃ cw, s.engine = .running cw)
      ∧ v.getLsbD 1 = s.done ∧ v.getLsbD 2 = s.err ∧ v.getLsbD 3 = s.overrun ∧ v.getLsbD 4 = s.stream.isOpen
      ∧ v.getLsbD 5 = (s.done && s.irqEn) ∧ ∀ i, 6 ≤ i → v.getLsbD i = false)
      ∧ ∀ v : Word, hostWrite .four 0x024 v s
          = { s with
              done := if v.getLsbD 1 then false else s.done
              err := if v.getLsbD 2 then false else s.err
              overrun := if v.getLsbD 3 then false else s.overrun
              resp := some ⟨true, 0⟩ }

/-- R22: ID, CAPS and the capacity registers read their constants, IDLE or RUNNING, and writes to them are ignored
with an OKAY response. -/
def Obligations.IdentificationRegisters : Prop :=
  ∀ s : State, s.cfg.wf = true →
    ReadsAs s 0x000 0x53435259
      ∧ (∃ v : Word, ReadsAs s 0x004 v ∧ v.toNat % 256 = s.cfg.wHw ∧ v.getLsbD 8 = s.cfg.hasSha512
          ∧ v.toNat / 512 = 0)
      ∧ (∃ v : Word, ReadsAs s 0x008 v ∧ v.toNat = s.cfg.keyMax)
      ∧ (∃ v : Word, ReadsAs s 0x00C v ∧ v.toNat = s.cfg.saltMax)
      ∧ (∃ v : Word, ReadsAs s 0x010 v ∧ v.toNat = s.cfg.bBytes)
      ∧ (∃ v : Word, ReadsAs s 0x014 v ∧ v.toNat = s.cfg.outBytes)
      ∧ (∃ v : Word, ReadsAs s 0x018 v ∧ v.toNat = s.cfg.vlaneBytes)
      ∧ ∀ (k : Nat) (v : Word), k ≤ 6 → hostWrite .four (4 * k) v s = s.respond true 0

/-- R26: CTRL holds IRQ_EN in bit 0, 0 at reset, its other bits reading 0 and ignoring writes; a write is taken IDLE
or RUNNING and touches nothing else, OVERRUN among it; it enables the interrupt output. -/
def Obligations.CtrlRegister : Prop :=
  (∀ c, (State.resetWith c).irqEn = false)
    ∧ ∀ s : State, s.cfg.wf = true →
      ReadsAs s 0x02C (if s.irqEn then 1 else 0)
        ∧ (∀ v : Word, hostWrite .four 0x02C v s = { s with irqEn := v.getLsbD 0, resp := some ⟨true, 0⟩ })
        ∧ (s.irqEn = false → s.irq = false) ∧ (s.irqEn = true → s.irq = s.done)

/-- The operand registers while IDLE (R27, R28, R30 to R34): each reads back as written, ROUNDS its low 8 bits, and
a write to one changes no other register, space or flag. -/
def Obligations.OperandRegistersReadBack : Prop :=
  ∀ (s : State) (v : Word), s.cfg.wf = true → s.engine = .idle →
    (∀ off ∈ [0x030, 0x034, 0x038, 0x03C, 0x048, 0x04C, 0x050, 0x054, 0x058, 0x060, 0x064],
      ReadsAs (hostWrite .four off v s) off v)
      ∧ ReadsAs (hostWrite .four 0x040 v s) 0x040 (v &&& 0xFF)
      ∧ ∀ off ∈ [0x030, 0x034, 0x038, 0x03C, 0x040, 0x044, 0x048, 0x04C, 0x050, 0x054, 0x058, 0x060, 0x064],
          (∃ g, hostWrite .four off v s = { s with regs := g, resp := some ⟨true, 0⟩ })
            ∧ ∀ k w, k < 1024 → 4 * k ≠ off → ReadsAs s (4 * k) w → ReadsAs (hostWrite .four off v s) (4 * k) w

/-- R29: HMAC_SEL holds the binding in bit 0, hard-wired to 0 and ignoring writes where SHA-512 is not built, its
other bits reading 0; 0 selects HMAC-SHA256 with 32-byte tags, 1 HMAC-SHA512 with 64-byte tags; 0 at reset. -/
def Obligations.HmacSelRegister : Prop :=
  (∀ s : State, s.cfg.wf = true →
    (s.cfg.hasSha512 = false → ReadsAs s 0x044 0 ∧ s.binding = .sha256)
      ∧ (s.engine = .idle → ∀ v : Word, ∃ t, t = hostWrite .four 0x044 v s
          ∧ ReadsAs t 0x044 (if v.getLsbD 0 = true ∧ s.cfg.hasSha512 = true then 1 else 0)
          ∧ t.binding = (if v.getLsbD 0 = true ∧ s.cfg.hasSha512 = true then .sha512 else .sha256)))
    ∧ Binding.hLen .sha256 = 32 ∧ Binding.hLen .sha512 = 64
    ∧ ∀ c : Params, c.wf = true → ReadsAs (State.resetWith c) 0x044 0

/-- R36: a reserved CSR offset reads 0 and ignores writes with an OKAY response, IDLE or RUNNING; an access to the CSR
range that is not of 4 bytes, or not 4-byte aligned, gets an ERROR response and has no effect. -/
def Obligations.ReservedCsrOffsets : Prop :=
  ∀ s : State, s.cfg.wf = true →
    (∀ k : Nat, 4 * k = 0x01C ∨ (0x078 ≤ 4 * k ∧ 4 * k ≤ 0xFFC) →
      ReadsAs s (4 * k) 0 ∧ ∀ v : Word, hostWrite .four (4 * k) v s = s.respond true 0)
      ∧ ∀ (off : Nat) (size : AccessSize), off < 0x1000 → size ≠ .four ∨ off % 4 ≠ 0 →
          hostRead size off s = s.respond false 0 ∧ ∀ v : Word, hostWrite size off v s = s.respond false 0

/-- R47: an access at an unmapped address, at an address that is not a multiple of its size, or to the CSR block
with size 1 or 2, gets an ERROR response with value 0 and changes nothing. -/
def Obligations.ErrorAccessesHaveNoEffect : Prop :=
  ∀ (s : State) (addr : Word) (size : AccessSize), s.cfg.wf = true →
    ∀ off : Nat, off = (addr - s.cfg.engineBase).toNat →
      ¬ Backed s.cfg off ∨ addr.toNat % size.bytes ≠ 0 ∨ (off < 0x1000 ∧ size ≠ .four) →
      s.access (.read addr size) = s.respond false 0
        ∧ ∀ v : Word, s.access (.write addr size v) = s.respond false 0

/-- R48: while IDLE, an aligned access inside the backed part of a window reads or writes its bytes in little-endian
lane order, and nothing else changes. -/
def Obligations.WindowAccessesUseLittleEndianLanes : Prop :=
  ∀ (s : State) (w : Window) (off : Nat) (size : AccessSize), s.cfg.wf = true → s.engine = .idle →
    off % size.bytes = 0 → off + size.bytes ≤ w.capacity s.cfg →
    (∃ v : Word, hostRead size (w.base + off) s = s.respond true v
      ∧ v.toNat = byteSum (s.window w) off size.bytes)
      ∧ ∀ v : Word, ∃ m : Mem, hostWrite size (w.base + off) v s = (s.setWindow w m).respond true 0
          ∧ (∀ k, k < size.bytes → m.read (off + k) = v.extractLsb' (8 * k) 8)
          ∧ SameBytesOutside off size.bytes (s.window w) m

/-- R49: while RUNNING, a read of a backed, aligned window offset returns 0 with an OKAY response and has no effect,
and a read of a register returns its current value. -/
def Obligations.RunningReads : Prop :=
  ∀ (s : State) (cw : Word), s.cfg.wf = true → s.engine = .running cw →
    (∀ (w : Window) (off : Nat) (size : AccessSize), off % size.bytes = 0 → off + size.bytes ≤ w.capacity s.cfg →
      hostRead size (w.base + off) s = s.respond true 0)
      ∧ ∀ (k : Nat) (v : Word), k < 1024 → 4 * k ≠ 0x024 → ReadsAs { s with engine := .idle } (4 * k) v →
          ReadsAs s (4 * k) v

/-- R50: while RUNNING, a write to a window, to CMD or to an operand register is dropped and sets OVERRUN, with an
OKAY response; STATUS and CTRL writes take effect; writes to read-only and reserved registers are ignored and do
not set OVERRUN. -/
def Obligations.RunningWrites : Prop :=
  ∀ (s : State) (cw v : Word), s.cfg.wf = true → s.engine = .running cw →
    (∀ (w : Window) (off : Nat) (size : AccessSize), off % size.bytes = 0 → off + size.bytes ≤ w.capacity s.cfg →
      hostWrite size (w.base + off) v s = { s with overrun := true, resp := some ⟨true, 0⟩ })
      ∧ (∀ off ∈ [0x020, 0x030, 0x034, 0x038, 0x03C, 0x040, 0x044, 0x048, 0x04C, 0x050, 0x054, 0x058, 0x060,
          0x064], hostWrite .four off v s = { s with overrun := true, resp := some ⟨true, 0⟩ })
      ∧ hostWrite .four 0x024 v s = (s.writeStatus v).respond true 0
      ∧ hostWrite .four 0x02C v s = { s with irqEn := v.getLsbD 0, resp := some ⟨true, 0⟩ }
      ∧ ∀ k : Nat, k < 1024 → 4 * k ∉ [0x020, 0x024, 0x02C, 0x030, 0x034, 0x038, 0x03C, 0x040, 0x044, 0x048, 0x04C,
          0x050, 0x054, 0x058, 0x060, 0x064] → hostWrite .four (4 * k) v s = s.respond true 0

/-- The word view and the byte view of B agree (R55): a 4-byte write at offset 4k sets word k of the LEWords view,
and a 1-byte read at 4k+j then returns its byte j. -/
def Obligations.WordAndByteViewsAgree : Prop :=
  ∀ (s : State) (k : Nat) (v : Word), s.cfg.wf = true → s.engine = .idle → 4 * k + 4 ≤ s.cfg.bBytes →
    ∃ t, t = hostWrite .four (0x100000 + 4 * k) v s
      ∧ (leWords (t.b.readBytes 0 s.cfg.bBytes)).getD k 0 = v
      ∧ (∀ i, i ≠ k → 4 * i + 4 ≤ s.cfg.bBytes →
          (leWords (t.b.readBytes 0 s.cfg.bBytes)).getD i 0 = (leWords (s.b.readBytes 0 s.cfg.bBytes)).getD i 0)
      ∧ ∀ j, j < 4 → hostRead .one (0x100000 + 4 * k + j) t = t.respond true ((v.extractLsb' (8 * j) 8).setWidth 32)

/-- The interrupt output is the level DONE and IRQ_EN (R139): a completion of any command raises it exactly when
IRQ_EN is 1; a host write of 1 to STATUS.DONE, the clearing of IRQ_EN and the acceptance of a command lower it. -/
def Obligations.InterruptIsALevel : Prop :=
  (∀ s : State, s.irq = (s.done && s.irqEn) ∧ s.statusWord.getLsbD 5 = s.irq)
    ∧ (∀ (i : Instr) (s t : State), exec i s = .next t → t.irq = s.irqEn)
    ∧ ∀ (s : State) (v : Word), (v.getLsbD 1 = true → (s.writeStatus v).irq = false)
        ∧ (s.accept v).irq = false ∧ (v.getLsbD 0 = false → (s.writeCsr .ctrl v).irq = false)

/-- OVERRUN (R24, R50, R138): a step that raises it is a host write to CMD, to an operand register or to the backed part
of a window while RUNNING, and the write is dropped: it is answered OKAY and nothing but OVERRUN changes. A step
lowers it only by a host write to STATUS with bit 3 set, or by reset. -/
def Obligations.OverrunRecordsDroppedWrites : Prop :=
  ∀ s t : State, step s = .next t →
    (s.overrun = false → t.overrun = true → s.busy = true ∧ ∃ addr size v es off,
        s.inputs = .access (.write addr size v) :: es ∧ off = (addr - s.cfg.engineBase).toNat
          ∧ (off ∈ droppedOffsets ∨ ∃ w : Window, w.base ≤ off ∧ off < w.base + w.capacity s.cfg)
          ∧ t = { s with inputs := es, overrun := true, resp := some ⟨true, 0⟩ })
      ∧ (s.overrun = true → t.overrun = false → ∃ es, s.inputs = .resetAssert :: es
          ∨ ∃ addr v, s.inputs = .access (.write addr .four v) :: es ∧ v.getLsbD 3 = true
              ∧ (addr - s.cfg.engineBase).toNat = 0x024)

/-- A command runs to its end (R18, R150): a step takes the engine from RUNNING to IDLE only by completing the
command, DONE set, or by reset; and from IDLE to RUNNING only by a host write of the word to CMD. -/
def Obligations.CommandsRunToTheirEnd : Prop :=
  ∀ (s t : State) (cw : Word), step s = .next t →
    (s.engine = .running cw → t.engine = .running cw
        ∨ (t.engine = .idle ∧ (t.done = true ∨ ∃ es, s.inputs = .resetAssert :: es)))
      ∧ (s.engine = .idle → t.engine = .running cw → ∃ addr es,
          s.inputs = .access (.write addr .four cw) :: es ∧ (addr - s.cfg.engineBase).toNat = 0x020)

/-- The result registers and the stream change only at a completion (R33, R35, R57): no host access changes
READ_COUNT, the stream, POS, SLEN or ERR_CODE, and a host read changes nothing but its answer. -/
def Obligations.HostAccessesKeepResults : Prop :=
  ∀ (s : State) (a : HostAccess), (s.access a).readCount = s.readCount ∧ (s.access a).stream = s.stream
    ∧ (s.access a).errCodeWord = s.errCodeWord ∧ (s.access a).streamLen = s.streamLen
    ∧ (∀ addr size, a = .read addr size → ∃ r, s.access a = { s with resp := some r })

/-- What the host reads of the results, IDLE or RUNNING: CMD reads 0 (R23); ERR_CODE has the error code in bits [7:0],
the operation code in bits [15:8] and 0 above (R25); READ_COUNT is the last read's count (R33); POS_HI:POS_LO is the
position, bit 63 clear, and SLEN_HI:SLEN_LO the stream's length L, 0 while it is closed (R35). A write to a read-only
one is ignored with an OKAY response. -/
def Obligations.ResultRegistersRead : Prop :=
  ∀ s : State, s.Sound →
    ReadsAs s 0x020 0
      ∧ (∃ v : Word, ReadsAs s 0x028 v ∧ v.extractLsb' 0 8 = s.errCode ∧ v.extractLsb' 8 8 = s.errOpc
          ∧ v.toNat / 2 ^ 16 = 0)
      ∧ ReadsAs s 0x05C s.readCount
      ∧ (∃ lo hi : Word, ReadsAs s 0x068 lo ∧ ReadsAs s 0x06C hi
          ∧ hi.toNat * 2 ^ 32 + lo.toNat = s.stream.pos ∧ hi.getLsbD 31 = false)
      ∧ (∃ lo hi : Word, ReadsAs s 0x070 lo ∧ ReadsAs s 0x074 hi
          ∧ hi.toNat * 2 ^ 32 + lo.toNat
            = if s.stream.isOpen then (if s.stream.ssel = .sha256 then 32 else 64) * (2 ^ 32 - 1) else 0)
      ∧ ∀ off ∈ [0x028, 0x05C, 0x068, 0x06C, 0x070, 0x074], ∀ v : Word, hostWrite .four off v s = s.respond true 0
end

