-- ==== Sys2Proof/Laws/Mem.lean ====
section
/-! SUPPORT. Laws of byte spaces: what a read gives after a write or a wipe, the frame, the canonical form
and its use (equal contents are equal data), and bounds. -/

namespace Sys2Proof.Machine

theorem Mem.wf_iff (m : Mem) : m.wf = true ↔ (m.Pairwise fun c d => c.1 < d.1) ∧ ∀ c ∈ m, c.2 ≠ 0 := by
  simp [Mem.wf]

theorem Mem.within_iff (n : Nat) (m : Mem) : m.within n = true ↔ ∀ c ∈ m, c.1 < n := by
  simp [Mem.within]

@[simp] theorem Mem.wf_nil : Mem.wf [] = true := by simp [Mem.wf]

@[simp] theorem Mem.within_nil (n : Nat) : Mem.within n [] = true := by simp [Mem.within]

@[simp] theorem Mem.read_nil (x : Nat) : Mem.read [] x = 0 := rfl

theorem Mem.lookup_cell (k : Nat) (v : Byte) (m : Mem) (x : Nat) :
    List.lookup x ((k, v) :: m) = if x = k then some v else m.lookup x := by
  by_cases h : x = k
  · subst h
    simp [List.lookup]
  · have hb : (x == k) = false := by simp [h]
    simp [List.lookup, hb, h]

theorem Mem.lookup_filter (f : Nat → Bool) (m : Mem) (x : Nat) :
    (m.filter fun c => f c.1).lookup x = if f x then m.lookup x else none := by
  induction m with
  | nil => simp
  | cons c m ih =>
    obtain ⟨k, v⟩ := c
    rw [Mem.lookup_cell, List.filter_cons]
    by_cases hk : x = k
    · subst hk
      cases hf : f x
      · simp only [Bool.false_eq_true, if_false]
        rw [ih, hf]
        simp
      · simp
    · cases hf : f k
      · simp only [Bool.false_eq_true, if_false, hk]
        exact ih
      · simp only [if_true, Mem.lookup_cell, hk, if_false]
        exact ih

theorem Mem.read_filter (f : Nat → Bool) (m : Mem) (x : Nat) :
    Mem.read (m.filter fun c => f c.1) x = if f x then m.read x else 0 := by
  unfold Mem.read
  rw [Mem.lookup_filter]
  split <;> simp_all

theorem Mem.cells_cons (a : Nat) (w : Byte) (v : Bytes) :
    Mem.cells a (w :: v) = if w = 0 then Mem.cells (a + 1) v else (a, w) :: Mem.cells (a + 1) v := rfl

theorem Mem.lookup_cells (a : Nat) (v : Bytes) (x : Nat) :
    (Mem.cells a v).lookup x
      = if a ≤ x ∧ x < a + v.length ∧ v.getD (x - a) 0 ≠ 0 then some (v.getD (x - a) 0) else none := by
  induction v generalizing a with
  | nil => simp [Mem.cells]
  | cons w v ih =>
    have step : (Mem.cells a (w :: v)).lookup x
        = if x = a ∧ w ≠ 0 then some w else (Mem.cells (a + 1) v).lookup x := by
      rw [Mem.cells_cons]
      by_cases hw : w = 0
      · rw [if_pos hw, if_neg (fun h => h.2 hw)]
      · rw [if_neg hw, Mem.lookup_cell]
        by_cases hx : x = a
        · rw [if_pos hx, if_pos ⟨hx, hw⟩]
        · rw [if_neg hx, if_neg (fun h => hx h.1)]
    rw [step, ih]
    rcases Nat.lt_trichotomy x a with h | h | h
    · rw [if_neg (by omega), if_neg (by omega), if_neg (by omega)]
    · subst h
      by_cases hw : w = 0 <;> simp [hw]
    · obtain ⟨d, rfl⟩ : ∃ d, x = a + 1 + d := ⟨x - (a + 1), by omega⟩
      have e1 : a + 1 + d - a = d + 1 := by omega
      have e2 : a + 1 + d - (a + 1) = d := by omega
      have e3 : (a + 1 + d < a + (v.length + 1)) ↔ (a + 1 + d < a + 1 + v.length) := by omega
      have e4 : a ≤ a + 1 + d := by omega
      have e5 : a + 1 ≤ a + 1 + d := by omega
      have e6 : ¬ (a + 1 + d = a) := by omega
      simp only [e1, e2, e4, e5, e6, List.getD_cons_succ, List.length_cons, e3, false_and, if_false]

/-- A read after a write: the written byte inside the written range, the old byte outside. -/
theorem Mem.read_writeBytes (m : Mem) (a : Nat) (v : Bytes) (x : Nat) :
    (m.writeBytes a v).read x = if a ≤ x ∧ x < a + v.length then v.getD (x - a) 0 else m.read x := by
  have lo := Mem.lookup_filter (fun k => decide (k < a)) m x
  have hi := Mem.lookup_filter (fun k => decide (a + v.length ≤ k)) m x
  have mid := Mem.lookup_cells a v x
  unfold Mem.writeBytes Mem.read
  rw [List.lookup_append, List.lookup_append, lo, hi, mid]
  simp only [decide_eq_true_eq]
  by_cases h1 : x < a
  · have h2 : ¬ (a ≤ x ∧ x < a + v.length) := by omega
    have h3 : ¬ (a ≤ x ∧ x < a + v.length ∧ v.getD (x - a) 0 ≠ 0) := fun h => h2 ⟨h.1, h.2.1⟩
    have h4 : ¬ (a + v.length ≤ x) := by omega
    rw [if_pos h1, if_neg h2, if_neg h3, if_neg h4]
    simp
  · by_cases h2 : x < a + v.length
    · have h4 : ¬ (a + v.length ≤ x) := by omega
      have h5 : a ≤ x ∧ x < a + v.length := by omega
      rw [if_neg h1, if_pos h5, if_neg h4]
      by_cases hz : v.getD (x - a) 0 = 0
      · rw [if_neg (fun h => h.2.2 hz), hz]
        simp
      · rw [if_pos ⟨h5.1, h5.2, hz⟩]
        simp
    · have h3 : ¬ (a ≤ x ∧ x < a + v.length) := by omega
      have h4 : a + v.length ≤ x := by omega
      rw [if_neg h1, if_neg h3, if_pos h4, if_neg (fun h => h2 h.2.1)]
      simp

/-- A write leaves every other offset alone. -/
theorem Mem.read_writeBytes_outside (m : Mem) {a x : Nat} {v : Bytes}
    (h : x < a ∨ a + v.length ≤ x) : (m.writeBytes a v).read x = m.read x := by
  rw [Mem.read_writeBytes, if_neg (by omega)]

/-- A read after a wipe: zero inside the wiped range, the old byte outside. -/
theorem Mem.read_wipe (m : Mem) (a n x : Nat) :
    (m.wipe a n).read x = if a ≤ x ∧ x < a + n then 0 else m.read x := by
  have := Mem.read_filter (fun k => decide (k < a) || decide (a + n ≤ k)) m x
  unfold Mem.wipe
  rw [this]
  by_cases h : a ≤ x ∧ x < a + n
  · rw [if_pos h, if_neg (by simp; omega)]
  · rw [if_neg h, if_pos (by simp; omega)]

@[simp] theorem Mem.readBytes_length (m : Mem) (a n : Nat) : (m.readBytes a n).length = n := by
  simp [Mem.readBytes]

theorem Mem.readBytes_getD (m : Mem) (a n k : Nat) (h : k < n) : (m.readBytes a n).getD k 0 = m.read (a + k) := by
  simp [Mem.readBytes, List.getD, h]

/-- Two spaces that read alike on a range give the same string there. -/
theorem Mem.readBytes_congr {m m' : Mem} {a n : Nat} (h : ∀ k < n, m.read (a + k) = m'.read (a + k)) :
    m.readBytes a n = m'.readBytes a n := by
  unfold Mem.readBytes
  apply List.map_congr_left
  intro k hk
  exact h k (List.mem_range.mp hk)

/-- Reading back the written range gives the written string. -/
@[simp] theorem Mem.readBytes_writeBytes (m : Mem) (a : Nat) (v : Bytes) :
    (m.writeBytes a v).readBytes a v.length = v := by
  apply List.ext_getElem (by simp)
  intro k h1 h2
  simp only [Mem.readBytes, List.getElem_map, List.getElem_range]
  rw [Mem.read_writeBytes, if_pos (by omega)]
  simp [List.getD, h2]

/-- A string outside the written range is read as before. -/
theorem Mem.readBytes_writeBytes_outside (m : Mem) {a n c : Nat} {v : Bytes}
    (h : c + n ≤ a ∨ a + v.length ≤ c) : (m.writeBytes a v).readBytes c n = m.readBytes c n := by
  apply Mem.readBytes_congr
  intro k hk
  exact Mem.read_writeBytes_outside m (by omega)

theorem Mem.mem_cells {a : Nat} {v : Bytes} {c : Host.Cell} (h : c ∈ Mem.cells a v) :
    a ≤ c.1 ∧ c.1 < a + v.length ∧ c.2 ≠ 0 := by
  induction v generalizing a with
  | nil => simp [Mem.cells] at h
  | cons w v ih =>
    rw [Mem.cells_cons] at h
    split at h
    · obtain ⟨h1, h2, h3⟩ := ih h
      exact ⟨by omega, by simp only [List.length_cons]; omega, h3⟩
    · rcases List.mem_cons.mp h with rfl | h
      · simp_all
      · obtain ⟨h1, h2, h3⟩ := ih h
        exact ⟨by omega, by simp only [List.length_cons]; omega, h3⟩

theorem Mem.wf_cells (a : Nat) (v : Bytes) : (Mem.cells a v).wf = true := by
  rw [Mem.wf_iff]
  refine ⟨?_, fun c h => (Mem.mem_cells h).2.2⟩
  induction v generalizing a with
  | nil => simp [Mem.cells]
  | cons w v ih =>
    rw [Mem.cells_cons]
    split
    · exact ih _
    · refine List.pairwise_cons.mpr ⟨fun c h => ?_, ih _⟩
      have := Mem.mem_cells h
      simp only
      omega

theorem Mem.wf_filter {m : Mem} (f : Host.Cell → Bool) (h : m.wf = true) : Mem.wf (m.filter f) = true := by
  rw [Mem.wf_iff] at *
  exact ⟨h.1.filter f, fun c hc => h.2 c (List.mem_filter.mp hc).1⟩

/-- A write keeps the canonical form. -/
theorem Mem.wf_writeBytes {m : Mem} (a : Nat) (v : Bytes) (h : m.wf = true) : (m.writeBytes a v).wf = true := by
  have hl := Mem.wf_filter (fun c => decide (c.1 < a)) h
  have hh := Mem.wf_filter (fun c => decide (a + v.length ≤ c.1)) h
  have hc := Mem.wf_cells a v
  rw [Mem.wf_iff] at *
  unfold Mem.writeBytes
  constructor
  · rw [List.pairwise_append, List.pairwise_append]
    refine ⟨⟨hl.1, hc.1, fun c hcl d hd => ?_⟩, hh.1, fun c hcl d hd => ?_⟩
    · have := Mem.mem_cells hd
      simp only [List.mem_filter, decide_eq_true_eq] at hcl
      omega
    · simp only [List.mem_filter, decide_eq_true_eq] at hd
      rcases List.mem_append.mp hcl with hcl | hcl
      · simp only [List.mem_filter, decide_eq_true_eq] at hcl
        omega
      · have := Mem.mem_cells hcl
        omega
  · intro c hcm
    rcases List.mem_append.mp hcm with hcm | hcm
    · rcases List.mem_append.mp hcm with hcm | hcm
      · exact hl.2 c hcm
      · exact hc.2 c hcm
    · exact hh.2 c hcm

/-- A wipe keeps the canonical form. -/
theorem Mem.wf_wipe {m : Mem} (a n : Nat) (h : m.wf = true) : (m.wipe a n).wf = true :=
  Mem.wf_filter _ h

theorem Mem.wf_ofBytes (v : Bytes) : (Mem.ofBytes v).wf = true := Mem.wf_cells 0 v

/-- A write inside a space of n bytes stays inside it. -/
theorem Mem.within_writeBytes {m : Mem} {n a : Nat} {v : Bytes} (h : m.within n = true)
    (hv : a + v.length ≤ n) : (m.writeBytes a v).within n = true := by
  rw [Mem.within_iff] at *
  intro c hc
  rcases List.mem_append.mp hc with hc | hc
  · rcases List.mem_append.mp hc with hc | hc
    · exact h c (List.mem_filter.mp hc).1
    · have := Mem.mem_cells hc
      omega
  · exact h c (List.mem_filter.mp hc).1

theorem Mem.within_wipe {m : Mem} {n : Nat} (a k : Nat) (h : m.within n = true) : (m.wipe a k).within n = true := by
  rw [Mem.within_iff] at *
  exact fun c hc => h c (List.mem_filter.mp hc).1

theorem Mem.within_ofBytes (v : Bytes) : (Mem.ofBytes v).within v.length = true := by
  rw [Mem.within_iff]
  intro c hc
  have := Mem.mem_cells hc
  omega

theorem Mem.within_mono {m : Mem} {n k : Nat} (hnk : n ≤ k) (h : m.within n = true) : m.within k = true := by
  rw [Mem.within_iff] at *
  exact fun c hc => Nat.lt_of_lt_of_le (h c hc) hnk

/-- Wiping the whole of a space leaves nothing listed. -/
theorem Mem.wipe_all {m : Mem} {n : Nat} (h : m.within n = true) : m.wipe 0 n = [] := by
  rw [Mem.within_iff] at h
  unfold Mem.wipe
  rw [List.filter_eq_nil_iff]
  intro c hc
  have := h c hc
  simp
  omega

theorem Mem.read_zero_of_within {m : Mem} {n x : Nat} (h : m.within n = true) (hx : n ≤ x) : m.read x = 0 := by
  rw [Mem.within_iff] at h
  unfold Mem.read
  have : m.lookup x = none := by
    rw [List.lookup_eq_none_iff]
    intro c hc
    have := h c hc
    simp only [bne_iff_ne, ne_eq]
    omega
  simp [this]

theorem Mem.read_ofBytes (v : Bytes) (x : Nat) : (Mem.ofBytes v).read x = v.getD x 0 := by
  have h := Mem.read_writeBytes [] 0 v x
  have e : Mem.writeBytes [] 0 v = Mem.ofBytes v := by simp [Mem.writeBytes, Mem.ofBytes]
  rw [e] at h
  rw [h]
  by_cases hx : x < v.length
  · simp [hx]
  · simp [hx]

/-- The string a space was built from reads back. -/
@[simp] theorem Mem.readBytes_ofBytes (v : Bytes) : (Mem.ofBytes v).readBytes 0 v.length = v := by
  have h := Mem.readBytes_writeBytes [] 0 v
  have e : Mem.writeBytes [] 0 v = Mem.ofBytes v := by simp [Mem.writeBytes, Mem.ofBytes]
  rwa [e] at h

theorem Mem.lookup_of_wf {m : Mem} (h : m.wf = true) (c : Host.Cell) (hc : c ∈ m) : m.lookup c.1 = some c.2 := by
  rw [Mem.wf_iff] at h
  induction m with
  | nil => simp at hc
  | cons d m ih =>
    obtain ⟨hp, hz⟩ := h
    rw [List.pairwise_cons] at hp
    obtain ⟨dk, dv⟩ := d
    rw [Mem.lookup_cell]
    rcases List.mem_cons.mp hc with rfl | hc'
    · simp
    · have hlt : dk < c.1 := hp.1 c hc'
      rw [if_neg (by omega)]
      exact ih ⟨hp.2, fun e he => hz e (List.mem_cons_of_mem _ he)⟩ hc'

theorem Mem.mem_of_lookup {m : Mem} {x : Nat} {v : Byte} (h : m.lookup x = some v) : (x, v) ∈ m := by
  induction m with
  | nil => simp at h
  | cons d m ih =>
    obtain ⟨dk, dv⟩ := d
    rw [Mem.lookup_cell] at h
    by_cases hk : x = dk
    · rw [if_pos hk] at h
      simp_all
    · rw [if_neg hk] at h
      exact List.mem_cons_of_mem _ (ih h)

theorem Mem.mem_of_read {m : Mem} {x : Nat} (h : m.read x ≠ 0) : (x, m.read x) ∈ m := by
  unfold Mem.read at *
  cases hl : m.lookup x with
  | none => simp [hl] at h
  | some v => exact Mem.mem_of_lookup hl

/-- Equal contents are equal data: two spaces in canonical form that read alike everywhere are the same
list. -/
theorem Mem.ext_of_wf {m m' : Mem} (h : m.wf = true) (h' : m'.wf = true) (hr : ∀ x, m.read x = m'.read x) :
    m = m' := by
  have sub : ∀ {a b : Mem}, a.wf = true → (∀ x, a.read x = b.read x) → ∀ c ∈ a, c ∈ b := by
    intro a b ha hab c hc
    have hl := Mem.lookup_of_wf ha c hc
    have hcr : a.read c.1 = c.2 := by simp [Mem.read, hl]
    have hnz := ((Mem.wf_iff a).mp ha).2 c hc
    have := Mem.mem_of_read (m := b) (x := c.1) (by rw [← hab, hcr]; exact hnz)
    rwa [← hab, hcr] at this
  have nd : ∀ {a : Mem}, a.wf = true → a.Pairwise (fun c d => c.1 < d.1) := fun ha => ((Mem.wf_iff _).mp ha).1
  have nodup : ∀ {a : Mem}, a.wf = true → a.Nodup := by
    intro a ha
    exact (nd ha).imp fun {c d} hlt e => by subst e; exact Nat.lt_irrefl _ hlt
  have perm : m.Perm m' := (List.perm_ext_iff_of_nodup (nodup h) (nodup h')).mpr fun c =>
    ⟨sub h hr c, sub h' (fun x => (hr x).symm) c⟩
  refine List.Perm.eq_of_pairwise ?_ (nd h) (nd h') perm
  intro a b _ _ h1 h2
  omega

/-- Writing twice to disjoint ranges gives the same space in either order. -/
theorem Mem.writeBytes_comm {m : Mem} {a c : Nat} {v w : Bytes} (hm : m.wf = true)
    (h : a + v.length ≤ c ∨ c + w.length ≤ a) :
    (m.writeBytes a v).writeBytes c w = (m.writeBytes c w).writeBytes a v := by
  apply Mem.ext_of_wf (Mem.wf_writeBytes _ _ (Mem.wf_writeBytes _ _ hm))
    (Mem.wf_writeBytes _ _ (Mem.wf_writeBytes _ _ hm))
  intro x
  simp only [Mem.read_writeBytes]
  by_cases h1 : a ≤ x ∧ x < a + v.length <;> by_cases h2 : c ≤ x ∧ x < c + w.length <;> simp only [h1, h2] <;>
    first
    | rfl
    | (exfalso; omega)

end Sys2Proof.Machine
end

