-- ==== Sys2Proof/Laws/Bus.lean ====
section
/-! SUPPORT. What a host access can do, said once: where an address at an offset of the map is routed (R44, R47),
and what a read and a write then are. -/

namespace Sys2Proof.Machine

/-- An offset of the map, added to ENGINE_BASE, is taken back whole (R44). -/
theorem Params.target_offset (c : Params) {off : Nat} (h : off < 2 ^ 32) :
    Params.target c (c.engineBase + BitVec.ofNat 32 off) = targetAt off := by
  unfold Params.target
  congr 1
  rw [BitVec.add_comm, BitVec.add_sub_cancel, BitVec.toNat_ofNat, Nat.mod_eq_of_lt h]

/-- An address and its offset are aligned alike (log entry 9). -/
theorem Params.offset_mod {c : Params} (hc : c.engineBase.toNat % 4 = 0) (size : AccessSize) {off : Nat}
    (h : off < 2 ^ 32) : (c.engineBase + BitVec.ofNat 32 off).toNat % size.bytes = off % size.bytes := by
  rw [BitVec.toNat_add, BitVec.toNat_ofNat, Nat.mod_eq_of_lt h]
  cases size <;> simp only [AccessSize.bytes] <;> omega

/-- A 4-byte access at a register's offset reaches the register block. -/
theorem Params.route_csr {c : Params} (hc : c.engineBase.toNat % 4 = 0) {off : Nat} (h : off < 0x1000)
    (h4 : off % 4 = 0) : Params.route c (c.engineBase + BitVec.ofNat 32 off) .four = some (.csr off) := by
  have hlt : off < 2 ^ 32 := by omega
  have ht : targetAt off = .csr off := by
    unfold targetAt
    rw [if_pos h]
  unfold Params.route
  rw [Params.target_offset c hlt, Params.offset_mod hc .four hlt, ht]
  simp [AccessSize.bytes, h4]

/-- A 4-byte read at a register's offset answers what `readValue` says and changes nothing else. -/
theorem State.access_read_csr {s : State} (hc : s.cfg.engineBase.toNat % 4 = 0) {off : Nat} (h : off < 0x1000)
    (h4 : off % 4 = 0) :
    s.access (.read (s.cfg.engineBase + BitVec.ofNat 32 off) .four)
      = s.respond true (s.readValue .four (.csr off)) := by
  simp only [State.access, Params.route_csr hc h h4]

/-- A 4-byte write at a register's offset is what `writeValue` says, with an OKAY response. -/
theorem State.access_write_csr {s : State} (hc : s.cfg.engineBase.toNat % 4 = 0) {off : Nat} (v : Word)
    (h : off < 0x1000) (h4 : off % 4 = 0) :
    s.access (.write (s.cfg.engineBase + BitVec.ofNat 32 off) .four v)
      = (s.writeValue .four v (.csr off)).respond true 0 := by
  simp only [State.access, Params.route_csr hc h h4]

/-- Everything a host access can leave: a response, and, for a write that is routed, its effect. -/
theorem State.access_cases (s : State) (a : HostAccess) :
    (∃ o v, s.access a = s.respond o v)
      ∨ ∃ addr size v t, a = .write addr size v ∧ Params.route s.cfg addr size = some t
          ∧ s.access a = (s.writeValue size v t).respond true 0 := by
  cases a with
  | read addr size =>
    refine .inl ?_
    unfold State.access
    dsimp only
    split
    · exact ⟨_, _, rfl⟩
    · exact ⟨_, _, rfl⟩
  | write addr size v =>
    cases h : Params.route s.cfg addr size with
    | none => exact .inl ⟨false, 0, by simp only [State.access, h]⟩
    | some t => exact .inr ⟨addr, size, v, t, rfl, h, by simp only [State.access, h]⟩

end Sys2Proof.Machine
end

