-- ==== Sys2Proof/Laws/State.lean ====
section
/-! SUPPORT. For each update of the state, one lemma per field: what the update leaves in it. -/

namespace Sys2Proof.Machine

/-! ## After acceptance (R129) -/

@[simp] theorem State.accept_cfg (cw : Word) (s : State) : (s.accept cw).cfg = s.cfg := rfl
@[simp] theorem State.accept_engine (cw : Word) (s : State) : (s.accept cw).engine = .running cw := rfl
@[simp] theorem State.accept_done (cw : Word) (s : State) : (s.accept cw).done = false := rfl
@[simp] theorem State.accept_err (cw : Word) (s : State) : (s.accept cw).err = false := rfl
@[simp] theorem State.accept_overrun (cw : Word) (s : State) : (s.accept cw).overrun = s.overrun := rfl
@[simp] theorem State.accept_errCode (cw : Word) (s : State) : (s.accept cw).errCode = s.errCode := rfl
@[simp] theorem State.accept_errOpc (cw : Word) (s : State) : (s.accept cw).errOpc = s.errOpc := rfl
@[simp] theorem State.accept_irqEn (cw : Word) (s : State) : (s.accept cw).irqEn = s.irqEn := rfl
@[simp] theorem State.accept_regs (cw : Word) (s : State) : (s.accept cw).regs = s.regs := rfl
@[simp] theorem State.accept_readCount (cw : Word) (s : State) : (s.accept cw).readCount = s.readCount := rfl
@[simp] theorem State.accept_key (cw : Word) (s : State) : (s.accept cw).key = s.key := rfl
@[simp] theorem State.accept_salt (cw : Word) (s : State) : (s.accept cw).salt = s.salt := rfl
@[simp] theorem State.accept_b (cw : Word) (s : State) : (s.accept cw).b = s.b := rfl
@[simp] theorem State.accept_out (cw : Word) (s : State) : (s.accept cw).out = s.out := rfl
@[simp] theorem State.accept_stream (cw : Word) (s : State) : (s.accept cw).stream = s.stream := rfl
@[simp] theorem State.accept_claim (cw : Word) (s : State) : (s.accept cw).claim = s.claim := rfl
@[simp] theorem State.accept_seq (cw : Word) (s : State) : (s.accept cw).seq = s.seq := rfl
@[simp] theorem State.accept_pbk (cw : Word) (s : State) : (s.accept cw).pbk = s.pbk := rfl
@[simp] theorem State.accept_units (cw : Word) (s : State) : (s.accept cw).units = s.units := rfl
@[simp] theorem State.accept_resetLine (cw : Word) (s : State) : (s.accept cw).resetLine = s.resetLine := rfl
@[simp] theorem State.accept_inputs (cw : Word) (s : State) : (s.accept cw).inputs = s.inputs := rfl
@[simp] theorem State.accept_resp (cw : Word) (s : State) : (s.accept cw).resp = s.resp := rfl
@[simp] theorem State.accept_workerTurns (cw : Word) (s : State) : (s.accept cw).workerTurns = s.workerTurns := rfl

/-! ## After clearing the scratch (R17, R130) -/

@[simp] theorem State.quieten_cfg (s : State) : (s.quieten).cfg = s.cfg := rfl
@[simp] theorem State.quieten_engine (s : State) : (s.quieten).engine = s.engine := rfl
@[simp] theorem State.quieten_done (s : State) : (s.quieten).done = s.done := rfl
@[simp] theorem State.quieten_err (s : State) : (s.quieten).err = s.err := rfl
@[simp] theorem State.quieten_overrun (s : State) : (s.quieten).overrun = s.overrun := rfl
@[simp] theorem State.quieten_errCode (s : State) : (s.quieten).errCode = s.errCode := rfl
@[simp] theorem State.quieten_errOpc (s : State) : (s.quieten).errOpc = s.errOpc := rfl
@[simp] theorem State.quieten_irqEn (s : State) : (s.quieten).irqEn = s.irqEn := rfl
@[simp] theorem State.quieten_regs (s : State) : (s.quieten).regs = s.regs := rfl
@[simp] theorem State.quieten_readCount (s : State) : (s.quieten).readCount = s.readCount := rfl
@[simp] theorem State.quieten_key (s : State) : (s.quieten).key = s.key := rfl
@[simp] theorem State.quieten_salt (s : State) : (s.quieten).salt = s.salt := rfl
@[simp] theorem State.quieten_b (s : State) : (s.quieten).b = s.b := rfl
@[simp] theorem State.quieten_out (s : State) : (s.quieten).out = s.out := rfl
@[simp] theorem State.quieten_stream (s : State) : (s.quieten).stream = s.stream := rfl
@[simp] theorem State.quieten_claim (s : State) : (s.quieten).claim = 0 := rfl
@[simp] theorem State.quieten_seq (s : State) : (s.quieten).seq = MixRegs.zero := rfl
@[simp] theorem State.quieten_pbk (s : State) : (s.quieten).pbk = PbkRegs.zero := rfl
@[simp] theorem State.quieten_units (s : State) : (s.quieten).units = s.units.map fun _ => Worker.quiet := rfl
@[simp] theorem State.quieten_resetLine (s : State) : (s.quieten).resetLine = s.resetLine := rfl
@[simp] theorem State.quieten_inputs (s : State) : (s.quieten).inputs = s.inputs := rfl
@[simp] theorem State.quieten_resp (s : State) : (s.quieten).resp = s.resp := rfl
@[simp] theorem State.quieten_workerTurns (s : State) : (s.quieten).workerTurns = s.workerTurns := rfl

/-! ## After completion (R130) -/

@[simp] theorem State.complete_cfg (opc : Byte) (e : ErrorCode) (s : State) : (s.complete opc e).cfg = s.cfg := rfl
@[simp] theorem State.complete_engine (opc : Byte) (e : ErrorCode) (s : State) : (s.complete opc e).engine = .idle := rfl
@[simp] theorem State.complete_done (opc : Byte) (e : ErrorCode) (s : State) : (s.complete opc e).done = true := rfl
@[simp] theorem State.complete_err (opc : Byte) (e : ErrorCode) (s : State) : (s.complete opc e).err = decide (e ≠ .none) := rfl
@[simp] theorem State.complete_overrun (opc : Byte) (e : ErrorCode) (s : State) : (s.complete opc e).overrun = s.overrun := rfl
@[simp] theorem State.complete_errCode (opc : Byte) (e : ErrorCode) (s : State) : (s.complete opc e).errCode = e.code := rfl
@[simp] theorem State.complete_errOpc (opc : Byte) (e : ErrorCode) (s : State) : (s.complete opc e).errOpc = opc := rfl
@[simp] theorem State.complete_irqEn (opc : Byte) (e : ErrorCode) (s : State) : (s.complete opc e).irqEn = s.irqEn := rfl
@[simp] theorem State.complete_regs (opc : Byte) (e : ErrorCode) (s : State) : (s.complete opc e).regs = s.regs := rfl
@[simp] theorem State.complete_readCount (opc : Byte) (e : ErrorCode) (s : State) : (s.complete opc e).readCount = s.readCount := rfl
@[simp] theorem State.complete_key (opc : Byte) (e : ErrorCode) (s : State) : (s.complete opc e).key = s.key := rfl
@[simp] theorem State.complete_salt (opc : Byte) (e : ErrorCode) (s : State) : (s.complete opc e).salt = s.salt := rfl
@[simp] theorem State.complete_b (opc : Byte) (e : ErrorCode) (s : State) : (s.complete opc e).b = s.b := rfl
@[simp] theorem State.complete_out (opc : Byte) (e : ErrorCode) (s : State) : (s.complete opc e).out = s.out := rfl
@[simp] theorem State.complete_stream (opc : Byte) (e : ErrorCode) (s : State) : (s.complete opc e).stream = s.stream := rfl
@[simp] theorem State.complete_claim (opc : Byte) (e : ErrorCode) (s : State) : (s.complete opc e).claim = 0 := rfl
@[simp] theorem State.complete_seq (opc : Byte) (e : ErrorCode) (s : State) : (s.complete opc e).seq = MixRegs.zero := rfl
@[simp] theorem State.complete_pbk (opc : Byte) (e : ErrorCode) (s : State) : (s.complete opc e).pbk = PbkRegs.zero := rfl
@[simp] theorem State.complete_units (opc : Byte) (e : ErrorCode) (s : State) : (s.complete opc e).units = s.units.map fun _ => Worker.quiet := rfl
@[simp] theorem State.complete_resetLine (opc : Byte) (e : ErrorCode) (s : State) : (s.complete opc e).resetLine = s.resetLine := rfl
@[simp] theorem State.complete_inputs (opc : Byte) (e : ErrorCode) (s : State) : (s.complete opc e).inputs = s.inputs := rfl
@[simp] theorem State.complete_resp (opc : Byte) (e : ErrorCode) (s : State) : (s.complete opc e).resp = s.resp := rfl
@[simp] theorem State.complete_workerTurns (opc : Byte) (e : ErrorCode) (s : State) : (s.complete opc e).workerTurns = s.workerTurns := rfl

/-! ## After a dropped write (R50) -/

@[simp] theorem State.setOverrun_cfg (s : State) : (s.setOverrun).cfg = s.cfg := rfl
@[simp] theorem State.setOverrun_engine (s : State) : (s.setOverrun).engine = s.engine := rfl
@[simp] theorem State.setOverrun_done (s : State) : (s.setOverrun).done = s.done := rfl
@[simp] theorem State.setOverrun_err (s : State) : (s.setOverrun).err = s.err := rfl
@[simp] theorem State.setOverrun_overrun (s : State) : (s.setOverrun).overrun = true := rfl
@[simp] theorem State.setOverrun_errCode (s : State) : (s.setOverrun).errCode = s.errCode := rfl
@[simp] theorem State.setOverrun_errOpc (s : State) : (s.setOverrun).errOpc = s.errOpc := rfl
@[simp] theorem State.setOverrun_irqEn (s : State) : (s.setOverrun).irqEn = s.irqEn := rfl
@[simp] theorem State.setOverrun_regs (s : State) : (s.setOverrun).regs = s.regs := rfl
@[simp] theorem State.setOverrun_readCount (s : State) : (s.setOverrun).readCount = s.readCount := rfl
@[simp] theorem State.setOverrun_key (s : State) : (s.setOverrun).key = s.key := rfl
@[simp] theorem State.setOverrun_salt (s : State) : (s.setOverrun).salt = s.salt := rfl
@[simp] theorem State.setOverrun_b (s : State) : (s.setOverrun).b = s.b := rfl
@[simp] theorem State.setOverrun_out (s : State) : (s.setOverrun).out = s.out := rfl
@[simp] theorem State.setOverrun_stream (s : State) : (s.setOverrun).stream = s.stream := rfl
@[simp] theorem State.setOverrun_claim (s : State) : (s.setOverrun).claim = s.claim := rfl
@[simp] theorem State.setOverrun_seq (s : State) : (s.setOverrun).seq = s.seq := rfl
@[simp] theorem State.setOverrun_pbk (s : State) : (s.setOverrun).pbk = s.pbk := rfl
@[simp] theorem State.setOverrun_units (s : State) : (s.setOverrun).units = s.units := rfl
@[simp] theorem State.setOverrun_resetLine (s : State) : (s.setOverrun).resetLine = s.resetLine := rfl
@[simp] theorem State.setOverrun_inputs (s : State) : (s.setOverrun).inputs = s.inputs := rfl
@[simp] theorem State.setOverrun_resp (s : State) : (s.setOverrun).resp = s.resp := rfl
@[simp] theorem State.setOverrun_workerTurns (s : State) : (s.setOverrun).workerTurns = s.workerTurns := rfl

/-! ## After a write to STATUS (R24) -/

@[simp] theorem State.writeStatus_cfg (v : Word) (s : State) : (s.writeStatus v).cfg = s.cfg := rfl
@[simp] theorem State.writeStatus_engine (v : Word) (s : State) : (s.writeStatus v).engine = s.engine := rfl
@[simp] theorem State.writeStatus_done (v : Word) (s : State) : (s.writeStatus v).done = (s.done && !v.getLsbD 1) := rfl
@[simp] theorem State.writeStatus_err (v : Word) (s : State) : (s.writeStatus v).err = (s.err && !v.getLsbD 2) := rfl
@[simp] theorem State.writeStatus_overrun (v : Word) (s : State) : (s.writeStatus v).overrun = (s.overrun && !v.getLsbD 3) := rfl
@[simp] theorem State.writeStatus_errCode (v : Word) (s : State) : (s.writeStatus v).errCode = s.errCode := rfl
@[simp] theorem State.writeStatus_errOpc (v : Word) (s : State) : (s.writeStatus v).errOpc = s.errOpc := rfl
@[simp] theorem State.writeStatus_irqEn (v : Word) (s : State) : (s.writeStatus v).irqEn = s.irqEn := rfl
@[simp] theorem State.writeStatus_regs (v : Word) (s : State) : (s.writeStatus v).regs = s.regs := rfl
@[simp] theorem State.writeStatus_readCount (v : Word) (s : State) : (s.writeStatus v).readCount = s.readCount := rfl
@[simp] theorem State.writeStatus_key (v : Word) (s : State) : (s.writeStatus v).key = s.key := rfl
@[simp] theorem State.writeStatus_salt (v : Word) (s : State) : (s.writeStatus v).salt = s.salt := rfl
@[simp] theorem State.writeStatus_b (v : Word) (s : State) : (s.writeStatus v).b = s.b := rfl
@[simp] theorem State.writeStatus_out (v : Word) (s : State) : (s.writeStatus v).out = s.out := rfl
@[simp] theorem State.writeStatus_stream (v : Word) (s : State) : (s.writeStatus v).stream = s.stream := rfl
@[simp] theorem State.writeStatus_claim (v : Word) (s : State) : (s.writeStatus v).claim = s.claim := rfl
@[simp] theorem State.writeStatus_seq (v : Word) (s : State) : (s.writeStatus v).seq = s.seq := rfl
@[simp] theorem State.writeStatus_pbk (v : Word) (s : State) : (s.writeStatus v).pbk = s.pbk := rfl
@[simp] theorem State.writeStatus_units (v : Word) (s : State) : (s.writeStatus v).units = s.units := rfl
@[simp] theorem State.writeStatus_resetLine (v : Word) (s : State) : (s.writeStatus v).resetLine = s.resetLine := rfl
@[simp] theorem State.writeStatus_inputs (v : Word) (s : State) : (s.writeStatus v).inputs = s.inputs := rfl
@[simp] theorem State.writeStatus_resp (v : Word) (s : State) : (s.writeStatus v).resp = s.resp := rfl
@[simp] theorem State.writeStatus_workerTurns (v : Word) (s : State) : (s.writeStatus v).workerTurns = s.workerTurns := rfl

/-! ## After the release of reset (R147) -/

@[simp] theorem State.releaseReset_cfg (s : State) : (s.releaseReset).cfg = s.cfg := rfl
@[simp] theorem State.releaseReset_engine (s : State) : (s.releaseReset).engine = s.engine := rfl
@[simp] theorem State.releaseReset_done (s : State) : (s.releaseReset).done = s.done := rfl
@[simp] theorem State.releaseReset_err (s : State) : (s.releaseReset).err = s.err := rfl
@[simp] theorem State.releaseReset_overrun (s : State) : (s.releaseReset).overrun = s.overrun := rfl
@[simp] theorem State.releaseReset_errCode (s : State) : (s.releaseReset).errCode = s.errCode := rfl
@[simp] theorem State.releaseReset_errOpc (s : State) : (s.releaseReset).errOpc = s.errOpc := rfl
@[simp] theorem State.releaseReset_irqEn (s : State) : (s.releaseReset).irqEn = s.irqEn := rfl
@[simp] theorem State.releaseReset_regs (s : State) : (s.releaseReset).regs = s.regs := rfl
@[simp] theorem State.releaseReset_readCount (s : State) : (s.releaseReset).readCount = s.readCount := rfl
@[simp] theorem State.releaseReset_key (s : State) : (s.releaseReset).key = s.key := rfl
@[simp] theorem State.releaseReset_salt (s : State) : (s.releaseReset).salt = s.salt := rfl
@[simp] theorem State.releaseReset_b (s : State) : (s.releaseReset).b = s.b := rfl
@[simp] theorem State.releaseReset_out (s : State) : (s.releaseReset).out = s.out := rfl
@[simp] theorem State.releaseReset_stream (s : State) : (s.releaseReset).stream = s.stream := rfl
@[simp] theorem State.releaseReset_claim (s : State) : (s.releaseReset).claim = s.claim := rfl
@[simp] theorem State.releaseReset_seq (s : State) : (s.releaseReset).seq = s.seq := rfl
@[simp] theorem State.releaseReset_pbk (s : State) : (s.releaseReset).pbk = s.pbk := rfl
@[simp] theorem State.releaseReset_units (s : State) : (s.releaseReset).units = s.units := rfl
@[simp] theorem State.releaseReset_resetLine (s : State) : (s.releaseReset).resetLine = false := rfl
@[simp] theorem State.releaseReset_inputs (s : State) : (s.releaseReset).inputs = s.inputs := rfl
@[simp] theorem State.releaseReset_resp (s : State) : (s.releaseReset).resp = s.resp := rfl
@[simp] theorem State.releaseReset_workerTurns (s : State) : (s.releaseReset).workerTurns = s.workerTurns := rfl

/-! ## After a command word standing accepted (R129) -/

@[simp] theorem State.withCommand_cfg (cw : Word) (s : State) : (s.withCommand cw).cfg = s.cfg := rfl
@[simp] theorem State.withCommand_engine (cw : Word) (s : State) : (s.withCommand cw).engine = .running cw := rfl
@[simp] theorem State.withCommand_done (cw : Word) (s : State) : (s.withCommand cw).done = false := rfl
@[simp] theorem State.withCommand_err (cw : Word) (s : State) : (s.withCommand cw).err = false := rfl
@[simp] theorem State.withCommand_overrun (cw : Word) (s : State) : (s.withCommand cw).overrun = s.overrun := rfl
@[simp] theorem State.withCommand_errCode (cw : Word) (s : State) : (s.withCommand cw).errCode = s.errCode := rfl
@[simp] theorem State.withCommand_errOpc (cw : Word) (s : State) : (s.withCommand cw).errOpc = s.errOpc := rfl
@[simp] theorem State.withCommand_irqEn (cw : Word) (s : State) : (s.withCommand cw).irqEn = s.irqEn := rfl
@[simp] theorem State.withCommand_regs (cw : Word) (s : State) : (s.withCommand cw).regs = s.regs := rfl
@[simp] theorem State.withCommand_readCount (cw : Word) (s : State) : (s.withCommand cw).readCount = s.readCount := rfl
@[simp] theorem State.withCommand_key (cw : Word) (s : State) : (s.withCommand cw).key = s.key := rfl
@[simp] theorem State.withCommand_salt (cw : Word) (s : State) : (s.withCommand cw).salt = s.salt := rfl
@[simp] theorem State.withCommand_b (cw : Word) (s : State) : (s.withCommand cw).b = s.b := rfl
@[simp] theorem State.withCommand_out (cw : Word) (s : State) : (s.withCommand cw).out = s.out := rfl
@[simp] theorem State.withCommand_stream (cw : Word) (s : State) : (s.withCommand cw).stream = s.stream := rfl
@[simp] theorem State.withCommand_claim (cw : Word) (s : State) : (s.withCommand cw).claim = s.claim := rfl
@[simp] theorem State.withCommand_seq (cw : Word) (s : State) : (s.withCommand cw).seq = s.seq := rfl
@[simp] theorem State.withCommand_pbk (cw : Word) (s : State) : (s.withCommand cw).pbk = s.pbk := rfl
@[simp] theorem State.withCommand_units (cw : Word) (s : State) : (s.withCommand cw).units = s.units := rfl
@[simp] theorem State.withCommand_resetLine (cw : Word) (s : State) : (s.withCommand cw).resetLine = s.resetLine := rfl
@[simp] theorem State.withCommand_inputs (cw : Word) (s : State) : (s.withCommand cw).inputs = .engineTurn :: s.inputs := rfl
@[simp] theorem State.withCommand_resp (cw : Word) (s : State) : (s.withCommand cw).resp = s.resp := rfl
@[simp] theorem State.withCommand_workerTurns (cw : Word) (s : State) : (s.withCommand cw).workerTurns = s.workerTurns := rfl

/-! ## After the results of CLOSE (R118) -/

@[simp] theorem closeResults_cfg (s : State) : (closeResults s).cfg = s.cfg := rfl
@[simp] theorem closeResults_engine (s : State) : (closeResults s).engine = s.engine := rfl
@[simp] theorem closeResults_done (s : State) : (closeResults s).done = s.done := rfl
@[simp] theorem closeResults_err (s : State) : (closeResults s).err = s.err := rfl
@[simp] theorem closeResults_overrun (s : State) : (closeResults s).overrun = s.overrun := rfl
@[simp] theorem closeResults_errCode (s : State) : (closeResults s).errCode = s.errCode := rfl
@[simp] theorem closeResults_errOpc (s : State) : (closeResults s).errOpc = s.errOpc := rfl
@[simp] theorem closeResults_irqEn (s : State) : (closeResults s).irqEn = s.irqEn := rfl
@[simp] theorem closeResults_regs (s : State) : (closeResults s).regs = s.regs := rfl
@[simp] theorem closeResults_readCount (s : State) : (closeResults s).readCount = s.readCount := rfl
@[simp] theorem closeResults_key (s : State) : (closeResults s).key = s.key := rfl
@[simp] theorem closeResults_salt (s : State) : (closeResults s).salt = s.salt := rfl
@[simp] theorem closeResults_b (s : State) : (closeResults s).b = s.b := rfl
@[simp] theorem closeResults_out (s : State) : (closeResults s).out = s.out := rfl
@[simp] theorem closeResults_stream (s : State) : (closeResults s).stream = Stream.closed := rfl
@[simp] theorem closeResults_claim (s : State) : (closeResults s).claim = s.claim := rfl
@[simp] theorem closeResults_seq (s : State) : (closeResults s).seq = s.seq := rfl
@[simp] theorem closeResults_pbk (s : State) : (closeResults s).pbk = s.pbk := rfl
@[simp] theorem closeResults_units (s : State) : (closeResults s).units = s.units := rfl
@[simp] theorem closeResults_resetLine (s : State) : (closeResults s).resetLine = s.resetLine := rfl
@[simp] theorem closeResults_inputs (s : State) : (closeResults s).inputs = s.inputs := rfl
@[simp] theorem closeResults_resp (s : State) : (closeResults s).resp = s.resp := rfl
@[simp] theorem closeResults_workerTurns (s : State) : (closeResults s).workerTurns = s.workerTurns := rfl

/-! ## The flags as functions of the state -/

@[simp] theorem State.complete_busy (opc : Byte) (e : ErrorCode) (s : State) : (s.complete opc e).busy = false := rfl

@[simp] theorem State.accept_busy (cw : Word) (s : State) : (s.accept cw).busy = true := rfl

@[simp] theorem State.setOverrun_busy (s : State) : s.setOverrun.busy = s.busy := rfl

@[simp] theorem State.writeStatus_busy (v : Word) (s : State) : (s.writeStatus v).busy = s.busy := rfl

end Sys2Proof.Machine
end

