-- ==== Sys2Proof/Laws/Command.lean ====
section
/-! SUPPORT. What a command can do, said once: it completes with the code of its first failing check and no
other effect, or with its results and code 0 (R128, R130, R135, R136). -/

namespace Sys2Proof.Machine

/-- No check of a list fails exactly when each of them passes (R135). -/
theorem firstFailing_none (s : State) (cs : List Check) :
    firstFailing s cs = none ↔ ∀ c ∈ cs, c.fails s = false := by
  induction cs with
  | nil => simp [firstFailing]
  | cons c cs ih =>
    by_cases h : c.fails s = true
    · simp [firstFailing, h]
    · simp [firstFailing, h, ih]

/-- The first failing check of a list fails, and every check before it passes (R135). -/
theorem firstFailing_some {s : State} {cs : List Check} {c : Check} (h : firstFailing s cs = some c) :
    ∃ pre post, cs = pre ++ c :: post ∧ c.fails s = true ∧ ∀ d ∈ pre, d.fails s = false := by
  induction cs with
  | nil => simp [firstFailing] at h
  | cons d cs ih =>
    unfold firstFailing at h
    split at h
    · cases h
      exact ⟨[], cs, rfl, ‹_›, by simp⟩
    · rename_i hd
      obtain ⟨pre, post, e, hf, hp⟩ := ih h
      refine ⟨d :: pre, post, by simp [e], hf, ?_⟩
      intro x hx
      rcases List.mem_cons.mp hx with rfl | hx
      · simpa using hd
      · exact hp x hx

/-- A command whose checks all pass completes with its results and code 0 (R130). -/
theorem runCommand_pass {opc : Byte} {cs : List Check} {f : State → State} {s : State}
    (h : ∀ c ∈ cs, c.fails s = false) : runCommand opc cs f s = .next ((f s).complete opc .none) := by
  rw [runCommand, (firstFailing_none s cs).mpr h]

/-- A command whose first failing check is c completes with c's code and no other effect (R135, R136). -/
theorem runCommand_fail {opc : Byte} {cs : List Check} {f : State → State} {s : State} {c : Check}
    (h : firstFailing s cs = some c) : runCommand opc cs f s = .next (s.complete opc c.error) := by
  rw [runCommand, h]

/-- Everything a command can do. -/
theorem runCommand_cases (opc : Byte) (cs : List Check) (f : State → State) (s : State) :
    (∃ c, firstFailing s cs = some c ∧ runCommand opc cs f s = .next (s.complete opc c.error))
      ∨ ((∀ c ∈ cs, c.fails s = false) ∧ runCommand opc cs f s = .next ((f s).complete opc .none)) := by
  cases h : firstFailing s cs with
  | some c => exact .inl ⟨c, rfl, runCommand_fail h⟩
  | none => exact .inr ⟨(firstFailing_none s cs).mp h, runCommand_pass ((firstFailing_none s cs).mp h)⟩

/-- The checks of a command, in the order of R135's table, STREAM_READ's and STREAM_SEEK's open check
first (steps 3 to 5). -/
def checksOf : Instr → List Check
  | .nop | .close | .zeroize | .streamWrite | .streamSetlen => []
  | .salsa => [.rounds]
  | .blockmix => [.r, .b1]
  | .smix => [.n, .r, .p, .mem, .lane, .b, .v]
  | .mixAll => [.n, .r, .p, .t, .mem, .b, .v]
  | .pbkdf2Fill => [.r, .p, .dom, .key, .salt, .b]
  | .effectiveSalt | .openScrypt => [.n, .r, .p, .t, .mem, .dom, .key, .salt, .b, .v]
  | .openPbkdf2 => [.iter, .key, .salt]
  | .streamRead => [.opened, .rlen]
  | .streamSeekBegin => [.opened, .seek .fromBegin]
  | .streamSeekCurrent => [.opened, .seek .fromCurrent]
  | .streamSeekEnd => [.opened, .seek .fromEnd]

/-- The results of a command, the function its meaning runs when its checks pass. -/
def resultsOf : Instr → State → State
  | .nop | .streamWrite | .streamSetlen => id
  | .salsa => salsaResults
  | .blockmix => blockMixResults
  | .smix => smixResults
  | .mixAll => mixPhase
  | .pbkdf2Fill => fun s => fillResults s.hmac s
  | .effectiveSalt => fun s => effectiveSaltResults s.hmac s
  | .openScrypt => fun s => openScryptResults s.hmac s
  | .openPbkdf2 => openPbkdf2Results
  | .streamRead => fun s => streamReadResults s.hmac s
  | .streamSeekBegin => seekResults .fromBegin
  | .streamSeekCurrent => seekResults .fromCurrent
  | .streamSeekEnd => seekResults .fromEnd
  | .close => closeResults
  | .zeroize => zeroizeResults

/-- The commands that complete with UNSUPPORTED_OPERATION whatever the state (R116, R117). -/
def unsupported (i : Instr) : Prop := i = .streamWrite ∨ i = .streamSetlen

/-- `exec` of every command but STREAM_WRITE and STREAM_SETLEN is `runCommand` on its row. -/
theorem exec_eq_runCommand (i : Instr) (s : State) (h : ¬ unsupported i) :
    exec i s = runCommand i.opc (checksOf i) (resultsOf i) s := by
  cases i <;> first | rfl | (exfalso; exact h (by simp [unsupported]))

/-- `exec` of the two commands the read-only stream refuses (R116, R117). -/
theorem exec_unsupported (i : Instr) (s : State) (h : unsupported i) :
    exec i s = .next (s.complete i.opc .unsupportedOperation) := by
  rcases h with rfl | rfl <;> rfl

/-- Everything `exec` can do: it always answers a next state, and that state is the completion of the
command, either on its results with code 0 or on the state as it was with another code. -/
theorem exec_cases (i : Instr) (s : State) :
    (∃ e, e ≠ .none ∧ exec i s = .next (s.complete i.opc e))
      ∨ (¬ unsupported i ∧ (∀ c ∈ checksOf i, c.fails s = false)
          ∧ exec i s = .next ((resultsOf i s).complete i.opc .none)) := by
  by_cases hu : unsupported i
  · exact .inl ⟨_, by decide, exec_unsupported i s hu⟩
  · rw [exec_eq_runCommand i s hu]
    rcases runCommand_cases i.opc (checksOf i) (resultsOf i) s with ⟨c, -, h⟩ | ⟨hc, h⟩
    · refine .inl ⟨c.error, ?_, h⟩
      cases c <;> simp [Check.error]
    · exact .inr ⟨hu, hc, h⟩

/-! ## Steps -/

/-- A step on a running command word that decodes is `exec` of the command (R128). -/
theorem engineStep_running {s : State} {cw : Word} {i : Instr} (he : s.engine = .running cw)
    (hd : decode cw = .ok i) : engineStep s = exec i s := by
  simp [engineStep, he, hd]

/-- A step on an illegal running command word completes it (R70). -/
theorem engineStep_illegal {s : State} {cw : Word} {x : Illegal} (he : s.engine = .running cw)
    (hd : decode cw = .error x) : engineStep s = .next (s.completeIllegal cw) := by
  simp [engineStep, he, hd]

/-- An IDLE engine does not move (R146). -/
theorem engineStep_idle {s : State} (he : s.engine = .idle) : engineStep s = .next s := by
  simp [engineStep, he]

end Sys2Proof.Machine
end

