-- ==== Sys2Proof/Laws/Words.lean ====
section
/-! SUPPORT. Laws of the byte order and of blocks (R52): `LEWords` and `LEBytes` are inverse, and a list of
blocks written as bytes reads back as the same blocks. -/

namespace Sys2Proof.Machine

theorem le32_word (w : Word) :
    (w.extractLsb' 24 8 ++ w.extractLsb' 16 8 ++ w.extractLsb' 8 8 ++ w.extractLsb' 0 8 : BitVec 32) = w := by
  apply BitVec.eq_of_getLsbD_eq
  intro i hi
  simp only [BitVec.getLsbD_append, BitVec.getLsbD_extractLsb']
  by_cases h0 : i < 8
  · simp [h0]
  · by_cases h1 : i - 8 < 8
    · have : 8 + (i - 8) = i := by omega
      simp [h0, h1, this]
    · by_cases h2 : i - 8 - 8 < 8
      · have : 16 + (i - 8 - 8) = i := by omega
        simp [h0, h1, h2, this]
      · have h3 : i - 8 - 8 - 8 < 8 := by omega
        have : 24 + (i - 8 - 8 - 8) = i := by omega
        simp [h0, h1, h2, h3, this]

/-- `LEBytes` then `LEWords` gives the words back (R52). -/
@[simp] theorem leWords_leBytes (ws : List Word) : leWords (leBytes ws) = ws := by
  induction ws with
  | nil => rfl
  | cons w ws ih =>
    have : leBytes (w :: ws) = le32 w ++ leBytes ws := by simp [leBytes]
    rw [this]
    simp only [le32, List.cons_append, List.nil_append, leWords, ih]
    rw [le32_word]

@[simp] theorem leBytes_length (ws : List Word) : (leBytes ws).length = 4 * ws.length := by
  induction ws with
  | nil => rfl
  | cons w ws ih =>
    have : leBytes (w :: ws) = le32 w ++ leBytes ws := by simp [leBytes]
    rw [this]
    simp [ih, le32]
    omega

theorem leWords_length : ∀ s : Bytes, (leWords s).length = s.length / 4
  | [] => rfl
  | [_] => by simp [leWords]
  | [_, _] => by simp [leWords]
  | [_, _, _] => by simp [leWords]
  | _ :: _ :: _ :: _ :: rest => by
    simp only [leWords, List.length_cons, leWords_length rest]
    omega

@[simp] theorem wordsOf_length (bs : List Block) : (wordsOf bs).length = 16 * bs.length := by
  induction bs with
  | nil => rfl
  | cons b bs ih =>
    have : wordsOf (b :: bs) = b.toList ++ wordsOf bs := by simp [wordsOf]
    rw [this]
    simp [ih]
    omega

/-- The bytes of a list of blocks are 64 to a block. -/
@[simp] theorem blockBytes_length (bs : List Block) : (blockBytes bs).length = 64 * bs.length := by
  simp [blockBytes]
  omega

@[simp] theorem blocksOf_length (ws : List Word) : (blocksOf ws).length = ws.length / 16 := by
  simp [blocksOf]

@[simp] theorem Mem.readBlocks_length (m : Mem) (a n : Nat) : (m.readBlocks a n).length = n / 64 := by
  simp [Mem.readBlocks, leWords_length]
  omega

theorem blockAt_zero_append (b : Block) (ws : List Word) : blockAt (b.toList ++ ws) 0 = b := by
  apply Vector.ext
  intro i hi
  simp [blockAt, List.getD, List.getElem?_append]

theorem blockAt_succ_append (b : Block) (ws : List Word) (k : Nat) :
    blockAt (b.toList ++ ws) (k + 1) = blockAt ws k := by
  apply Vector.ext
  intro i hi
  have h1 : ¬ (16 * (k + 1) + i < 16) := by omega
  have h2 : 16 * (k + 1) + i - 16 = 16 * k + i := by omega
  simp [blockAt, List.getD, List.getElem?_append, h1, h2]

/-- Cutting the words of a list of blocks gives the blocks back. -/
@[simp] theorem blocksOf_wordsOf (bs : List Block) : blocksOf (wordsOf bs) = bs := by
  induction bs with
  | nil => rfl
  | cons b bs ih =>
    have e : wordsOf (b :: bs) = b.toList ++ wordsOf bs := by simp [wordsOf]
    have hl : (wordsOf (b :: bs)).length / 16 = bs.length + 1 := by simp
    have hl' : (wordsOf bs).length / 16 = bs.length := by simp
    unfold blocksOf at *
    rw [hl'] at ih
    rw [hl, List.range_succ_eq_map, List.map_cons, List.map_map, e, blockAt_zero_append]
    congr 1
    refine Eq.trans (List.map_congr_left fun k _ => ?_) ih
    exact blockAt_succ_append b _ k

/-- A list of blocks written as bytes reads back as the same blocks (R52). -/
@[simp] theorem Mem.readBlocks_writeBytes (m : Mem) (a : Nat) (bs : List Block) :
    (m.writeBytes a (blockBytes bs)).readBlocks a (64 * bs.length) = bs := by
  have h := Mem.readBytes_writeBytes m a (blockBytes bs)
  rw [blockBytes_length] at h
  unfold Mem.readBlocks
  rw [h]
  simp [blockBytes]

/-- Blocks outside the written range are read as before. -/
theorem Mem.readBlocks_writeBytes_outside (m : Mem) {a n c : Nat} {v : Bytes}
    (h : c + n ≤ a ∨ a + v.length ≤ c) : (m.writeBytes a v).readBlocks c n = m.readBlocks c n := by
  simp [Mem.readBlocks, Mem.readBytes_writeBytes_outside m h]

theorem Mem.readBlocks_congr {m m' : Mem} {a n : Nat} (h : ∀ k < n, m.read (a + k) = m'.read (a + k)) :
    m.readBlocks a n = m'.readBlocks a n := by
  simp [Mem.readBlocks, Mem.readBytes_congr h]

end Sys2Proof.Machine
end

