-- ==== Sys2Proof/Laws/Mix.lean ====
section
/-! SUPPORT. What a unit's registers compute is what the spec's functions are: Salsa on X and Z (R81),
BlockMix on Q and Y (R86), and the whole schedule of a lane on a worker unit (R91, R92). -/

namespace Sys2Proof.Machine

/-! ## Salsa -/

theorem stepSalsa_iterate (k : Nat) (u : MixRegs) :
    MixRegs.stepSalsa^[k] u = { u with x := doubleRound^[k] u.x } := by
  induction k generalizing u with
  | zero => rfl
  | succ k ih => simp [Function.iterate_succ_apply, ih, MixRegs.stepSalsa]

/-- The core run on X and Z is `SalsaCore`, and leaves X and Z zero (R17, R81). -/
theorem runSalsa_eq (n : Nat) (inp : Block) (u : MixRegs) :
    u.runSalsa n inp = (salsaCore n inp, u.clearSalsa) := by
  simp [MixRegs.runSalsa, stepSalsa_iterate, MixRegs.loadSalsa, MixRegs.clearSalsa, salsaCore]

/-! ## BlockMix -/

@[simp] theorem mixRun_length (q : Block) (bs : List Block) : (mixRun q bs).length = bs.length := by
  induction bs generalizing q with
  | nil => rfl
  | cons c cs ih => simp [mixRun, ih]

theorem evens_odds_length : ∀ l : List Block, (evens l).length + (odds l).length = l.length
  | [] => rfl
  | [_] => rfl
  | _ :: _ :: rest => by
    have := evens_odds_length rest
    simp only [evens, odds, List.length_cons]
    omega

/-- BlockMix keeps the number of blocks. -/
@[simp] theorem blockMix_length (bs : List Block) : (blockMix bs).length = bs.length := by
  have := evens_odds_length (mixRun (bs.getLastD zeroBlock) bs)
  simp [blockMix] at *
  omega

theorem evens_getD : ∀ (l : List Block) (i : Nat), (evens l).getD i zeroBlock = l.getD (2 * i) zeroBlock
  | [], i => by simp [evens]
  | [a], 0 => by simp [evens]
  | [a], i + 1 => by simp [evens]
  | a :: c :: rest, 0 => by simp [evens]
  | a :: c :: rest, i + 1 => by
    have := evens_getD rest i
    have e : 2 * (i + 1) = 2 * i + 1 + 1 := by omega
    simp only [evens, e, List.getD_cons_succ, this]

theorem odds_getD : ∀ (l : List Block) (i : Nat), (odds l).getD i zeroBlock = l.getD (2 * i + 1) zeroBlock
  | [], i => by simp [odds]
  | [a], i => by simp [odds]
  | a :: c :: rest, 0 => by simp [odds]
  | a :: c :: rest, i + 1 => by
    have := odds_getD rest i
    have e : 2 * (i + 1) + 1 = 2 * i + 1 + 1 + 1 := by omega
    simp only [odds, e, List.getD_cons_succ, this]

theorem evens_length : ∀ l : List Block, (evens l).length = (l.length + 1) / 2
  | [] => rfl
  | [_] => by simp [evens]
  | _ :: _ :: rest => by
    have := evens_length rest
    simp only [evens, List.length_cons, this]
    omega

/-- Output block i of BlockMix is the result for input 2i, output block r+i that for input 2i+1 (R87). -/
theorem blockMix_getD {bs : List Block} {r k : Nat} (h : bs.length = 2 * r) (hk : k < 2 * r) :
    (blockMix bs).getD (mixPosition r k) zeroBlock
      = (mixRun (bs.getLastD zeroBlock) bs).getD k zeroBlock := by
  have hl : (evens (mixRun (bs.getLastD zeroBlock) bs)).length = r := by
    rw [evens_length, mixRun_length, h]
    omega
  unfold blockMix mixPosition
  split
  · rw [List.getD_append _ _ _ _ (by omega), evens_getD]
    congr 1
    omega
  · rw [List.getD_append_right _ _ _ _ (by omega), hl, odds_getD]
    congr 1
    omega

/-- The running state after k turns of the loop of R86. -/
def runningState (bs : List Block) (q : Block) (k : Nat) : Block :=
  match k with
  | 0 => q
  | k + 1 => (mixRun q bs).getD k zeroBlock

theorem mixRun_getD_succ (bs : List Block) (q : Block) (k : Nat) (hk : k < bs.length) :
    (mixRun q bs).getD k zeroBlock
      = salsaCore 8 (xorBlock (runningState bs q k) (bs.getD k zeroBlock)) := by
  induction bs generalizing q k with
  | nil => simp at hk
  | cons c cs ih =>
    cases k with
    | zero => simp [mixRun, runningState]
    | succ k =>
      have := ih (salsaCore 8 (xorBlock q c)) k (by simpa using hk)
      simp only [mixRun, List.getD_cons_succ, this, runningState]
      cases k <;> rfl

theorem mixPosition_inj {r j k : Nat} (hj : j < 2 * r) (hk : k < 2 * r) (h : mixPosition r j = mixPosition r k) :
    j = k := by
  unfold mixPosition at h
  split at h <;> split at h <;> omega

theorem mixPosition_lt {r k : Nat} (hk : k < 2 * r) : mixPosition r k < 2 * r := by
  unfold mixPosition
  split <;> omega

theorem exists_mixPosition {r i : Nat} (hi : i < 2 * r) : ∃ k < 2 * r, mixPosition r k = i := by
  by_cases h : i < r
  · refine ⟨2 * i, by omega, ?_⟩
    unfold mixPosition
    rw [if_pos (by omega)]
    omega
  · refine ⟨2 * (i - r) + 1, by omega, ?_⟩
    unfold mixPosition
    rw [if_neg (by omega)]
    omega

/-- The registers after k turns of the loop of R86, from Q = q, a cleared Y of 2r blocks and index 0. -/
theorem stepBlockMix_iterate (r : Nat) (bs : List Block) (q : Block) (u : MixRegs) (h : bs.length = 2 * r)
    (hx : u.x = zeroBlock) (hz : u.z = zeroBlock) (k : Nat) (hk : k ≤ 2 * r) :
    ∃ y : List Block, y.length = 2 * r
      ∧ (∀ j < k, y.getD (mixPosition r j) zeroBlock = (mixRun q bs).getD j zeroBlock)
      ∧ (MixRegs.stepBlockMix r bs)^[k]
          { u with q := q, y := List.replicate (2 * r) zeroBlock, sub := 0 }
        = { u with q := runningState bs q k, y := y, sub := k } := by
  induction k with
  | zero => exact ⟨List.replicate (2 * r) zeroBlock, by simp, by simp, rfl⟩
  | succ k ih =>
    obtain ⟨y, hy, hv, he⟩ := ih (by omega)
    have hsucc := mixRun_getD_succ bs q k (by omega)
    refine ⟨y.set (mixPosition r k) ((mixRun q bs).getD k zeroBlock), by simpa using hy, ?_, ?_⟩
    · intro j hj
      rcases Nat.lt_or_ge j k with hjk | hjk
      · have hne : mixPosition r k ≠ mixPosition r j := fun e => by
          have := mixPosition_inj (by omega) (by omega) e
          omega
        have := hv j hjk
        simp only [List.getD] at *
        rw [List.getElem?_set_ne hne]
        exact this
      · obtain rfl : j = k := by omega
        have := mixPosition_lt (r := r) (k := j) (by omega)
        simp [List.getD, hy, this]
    · rw [Function.iterate_succ_apply', he]
      unfold MixRegs.stepBlockMix
      rw [runSalsa_eq]
      simp only [MixRegs.clearSalsa, hx, hz, hsucc, runningState]

theorem getLastD_eq_getD (bs : List Block) (n : Nat) (h : bs.length = n) :
    bs.getLastD zeroBlock = bs.getD (n - 1) zeroBlock := by
  subst h
  cases bs with
  | nil => rfl
  | cons c cs =>
    rw [List.getLastD_eq_getLast?, List.getLast?_eq_getElem?]
    simp [List.getD]

/-- The loop of R86 on Q and Y computes `BlockMix_r`, and leaves Q and Y cleared (R17, R86). -/
theorem runBlockMix_eq (r : Nat) (bs : List Block) (u : MixRegs) (h : bs.length = 2 * r)
    (hx : u.x = zeroBlock) (hz : u.z = zeroBlock) :
    u.runBlockMix r bs = (blockMix bs, { u with q := zeroBlock, y := [], sub := 0 }) := by
  obtain ⟨y, hy, hv, he⟩ :=
    stepBlockMix_iterate r bs (bs.getD (2 * r - 1) zeroBlock) u h hx hz (2 * r) (Nat.le_refl _)
  unfold MixRegs.runBlockMix
  simp only [he]
  have hyb : y = blockMix bs := by
    apply List.ext_getElem (by simp [hy, h])
    intro i h1 h2
    obtain ⟨k, hk, rfl⟩ := exists_mixPosition (r := r) (i := i) (by omega)
    have a1 := hv k hk
    rw [← getLastD_eq_getD bs _ h, ← blockMix_getD h hk] at a1
    simpa only [List.getD, List.getElem?_eq_getElem h1, List.getElem?_eq_getElem h2, Option.getD_some] using a1
  rw [hyb]

/-! ## SMix -/

theorem blockMix_iterate_length (k : Nat) (st : List Block) : (blockMix^[k] st).length = st.length := by
  induction k generalizing st with
  | zero => rfl
  | succ k ih => rw [Function.iterate_succ_apply, ih, blockMix_length]

/-- Phase FILL stores the k-th iterate of BlockMix as entry k, and leaves the last one (R91). -/
theorem smixFill_eq (n : Nat) (st : List Block) :
    smixFill n st = ((List.range n).map fun k => blockMix^[k] st, blockMix^[n] st) := by
  induction n generalizing st with
  | zero => rfl
  | succ n ih =>
    simp [smixFill, ih, List.range_succ_eq_map, Function.comp_def]

theorem smixFill_entry {n k : Nat} (st : List Block) (hk : k < n) :
    (smixFill n st).1.getD k [] = blockMix^[k] st := by
  rw [smixFill_eq]
  simp [List.getD, hk]

/-- The index of phase MIX is below N (R90). -/
theorem smixIndex_lt {n : Word} (hn : n ≠ 0) (st : List Block) : smixIndex n st < n.toNat := by
  unfold smixIndex
  rw [BitVec.toNat_and]
  have h0 : n.toNat ≠ 0 := fun h => hn (BitVec.eq_of_toNat_eq (by simpa using h))
  have h1 : (n - 1).toNat = n.toNat - 1 := by
    have := n.isLt
    have one : (1 : Word).toNat = 1 := rfl
    rw [BitVec.toNat_sub, one]
    omega
  have := Nat.and_le_right (n := (integerify st).toNat) (m := (n - 1).toNat)
  omega

theorem xorBlocks_length (a b : List Block) : (xorBlocks a b).length = min a.length b.length := by
  simp [xorBlocks]

/-- A turn of phase MIX keeps the number of blocks. -/
theorem smixTurn_length {n : Word} {st : List Block} (hn : n ≠ 0) (s0 : List Block)
    (h : st.length = s0.length) : (smixTurn n (smixFill n.toNat s0).1 st).length = s0.length := by
  unfold smixTurn
  rw [blockMix_length, xorBlocks_length, smixFill_entry s0 (smixIndex_lt hn st), blockMix_iterate_length, h,
    Nat.min_self]

theorem smixTurn_iterate_length {n : Word} {st : List Block} (hn : n ≠ 0) (s0 : List Block) (k : Nat)
    (h : st.length = s0.length) : ((smixTurn n (smixFill n.toNat s0).1)^[k] st).length = s0.length := by
  induction k generalizing st with
  | zero => exact h
  | succ k ih =>
    rw [Function.iterate_succ_apply]
    exact ih (smixTurn_length hn s0 h)

/-- SMix keeps the number of blocks of the lane. -/
theorem smix_length (n : Word) (st : List Block) : (smix n st).length = st.length := by
  unfold smix
  simp only [smixFill_eq]
  by_cases hn : n = 0
  · subst hn
    rfl
  · have := smixTurn_iterate_length (st := blockMix^[n.toNat] st) hn st n.toNat
      (blockMix_iterate_length _ _)
    rwa [smixFill_eq] at this

/-! ## The schedule of R92 on a worker unit -/

/-- The registers of a unit that runs the schedule, between its steps: only S, T, the phase and the index
hold anything. -/
def scheduleRegs (st t : List Block) (ph : Phase) (i : Nat) : MixRegs :=
  { MixRegs.zero with s := st, t := t, phase := ph, idx := i }

/-- The bytes of a table whose first i entries are the first i iterates of BlockMix, inside N entries. -/
structure TableHolds (n r : Nat) (st : List Block) (i : Nat) (v : Mem) : Prop where
  entry : ∀ k < i, v.readBlocks (k * (128 * r)) (128 * r) = blockMix^[k] st
  within : v.within (n * (128 * r)) = true

theorem runBlockMix_schedule (r : Nat) (bs st t : List Block) (ph : Phase) (i : Nat) (h : bs.length = 2 * r) :
    (scheduleRegs st t ph i).runBlockMix r bs = (blockMix bs, scheduleRegs st t ph i) := by
  rw [runBlockMix_eq r bs _ h rfl rfl]
  rfl

theorem LaneRun.step_fill {n : Word} {r k i : Nat} {st : List Block} {u : Worker} {b v : Mem}
    (hi : i < n.toNat) (hst : st.length = 2 * r) :
    LaneRun.step n r k { unit := { u with regs := scheduleRegs st [] .fill i, v := v }, b := b }
      = { unit := { u with
            regs := scheduleRegs (blockMix st) [] .fill (i + 1)
            v := v.writeBytes (i * (128 * r)) (blockBytes st) }, b := b } := by
  unfold LaneRun.step
  simp only [scheduleRegs, hi, if_true]
  rw [← scheduleRegs, runBlockMix_schedule r st st [] .fill i hst]
  rfl

theorem LaneRun.fill_iterate {n : Word} {r k : Nat} {st : List Block} {u : Worker} {b : Mem}
    (hst : st.length = 2 * r) (hv : u.v = []) (i : Nat) (hi : i ≤ n.toNat) :
    ∃ v, TableHolds n.toNat r st i v
      ∧ (LaneRun.step n r k)^[i] { unit := { u with regs := scheduleRegs st [] .fill 0 }, b := b }
        = { unit := { u with regs := scheduleRegs (blockMix^[i] st) [] .fill i, v := v }, b := b } := by
  induction i with
  | zero => exact ⟨[], ⟨by simp, by simp⟩, by simp [← hv]⟩
  | succ i ih =>
    obtain ⟨v, ht, he⟩ := ih (by omega)
    have hl : (blockMix^[i] st).length = 2 * r := by rw [blockMix_iterate_length, hst]
    refine ⟨v.writeBytes (i * (128 * r)) (blockBytes (blockMix^[i] st)), ⟨?_, ?_⟩, ?_⟩
    · intro k hk
      rcases Nat.lt_or_ge k i with hki | hki
      · have : k * (128 * r) + 128 * r ≤ i * (128 * r) := by
          have := Nat.mul_le_mul_right (128 * r) (Nat.succ_le_of_lt hki)
          simpa [Nat.succ_mul] using this
        rw [Mem.readBlocks_writeBytes_outside _ (Or.inl this)]
        exact ht.entry k hki
      · obtain rfl : k = i := by omega
        have := Mem.readBlocks_writeBytes v (k * (128 * r)) (blockMix^[k] st)
        rw [hl] at this
        have e : 64 * (2 * r) = 128 * r := by omega
        rwa [e] at this
    · apply Mem.within_writeBytes ht.within
      rw [blockBytes_length, hl]
      have := Nat.mul_le_mul_right (128 * r) (hi : i + 1 ≤ n.toNat)
      have e : (i + 1) * (128 * r) = i * (128 * r) + 128 * r := by ring
      omega
    · rw [Function.iterate_succ_apply', he, LaneRun.step_fill (by omega) hl,
        Function.iterate_succ_apply']

theorem LaneRun.step_mix {n : Word} {r k i : Nat} {s0 st t : List Block} {u : Worker} {b v : Mem}
    (hi : i < n.toNat) (hn : n ≠ 0) (hs0 : s0.length = 2 * r) (hst : st.length = 2 * r)
    (hv : TableHolds n.toNat r s0 n.toNat v) :
    ∃ t', LaneRun.step n r k { unit := { u with regs := scheduleRegs st t .mix i, v := v }, b := b }
      = { unit := { u with
            regs := scheduleRegs (smixTurn n (smixFill n.toNat s0).1 st) t' .mix (i + 1), v := v }, b := b } := by
  have he := hv.entry _ (smixIndex_lt hn st)
  have hl : (xorBlocks st (blockMix^[smixIndex n st] s0)).length = 2 * r := by
    rw [xorBlocks_length, blockMix_iterate_length, hst, hs0, Nat.min_self]
  refine ⟨blockMix^[smixIndex n st] s0, ?_⟩
  unfold LaneRun.step
  simp only [scheduleRegs, hi, if_true, he]
  rw [← scheduleRegs, runBlockMix_schedule r _ st t .mix i hl]
  simp only [smixTurn, smixFill_entry s0 (smixIndex_lt hn st)]
  rfl

theorem LaneRun.mix_iterate {n : Word} {r k : Nat} {s0 st t : List Block} {u : Worker} {b v : Mem}
    (hn : n ≠ 0) (hs0 : s0.length = 2 * r) (hst : st.length = 2 * r)
    (hv : TableHolds n.toNat r s0 n.toNat v) (i : Nat) (hi : i ≤ n.toNat) :
    ∃ t', (LaneRun.step n r k)^[i] { unit := { u with regs := scheduleRegs st t .mix 0, v := v }, b := b }
      = { unit := { u with
            regs := scheduleRegs ((smixTurn n (smixFill n.toNat s0).1)^[i] st) t' .mix i, v := v }, b := b } := by
  induction i with
  | zero => exact ⟨t, rfl⟩
  | succ i ih =>
    obtain ⟨t', he⟩ := ih (by omega)
    have hl := smixTurn_iterate_length (st := st) hn s0 i (by omega)
    obtain ⟨t'', he'⟩ := LaneRun.step_mix (k := k) (i := i) (t := t') (u := u) (b := b) (by omega) hn hs0
      (hl.trans hs0) hv
    exact ⟨t'', by rw [Function.iterate_succ_apply', he, he', Function.iterate_succ_apply']⟩

/-- The whole schedule for lane k on a quiet worker unit: the lane of B becomes `SMix` of itself, and the
unit, its registers and its V_w are as before (R91, R92, R17). -/
theorem mixLane_eq (n : Word) (r k : Nat) (u : Worker) (b : Mem) (hn : n ≠ 0) (hr : u.regs = .zero)
    (hv : u.v = []) :
    mixLane n r k u b
      = { unit := u, b := b.writeBytes (k * (128 * r))
            (blockBytes (smix n (b.readBlocks (k * (128 * r)) (128 * r)))) } := by
  have hst : (b.readBlocks (k * (128 * r)) (128 * r)).length = 2 * r := by
    rw [Mem.readBlocks_length]
    omega
  obtain ⟨v, htab, hfill⟩ := LaneRun.fill_iterate (n := n) (k := k) (u := u) (b := b) hst hv n.toNat (Nat.le_refl _)
  have hfl : (blockMix^[n.toNat] (b.readBlocks (k * (128 * r)) (128 * r))).length = 2 * r := by
    rw [blockMix_iterate_length, hst]
  obtain ⟨t', hmix⟩ := LaneRun.mix_iterate (k := k) (t := []) (u := u) (b := b) hn hst hfl htab n.toNat (Nat.le_refl _)
  obtain ⟨w, regs, v0⟩ := u
  simp only at hr hv
  subst hr hv
  unfold mixLane
  have e : 2 * n.toNat + 5 = (1 + (1 + (1 + (n.toNat + (1 + (n.toNat + 1)))))) := by omega
  rw [e]
  rw [Function.iterate_add_apply, Function.iterate_add_apply, Function.iterate_add_apply, Function.iterate_add_apply,
    Function.iterate_add_apply, Function.iterate_add_apply]
  have s1 : ∀ l, (LaneRun.step n r k)^[1] l = LaneRun.step n r k l := fun _ => rfl
  rw [s1, s1, s1, s1, s1]
  have hload : LaneRun.step n r k
      { unit := { wstate := w, regs := { MixRegs.zero with phase := .load }, v := [] }, b := b }
      = { unit := { wstate := w, regs := scheduleRegs (b.readBlocks (k * (128 * r)) (128 * r)) [] .fill 0, v := [] },
          b := b } := rfl
  rw [hload, hfill]
  have hend : ∀ st v, LaneRun.step n r k
      { unit := { wstate := w, regs := scheduleRegs st [] .fill n.toNat, v := v }, b := b }
      = { unit := { wstate := w, regs := scheduleRegs st [] .mix 0, v := v }, b := b } := by
    intro st v
    simp [LaneRun.step, scheduleRegs]
  rw [hend, hmix]
  have hend' : ∀ st t v, LaneRun.step n r k
      { unit := { wstate := w, regs := scheduleRegs st t .mix n.toNat, v := v }, b := b }
      = { unit := { wstate := w, regs := scheduleRegs st t .writeback 0, v := v }, b := b } := by
    intro st t v
    simp [LaneRun.step, scheduleRegs]
  rw [hend']
  simp only [LaneRun.step, scheduleRegs, smix, Mem.wipe_all htab.within, smixFill_eq]
  rfl

end Sys2Proof.Machine
end

