-- ==== Sys2Proof/Laws/Parallel.lean ====
section
/-! SUPPORT. The parallel lane engine: an invariant every worker step keeps in any interleaving (R97, R98), a
measure every such step lowers (R101), and so that every run of the worker units ends with B as R100
says. -/

namespace Sys2Proof.Machine

/-! ## The function of R100, byte by byte -/

theorem mixedLane_read (n : Word) (r : Nat) (b : Mem) (k x : Nat) :
    (mixedLane n r b k).read x
      = if k * (128 * r) ≤ x ∧ x < k * (128 * r) + 128 * r
        then (blockBytes (smix n (b.readBlocks (k * (128 * r)) (128 * r)))).getD (x - k * (128 * r)) 0
        else b.read x := by
  unfold mixedLane
  rw [Mem.read_writeBytes, blockBytes_length, smix_length, Mem.readBlocks_length]
  have : 64 * (128 * r / 64) = 128 * r := by omega
  rw [this]

theorem mixedLanes_succ (n : Word) (r p : Nat) (b : Mem) :
    mixedLanes n r (p + 1) b = mixedLane n r (mixedLanes n r p b) p := by
  simp [mixedLanes, List.range_succ]

/-- The bytes above the lanes are unchanged (R100). -/
theorem mixedLanes_read_above (n : Word) (r p : Nat) (b : Mem) {x : Nat} (hx : p * (128 * r) ≤ x) :
    (mixedLanes n r p b).read x = b.read x := by
  induction p with
  | zero => rfl
  | succ p ih =>
    have e : (p + 1) * (128 * r) = p * (128 * r) + 128 * r := by ring
    rw [mixedLanes_succ, mixedLane_read, if_neg (by omega)]
    exact ih (by omega)

/-- Each lane is `SMix` of the same lane of the B the mixing started from (R100). -/
theorem mixedLanes_read_lane (n : Word) (r p : Nat) (b : Mem) {k x : Nat} (hk : k < p)
    (hx : k * (128 * r) ≤ x ∧ x < k * (128 * r) + 128 * r) :
    (mixedLanes n r p b).read x
      = (blockBytes (smix n (b.readBlocks (k * (128 * r)) (128 * r)))).getD (x - k * (128 * r)) 0 := by
  induction p with
  | zero => omega
  | succ p ih =>
    rw [mixedLanes_succ, mixedLane_read]
    rcases Nat.lt_or_ge k p with h | h
    · have := Nat.mul_le_mul_right (128 * r) (Nat.succ_le_of_lt h)
      have e : (k + 1) * (128 * r) = k * (128 * r) + 128 * r := by ring
      rw [Nat.succ_eq_add_one] at this
      rw [if_neg (by omega)]
      exact ih h
    · obtain rfl : k = p := by omega
      rw [if_pos hx, Mem.readBlocks_congr fun i _ => mixedLanes_read_above n r k b (by omega)]

theorem mixedLane_wf {n : Word} {r : Nat} {b : Mem} (k : Nat) (h : b.wf = true) : (mixedLane n r b k).wf = true :=
  Mem.wf_writeBytes _ _ h

theorem mixedLanes_wf {n : Word} {r : Nat} {b : Mem} (p : Nat) (h : b.wf = true) :
    (mixedLanes n r p b).wf = true := by
  induction p with
  | zero => exact h
  | succ p ih =>
    rw [mixedLanes_succ]
    exact mixedLane_wf p ih

theorem mixedLanes_within {n : Word} {r size : Nat} {b : Mem} (p : Nat) (hp : p * (128 * r) ≤ size)
    (h : b.within size = true) : (mixedLanes n r p b).within size = true := by
  induction p with
  | zero => exact h
  | succ p ih =>
    have e : (p + 1) * (128 * r) = p * (128 * r) + 128 * r := by ring
    rw [mixedLanes_succ]
    apply Mem.within_writeBytes (ih (by omega))
    rw [blockBytes_length, smix_length, Mem.readBlocks_length]
    omega

/-! ## The invariant of the worker units -/

/-- The state of worker unit w, none where there is no such unit. -/
def Pool.stateOf (q : Pool) (w : Nat) : Option WorkerState := (q.units[w]?).map Worker.wstate

/-- What holds between the steps of the worker units, for a B that started as `b0`: units hold no data
between lanes, each claimed lane is either being mixed by one unit or is mixed, every other byte is as it
started, and no unit is DONE before every lane is claimed (R97, R98). -/
structure Pool.Ok (j : MixJob) (b0 : Mem) (count : Nat) (q : Pool) : Prop where
  units_length : q.units.length = count
  clean : ∀ u ∈ q.units, u.regs = MixRegs.zero ∧ u.v = []
  above : ∀ w, j.weff ≤ w → w < count → q.stateOf w = some .idle
  below : ∀ w < j.weff, q.stateOf w ≠ some .idle
  mixing_lt : ∀ w k, q.stateOf w = some (.mixing k) → k < q.claim ∧ k < j.p
  mixing_inj : ∀ w w' k, q.stateOf w = some (.mixing k) → q.stateOf w' = some (.mixing k) → w = w'
  done_claimed : ∀ w, q.stateOf w = some .done → j.p ≤ q.claim
  b_wf : q.b.wf = true
  mixed : ∀ k < j.p, k < q.claim → (∀ w, q.stateOf w ≠ some (.mixing k)) →
    ∀ x, k * (128 * j.r) ≤ x → x < k * (128 * j.r) + 128 * j.r → q.b.read x = (mixedLanes j.n j.r j.p b0).read x
  waiting : ∀ x, (∀ k < j.p, k < q.claim → k * (128 * j.r) ≤ x → x < k * (128 * j.r) + 128 * j.r →
    ∃ w, q.stateOf w = some (.mixing k)) → q.b.read x = b0.read x

theorem Pool.stateOf_set {q : Pool} {w v : Nat} {u : Worker} {c : Nat} {b : Mem} (hw : w < q.units.length) :
    Pool.stateOf { claim := c, units := q.units.set w u, b := b } v
      = if v = w then some u.wstate else q.stateOf v := by
  unfold Pool.stateOf
  by_cases h : v = w
  · subst h
    simp [hw]
  · rw [if_neg h, List.getElem?_set_ne (by omega)]

theorem Pool.lt_of_getElem? {q : Pool} {w : Nat} {u : Worker} (h : q.units[w]? = some u) : w < q.units.length :=
  (List.getElem?_eq_some_iff.mp h).1

/-- A claim step keeps the invariant (R97). -/
theorem Pool.claimStep_ok {j : MixJob} {b0 : Mem} {count w : Nat} {u : Worker} {q : Pool}
    (h : q.Ok j b0 count) (hu : q.units[w]? = some u) (hw : w < j.weff) (hs : u.wstate = .claiming) :
    (q.claimStep j w u).Ok j b0 count := by
  have hlt := Pool.lt_of_getElem? hu
  have hst : q.stateOf w = some .claiming := by simp [Pool.stateOf, hu, hs]
  have hmem : u ∈ q.units := List.mem_of_getElem? hu
  have so : ∀ v, Pool.stateOf (q.claimStep j w u) v
      = if v = w then some (if j.p ≤ q.claim then .done else .mixing q.claim) else q.stateOf v := by
    intro v
    exact Pool.stateOf_set hlt
  have hb : (q.claimStep j w u).b = q.b := rfl
  have hc : (q.claimStep j w u).claim = q.claim + 1 := rfl
  refine ⟨by simpa [Pool.claimStep] using h.units_length, ?_, ?_, ?_, ?_, ?_, ?_, h.b_wf, ?_, ?_⟩
  · intro u' hu'
    rcases List.mem_or_eq_of_mem_set hu' with hm | rfl
    · exact h.clean u' hm
    · exact h.clean u hmem
  · intro v hv hvc
    rw [so, if_neg (by omega)]
    exact h.above v hv hvc
  · intro v hv
    rw [so]
    split
    · split <;> simp
    · exact h.below v hv
  · intro v k hvk
    rw [so] at hvk
    rw [hc]
    split at hvk
    · split at hvk
      · simp at hvk
      · simp only [Option.some.injEq, WorkerState.mixing.injEq] at hvk
        omega
    · have := h.mixing_lt v k hvk
      omega
  · intro v v' k hv hv'
    rw [so] at hv hv'
    split at hv <;> split at hv'
    · omega
    · split at hv
      · simp at hv
      · simp only [Option.some.injEq, WorkerState.mixing.injEq] at hv
        have := h.mixing_lt v' k hv'
        omega
    · split at hv'
      · simp at hv'
      · simp only [Option.some.injEq, WorkerState.mixing.injEq] at hv'
        have := h.mixing_lt v k hv
        omega
    · exact h.mixing_inj v v' k hv hv'
  · intro v hv
    rw [so] at hv
    rw [hc]
    split at hv
    · split at hv
      · omega
      · simp at hv
    · have := h.done_claimed v hv
      omega
  · intro k hk hkc hno x hx1 hx2
    rw [hb]
    rw [hc] at hkc
    have hkne : k ≠ q.claim := by
      rintro rfl
      have := hno w
      rw [so, if_pos rfl, if_neg (by omega)] at this
      exact this rfl
    refine h.mixed k hk (by omega) (fun v hv => ?_) x hx1 hx2
    by_cases hvw : v = w
    · subst hvw
      rw [hst] at hv
      simp at hv
    · have := hno v
      rw [so, if_neg hvw] at this
      exact this hv
  · intro x hx
    rw [hb]
    apply h.waiting
    intro k hk hkc hx1 hx2
    obtain ⟨v, hv⟩ := hx k hk (by rw [hc]; omega) hx1 hx2
    rw [so] at hv
    split at hv
    · split at hv
      · simp at hv
      · simp only [Option.some.injEq, WorkerState.mixing.injEq] at hv
        omega
    · exact ⟨v, hv⟩

/-- A mix step keeps the invariant (R98, R61). -/
theorem Pool.mixStep_ok {j : MixJob} {b0 : Mem} {count w k : Nat} {u : Worker} {q : Pool} (hn : j.n ≠ 0)
    (h : q.Ok j b0 count) (hu : q.units[w]? = some u) (hw : w < j.weff) (hs : u.wstate = .mixing k) :
    (q.mixStep j w k u).Ok j b0 count := by
  have hlt := Pool.lt_of_getElem? hu
  have hst : q.stateOf w = some (.mixing k) := by simp [Pool.stateOf, hu, hs]
  have hmem : u ∈ q.units := List.mem_of_getElem? hu
  have hkl := h.mixing_lt w k hst
  obtain ⟨hreg, hv⟩ := h.clean u hmem
  have run := mixLane_eq j.n j.r k u q.b hn hreg hv
  have lane : ∀ i < 128 * j.r, q.b.read (k * (128 * j.r) + i) = b0.read (k * (128 * j.r) + i) := by
    intro i hi
    apply h.waiting
    intro k' hk' hkc' h1 h2
    have : k' = k := by
      rcases Nat.lt_trichotomy k' k with hl | hl | hl
      · have := Nat.mul_le_mul_right (128 * j.r) (Nat.succ_le_of_lt hl)
        rw [Nat.succ_eq_add_one] at this
        have e : (k' + 1) * (128 * j.r) = k' * (128 * j.r) + 128 * j.r := by ring
        omega
      · exact hl
      · have := Nat.mul_le_mul_right (128 * j.r) (Nat.succ_le_of_lt hl)
        rw [Nat.succ_eq_add_one] at this
        have e : (k + 1) * (128 * j.r) = k * (128 * j.r) + 128 * j.r := by ring
        omega
    exact ⟨w, this ▸ hst⟩
  rw [Mem.readBlocks_congr lane] at run
  have so : ∀ v, Pool.stateOf (q.mixStep j w k u) v = if v = w then some .claiming else q.stateOf v := by
    intro v
    exact Pool.stateOf_set hlt
  have hc : (q.mixStep j w k u).claim = q.claim := rfl
  have hb : (q.mixStep j w k u).b
      = q.b.writeBytes (k * (128 * j.r)) (blockBytes (smix j.n (b0.readBlocks (k * (128 * j.r)) (128 * j.r)))) := by
    simp [Pool.mixStep, run]
  have hlen : (blockBytes (smix j.n (b0.readBlocks (k * (128 * j.r)) (128 * j.r)))).length = 128 * j.r := by
    rw [blockBytes_length, smix_length, Mem.readBlocks_length]
    omega
  refine ⟨by simpa [Pool.mixStep] using h.units_length, ?_, ?_, ?_, ?_, ?_, ?_, ?_, ?_, ?_⟩
  · intro u' hu'
    rcases List.mem_or_eq_of_mem_set hu' with hm | rfl
    · exact h.clean u' hm
    · simp [run, hreg, hv]
  · intro v hv hvc
    rw [so, if_neg (by omega)]
    exact h.above v hv hvc
  · intro v hv
    rw [so]
    split
    · simp
    · exact h.below v hv
  · intro v k' hvk
    rw [so] at hvk
    rw [hc]
    split at hvk
    · simp at hvk
    · exact h.mixing_lt v k' hvk
  · intro v v' k' hv hv'
    rw [so] at hv hv'
    split at hv <;> split at hv'
    · omega
    · simp at hv
    · simp at hv'
    · exact h.mixing_inj v v' k' hv hv'
  · intro v hv
    rw [so] at hv
    rw [hc]
    split at hv
    · simp at hv
    · exact h.done_claimed v hv
  · rw [hb]
    exact Mem.wf_writeBytes _ _ h.b_wf
  · intro k' hk' hkc' hno x hx1 hx2
    rw [hb, Mem.read_writeBytes, hlen]
    by_cases hkk : k' = k
    · subst hkk
      rw [if_pos ⟨hx1, hx2⟩, mixedLanes_read_lane _ _ _ _ hk' ⟨hx1, hx2⟩]
    · rw [if_neg]
      · refine h.mixed k' hk' hkc' (fun v hv => ?_) x hx1 hx2
        by_cases hvw : v = w
        · subst hvw
          rw [hst] at hv
          simp only [Option.some.injEq, WorkerState.mixing.injEq] at hv
          exact hkk hv.symm
        · have := hno v
          rw [so, if_neg hvw] at this
          exact this hv
      · rcases Nat.lt_or_gt_of_ne hkk with hl | hl
        · have := Nat.mul_le_mul_right (128 * j.r) (Nat.succ_le_of_lt hl)
          rw [Nat.succ_eq_add_one] at this
          have e : (k' + 1) * (128 * j.r) = k' * (128 * j.r) + 128 * j.r := by ring
          omega
        · have := Nat.mul_le_mul_right (128 * j.r) (Nat.succ_le_of_lt hl)
          rw [Nat.succ_eq_add_one] at this
          have e : (k + 1) * (128 * j.r) = k * (128 * j.r) + 128 * j.r := by ring
          omega
  · intro x hx
    rw [hb, Mem.read_writeBytes, hlen, if_neg]
    · apply h.waiting
      intro k' hk' hkc' h1 h2
      obtain ⟨v, hv⟩ := hx k' hk' hkc' h1 h2
      rw [so] at hv
      split at hv
      · simp at hv
      · exact ⟨v, hv⟩
    · rintro ⟨h1, h2⟩
      obtain ⟨v, hv⟩ := hx k hkl.2 hkl.1 h1 h2
      rw [so] at hv
      split at hv
      · simp at hv
      · rename_i hvw
        exact hvw (h.mixing_inj v w k hv hst)

/-- Any turn of any unit keeps the invariant. -/
theorem Pool.turn_ok {j : MixJob} {b0 : Mem} {count : Nat} {q : Pool} (hn : j.n ≠ 0) (w : Nat)
    (h : q.Ok j b0 count) : (q.turn j w).Ok j b0 count := by
  unfold Pool.turn
  split
  · rename_i hw
    split
    · exact h
    · rename_i u hu
      split
      · rename_i hs
        exact Pool.claimStep_ok h hu hw hs
      · rename_i k hs
        exact Pool.mixStep_ok hn h hu hw hs
      · exact h
      · exact h
  · exact h

/-! ## The measure -/

/-- How many steps a unit has left before it must claim again: two while it mixes a lane, one while it
claims. -/
def Worker.weight (u : Worker) : Nat :=
  match u.wstate with
  | .mixing _ => 2
  | .claiming => 1
  | .idle | .done => 0

/-- A bound on the steps left to the units (R101). -/
def Pool.measure (j : MixJob) (q : Pool) : Nat := (q.units.map Worker.weight).sum + 2 * (j.p - q.claim)

theorem sum_set_weight (us : List Worker) (w : Nat) (u v : Worker) (hu : us[w]? = some u) :
    ((us.set w v).map Worker.weight).sum + u.weight = (us.map Worker.weight).sum + v.weight := by
  induction us generalizing w with
  | nil => simp at hu
  | cons a us ih =>
    cases w with
    | zero =>
      simp only [List.getElem?_cons_zero, Option.some.injEq] at hu
      subst hu
      simp only [List.set_cons_zero, List.map_cons, List.sum_cons]
      omega
    | succ w =>
      simp only [List.getElem?_cons_succ] at hu
      have := ih w hu
      simp only [List.set_cons_succ, List.map_cons, List.sum_cons]
      omega

/-- A turn of a unit that can move lowers the measure; no turn raises it (R101). -/
theorem Pool.turn_measure (j : MixJob) (q : Pool) (w : Nat) :
    (q.turn j w).measure j ≤ q.measure j
      ∧ ∀ u, w < j.weff → q.units[w]? = some u → u.canMove = true → (q.turn j w).measure j < q.measure j := by
  unfold Pool.turn
  by_cases hw : w < j.weff
  · rw [if_pos hw]
    cases hu : q.units[w]? with
    | none => exact ⟨Nat.le_refl _, by simp⟩
    | some u =>
      have hst : q.stateOf w = some u.wstate := by simp [Pool.stateOf, hu]
      dsimp only
      split
      · rename_i hs
        have key : (q.claimStep j w u).measure j < q.measure j := by
          unfold Pool.measure Pool.claimStep
          have := sum_set_weight q.units w u
            { u with wstate := if j.p ≤ q.claim then .done else .mixing q.claim } hu
          have hwt : u.weight = 1 := by simp [Worker.weight, hs]
          by_cases hp : j.p ≤ q.claim
          · simp only [hp, if_true, Worker.weight] at this ⊢
            simp only [Worker.weight] at hwt
            omega
          · simp only [hp, if_false, Worker.weight] at this ⊢
            simp only [Worker.weight] at hwt
            omega
        exact ⟨Nat.le_of_lt key, fun _ _ _ _ => key⟩
      · rename_i k hs
        have key : (q.mixStep j w k u).measure j < q.measure j := by
          have := sum_set_weight q.units w u { (mixLane j.n j.r k u q.b).unit with wstate := .claiming } hu
          have hwt : u.weight = 2 := by simp [Worker.weight, hs]
          have hwt' : Worker.weight { (mixLane j.n j.r k u q.b).unit with wstate := .claiming } = 1 := rfl
          rw [hwt, hwt'] at this
          dsimp only at this
          simp only [Pool.measure, Pool.mixStep]
          omega
        exact ⟨Nat.le_of_lt key, fun _ _ _ _ => key⟩
      · rename_i hs
        refine ⟨Nat.le_refl _, fun u' _ he hm => ?_⟩
        cases he
        simp [Worker.canMove, hs] at hm
      · rename_i hs
        refine ⟨Nat.le_refl _, fun u' _ he hm => ?_⟩
        cases he
        simp [Worker.canMove, hs] at hm
  · rw [if_neg hw]
    exact ⟨Nat.le_refl _, fun u hw' => absurd hw' hw⟩

theorem Pool.firstMovable_some {j : MixJob} {b0 : Mem} {count w : Nat} {q : Pool} (h : q.Ok j b0 count)
    (hf : q.firstMovable = some w) : ∃ u, w < j.weff ∧ q.units[w]? = some u ∧ u.canMove = true := by
  unfold Pool.firstMovable at hf
  rw [List.findIdx?_eq_some_iff_getElem] at hf
  obtain ⟨hl, hm, -⟩ := hf
  refine ⟨q.units[w], ?_, by simp [hl], hm⟩
  by_contra hge
  have ha := h.above w (by omega) (by rw [← h.units_length]; exact hl)
  have hs : q.units[w].wstate = .idle := by simpa [Pool.stateOf, hl] using ha
  simp [Worker.canMove, hs] at hm

theorem Pool.drain_ok {j : MixJob} {b0 : Mem} {count : Nat} (hn : j.n ≠ 0) (fuel : Nat) {q : Pool}
    (h : q.Ok j b0 count) (hm : q.measure j ≤ fuel) :
    (q.drain j fuel).Ok j b0 count ∧ (q.drain j fuel).firstMovable = none := by
  induction fuel generalizing q with
  | zero =>
    refine ⟨h, ?_⟩
    cases hf : q.firstMovable with
    | none => exact hf
    | some w =>
      obtain ⟨u, hw, hu, hmv⟩ := Pool.firstMovable_some h hf
      have := (Pool.turn_measure j q w).2 u hw hu hmv
      omega
  | succ fuel ih =>
    unfold Pool.drain
    cases hf : q.firstMovable with
    | none => exact ⟨h, hf⟩
    | some w =>
      obtain ⟨u, hw, hu, hmv⟩ := Pool.firstMovable_some h hf
      have := (Pool.turn_measure j q w).2 u hw hu hmv
      exact ih (Pool.turn_ok hn w h) (by omega)

/-- Every run of the units, whatever the turns, keeps the invariant and ends with no unit that can move
(R99, R101). -/
theorem Pool.run_ok {j : MixJob} {b0 : Mem} {count : Nat} (hn : j.n ≠ 0) (ts : List Nat) {q : Pool}
    (h : q.Ok j b0 count) (hm : q.measure j ≤ 2 * j.p + j.weff) :
    (Pool.run j ts q).1.Ok j b0 count ∧ (Pool.run j ts q).1.firstMovable = none := by
  induction ts generalizing q with
  | nil =>
    unfold Pool.run
    cases hf : q.firstMovable with
    | none => exact ⟨h, hf⟩
    | some w => exact Pool.drain_ok hn _ h hm
  | cons w ts ih =>
    unfold Pool.run
    cases hf : q.firstMovable with
    | none => exact ⟨h, hf⟩
    | some _ =>
      have := (Pool.turn_measure j q w).1
      exact ih (Pool.turn_ok hn w h) (by omega)

/-! ## The mixing phase -/

/-- When no unit can move, every lane is mixed (R99, R100). -/
theorem Pool.ended {j : MixJob} {b0 : Mem} {count : Nat} {q : Pool} (hr : 0 < j.r) (h : q.Ok j b0 count)
    (hf : q.firstMovable = none) (hw : 0 < j.weff) (hc : 0 < count) (hb0 : b0.wf = true) :
    q.b = mixedLanes j.n j.r j.p b0 := by
  have still : ∀ u ∈ q.units, u.canMove = false := by
    intro u hu
    unfold Pool.firstMovable at hf
    rw [List.findIdx?_eq_none_iff] at hf
    exact hf u hu
  have nomix : ∀ w k, q.stateOf w ≠ some (.mixing k) := by
    intro w k hs
    unfold Pool.stateOf at hs
    cases hu : q.units[w]? with
    | none => simp [hu] at hs
    | some u =>
      rw [hu, Option.map_some, Option.some.injEq] at hs
      have := still u (List.mem_of_getElem? hu)
      simp [Worker.canMove, hs] at this
  have claimed : j.p ≤ q.claim := by
    have hl : 0 < q.units.length := by rw [h.units_length]; exact hc
    have hs : q.stateOf 0 = some q.units[0].wstate := by simp [Pool.stateOf, hl]
    have hne := h.below 0 hw
    have hst := still q.units[0] (List.getElem_mem hl)
    cases hws : q.units[0].wstate with
    | idle => rw [hs, hws] at hne; exact absurd rfl hne
    | claiming => simp [Worker.canMove, hws] at hst
    | mixing k => simp [Worker.canMove, hws] at hst
    | done => exact h.done_claimed 0 (by rw [hs, hws])
  apply Mem.ext_of_wf h.b_wf (mixedLanes_wf _ hb0)
  intro x
  by_cases hx : x < j.p * (128 * j.r)
  · have hpos : 0 < 128 * j.r := by omega
    have hdiv : x / (128 * j.r) < j.p := Nat.div_lt_of_lt_mul (by rwa [Nat.mul_comm] at hx)
    have h1 := Nat.div_mul_le_self x (128 * j.r)
    have h2 : x < x / (128 * j.r) * (128 * j.r) + 128 * j.r := by
      have := Nat.lt_div_mul_add (a := x) hpos
      omega
    exact h.mixed _ hdiv (by omega) (fun w => nomix w _) x h1 h2
  · rw [mixedLanes_read_above _ _ _ _ (by omega)]
    apply h.waiting
    intro k hk _ h1 h2
    have := Nat.mul_le_mul_right (128 * j.r) (Nat.succ_le_of_lt hk)
    rw [Nat.succ_eq_add_one] at this
    have e : (k + 1) * (128 * j.r) = k * (128 * j.r) + 128 * j.r := by ring
    omega

theorem startUnits_stateOf {us : List Worker} {weff w c : Nat} {b : Mem} (hq : ∀ u ∈ us, u = Worker.quiet) :
    Pool.stateOf { claim := c, units := startUnits weff us, b := b } w
      = if w < us.length then some (if w < weff then .claiming else .idle) else none := by
  unfold Pool.stateOf startUnits
  by_cases hl : w < us.length
  · have hget : us[w] = Worker.quiet := hq _ (List.getElem_mem hl)
    by_cases hw : w < weff
    · simp [hl, hw, List.getElem?_append]
    · have e : weff + (w - min weff us.length) = w := by omega
      rw [List.getElem?_append_right (by simp; omega), List.getElem?_drop, List.length_map, List.length_take, e]
      simp [hl, hw, hget, Worker.quiet]
  · simp [hl, List.getElem?_append]
    omega

theorem startUnits_ok {j : MixJob} {us : List Worker} {b : Mem} (hq : ∀ u ∈ us, u = Worker.quiet)
    (hw : j.weff ≤ us.length) (hb : b.wf = true) :
    Pool.Ok j b us.length { claim := 0, units := startUnits j.weff us, b := b } := by
  have so := fun w => startUnits_stateOf (weff := j.weff) (w := w) (c := 0) (b := b) hq
  refine ⟨?_, ?_, ?_, ?_, ?_, ?_, ?_, hb, ?_, ?_⟩
  · simp [startUnits]
    omega
  · intro u hu
    simp only [startUnits] at hu
    rcases List.mem_append.mp hu with hu | hu
    · obtain ⟨v, hv, rfl⟩ := List.mem_map.mp hu
      rw [hq v (List.mem_of_mem_take hv)]
      exact ⟨rfl, rfl⟩
    · rw [hq u (List.mem_of_mem_drop hu)]
      exact ⟨rfl, rfl⟩
  · intro w h1 h2
    rw [so, if_pos h2, if_neg (by omega)]
  · intro w h1
    rw [so, if_pos (by omega), if_pos h1]
    simp
  · intro w k hk
    rw [so] at hk
    split at hk
    · split at hk <;> simp at hk
    · simp at hk
  · intro w w' k hk
    rw [so] at hk
    split at hk
    · split at hk <;> simp at hk
    · simp at hk
  · intro w hk
    rw [so] at hk
    split at hk
    · split at hk <;> simp at hk
    · simp at hk
  · intro k _ hk
    simp at hk
  · intro x _
    rfl

theorem startUnits_measure {j : MixJob} {us : List Worker} {b : Mem} (hq : ∀ u ∈ us, u = Worker.quiet) :
    Pool.measure j { claim := 0, units := startUnits j.weff us, b := b } ≤ 2 * j.p + j.weff := by
  have h1 : ∀ l : List Worker, ((l.map fun u => { u with wstate := WorkerState.claiming }).map Worker.weight).sum
      = l.length := by
    intro l
    induction l with
    | nil => rfl
    | cons a l ih =>
      simp only [List.map_cons, List.sum_cons, ih, List.length_cons, Worker.weight]
      omega
  have h2 : ∀ l : List Worker, (∀ u ∈ l, u = Worker.quiet) → (l.map Worker.weight).sum = 0 := by
    intro l hl
    induction l with
    | nil => rfl
    | cons a l ih =>
      have := hl a (by simp)
      subst this
      simp [ih fun u hu => hl u (List.mem_cons_of_mem _ hu), Worker.weight, Worker.quiet]
  unfold Pool.measure startUnits
  rw [List.map_append, List.sum_append, h1, h2 _ fun u hu => hq u (List.mem_of_mem_drop hu), List.length_take]
  simp only
  omega

/-- The mixing phase, on quiet worker units and in every interleaving: B becomes the B of R100, the units
and the claim counter are as before, and only the list of turns is shorter (R96 to R100). -/
theorem mixPhase_eq {s : State} (hq : ∀ u ∈ s.units, u = Worker.quiet) (hlen : s.units.length = s.cfg.wHw)
    (hcfg : 0 < s.cfg.wHw) (hn : s.regs.n ≠ 0) (hr : s.regs.r ≠ 0) (hp : s.regs.p ≠ 0)
    (ht : s.regs.maxThreads ≠ 0) (hb : s.b.wf = true) :
    ∃ ts, mixPhase s
      = { s with
          b := mixedLanes s.regs.n s.regs.r.toNat s.regs.p.toNat s.b
          claim := 0
          workerTurns := ts } := by
  have pos : ∀ v : Word, v ≠ 0 → 0 < v.toNat := fun v h => by
    rcases Nat.eq_zero_or_pos v.toNat with h0 | h0
    · exact absurd (BitVec.eq_of_toNat_eq (by simpa using h0)) h
    · exact h0
  have hr' := pos _ hr
  have hp' := pos _ hp
  have ht' := pos _ ht
  have hweff : s.weff ≤ s.units.length := by
    unfold State.weff
    omega
  have hweff0 : 0 < s.weff := by
    unfold State.weff
    omega
  unfold mixPhase
  simp only
  generalize hj : ({ n := s.regs.n, r := s.regs.r.toNat, p := s.regs.p.toNat, weff := s.weff } : MixJob) = j
  have e1 : j.weff = s.weff := by rw [← hj]
  have ok0 := startUnits_ok (j := j) hq (by rw [e1]; exact hweff) hb
  have m0 := startUnits_measure (j := j) (b := s.b) hq
  rw [e1] at ok0 m0
  rw [← e1] at m0
  obtain ⟨ok, nomove⟩ := Pool.run_ok (by rw [← hj]; exact hn) s.workerTurns ok0 (by rw [e1] at m0 ⊢; exact m0)
  generalize Pool.run j s.workerTurns { claim := 0, units := startUnits s.weff s.units, b := s.b } = res at *
  obtain ⟨q, ts⟩ := res
  have hbq := Pool.ended (by rw [← hj]; exact hr') ok nomove (by rw [e1]; exact hweff0)
    (by omega) hb
  have hunits : (q.units.map fun u => { u with wstate := WorkerState.idle }) = s.units := by
    have a1 : s.units = List.replicate s.units.length Worker.quiet := List.eq_replicate_iff.mpr ⟨rfl, hq⟩
    rw [a1]
    apply List.eq_replicate_iff.mpr
    refine ⟨by simpa using ok.units_length, ?_⟩
    intro u hu
    obtain ⟨v, hv, rfl⟩ := List.mem_map.mp hu
    obtain ⟨h1, h2⟩ := ok.clean v hv
    simp [Worker.quiet, h1, h2]
  refine ⟨ts, ?_⟩
  simp only at hbq
  simp only [hunits, hbq, ← hj]

end Sys2Proof.Machine
end

