-- ==== Sys2Proof/Laws/PerInstr.lean ====
section
/-! SUPPORT. One fact about each command as syntax, per constructor: its word carries exactly its fields of R65,
with RSVD 0, an operation code of R69, and ORG 0 unless it is a STREAM_SEEK. -/

namespace Sys2Proof.Laws.FieldsAgree

open Sys2Proof

/-- The word of a command carries its fields (R65), and they are those R69 allows. -/
def Statement (i : Instr) : Prop :=
  fieldsOf (encode i) = i.fields ∧ i.fields.rsvd = 0 ∧ i.opc ≤ 0x0E#8 ∧ (i.fields.org = 0 ∨ i.opc = 0x0A#8)

theorem nop : Statement .nop := ⟨by decide, by decide, by decide, by decide⟩

theorem salsa : Statement .salsa := ⟨by decide, by decide, by decide, by decide⟩

theorem blockmix : Statement .blockmix := ⟨by decide, by decide, by decide, by decide⟩

theorem smix : Statement .smix := ⟨by decide, by decide, by decide, by decide⟩

theorem mixAll : Statement .mixAll := ⟨by decide, by decide, by decide, by decide⟩

theorem pbkdf2Fill : Statement .pbkdf2Fill := ⟨by decide, by decide, by decide, by decide⟩

theorem effectiveSalt : Statement .effectiveSalt := ⟨by decide, by decide, by decide, by decide⟩

theorem openScrypt : Statement .openScrypt := ⟨by decide, by decide, by decide, by decide⟩

theorem openPbkdf2 : Statement .openPbkdf2 := ⟨by decide, by decide, by decide, by decide⟩

theorem streamRead : Statement .streamRead := ⟨by decide, by decide, by decide, by decide⟩

theorem streamSeekBegin : Statement .streamSeekBegin := ⟨by decide, by decide, by decide, by decide⟩

theorem streamSeekCurrent : Statement .streamSeekCurrent := ⟨by decide, by decide, by decide, by decide⟩

theorem streamSeekEnd : Statement .streamSeekEnd := ⟨by decide, by decide, by decide, by decide⟩

theorem streamWrite : Statement .streamWrite := ⟨by decide, by decide, by decide, by decide⟩

theorem streamSetlen : Statement .streamSetlen := ⟨by decide, by decide, by decide, by decide⟩

theorem close : Statement .close := ⟨by decide, by decide, by decide, by decide⟩

theorem zeroize : Statement .zeroize := ⟨by decide, by decide, by decide, by decide⟩

end Sys2Proof.Laws.FieldsAgree
end

