-- ==== Sys2Proof/Laws/Stream.lean ====
section
/-! SUPPORT. Laws of PBKDF2 and of the stream: lengths, PBKDF2's output byte by byte (R108, R109), and that a
read through the cache returns the stream's bytes and keeps the cache true (R111). -/

namespace Sys2Proof.Machine

/-! ## The HMAC of an engine -/

@[simp] theorem hmacOf_standard : hmacOf .standard = intendedHmac := rfl
@[simp] theorem hmacOf_injected (k : Nat) : hmacOf (.injected k) = Config.hmac k := rfl
@[simp] theorem State.complete_hmac (opc : Byte) (e : ErrorCode) (s : State) : (s.complete opc e).hmac = s.hmac := rfl
@[simp] theorem State.accept_hmac (cw : Word) (s : State) : (s.accept cw).hmac = s.hmac := rfl
@[simp] theorem State.resetWith_hmac (c : Params) : (State.resetWith c).hmac = hmacOf c.hmac := rfl

theorem xorBytes_length (a b : Bytes) : (xorBytes a b).length = min a.length b.length := by
  simp [xorBytes]

/-- The accumulators hold one tag's length of bytes throughout (R106). -/
theorem pbkIterate_lengths (h : HmacFn) (k : Binding) (key salt : Bytes) (i : Word) (m : Nat) :
    ((PbkRegs.iterate h k key)^[m] (PbkRegs.start h k key salt i)).t.length = k.hLen := by
  induction m with
  | zero => simp [PbkRegs.start]
  | succ m ih =>
    rw [Function.iterate_succ_apply']
    simp [PbkRegs.iterate, xorBytes_length, ih]

/-- A PBKDF2 block has hLen bytes (R106). -/
@[simp] theorem pbkdf2Block_length (h : HmacFn) (k : Binding) (key salt : Bytes) (c : Nat) (i : Word) :
    (pbkdf2Block h k key salt c i).length = k.hLen := pbkIterate_lengths h k key salt i (c - 1)

theorem hLen_pos (k : Binding) : 0 < k.hLen := by
  cases k <;> simp [Binding.hLen]

theorem flatMap_blocks_getD (f : Nat → Bytes) (n : Nat) (hf : ∀ i, (f i).length = n) (m x : Nat)
    (hx : x < m * n) :
    ((List.range m).flatMap f).getD x 0 = (f (x / n)).getD (x % n) 0 := by
  induction m with
  | zero => omega
  | succ m ih =>
    have hlen : ((List.range m).flatMap f).length = m * n := by
      clear ih hx
      induction m with
      | zero => simp
      | succ m ihm =>
        rw [List.range_succ, List.flatMap_append, List.length_append, ihm]
        simp [hf]
        ring
    rw [List.range_succ, List.flatMap_append]
    by_cases h : x < m * n
    · rw [List.getD_append _ _ _ _ (by omega)]
      exact ih h
    · have e : (m + 1) * n = m * n + n := by ring
      have hd : x / n = m := by
        apply Nat.div_eq_of_lt_le <;> omega
      have hm : x % n = x - m * n := by
        have := Nat.div_add_mod x n
        rw [hd, Nat.mul_comm] at this
        omega
      rw [List.getD_append_right _ _ _ _ (by omega), hlen, hd, hm]
      simp

theorem flatMap_blocks_length (f : Nat → Bytes) (n : Nat) (hf : ∀ i, (f i).length = n) (m : Nat) :
    ((List.range m).flatMap f).length = m * n := by
  induction m with
  | zero => simp
  | succ m ih =>
    rw [List.range_succ, List.flatMap_append, List.length_append, ih]
    simp [hf]
    ring

theorem blocks_cover (k : Binding) (len : Nat) : len ≤ (len + k.hLen - 1) / k.hLen * k.hLen := by
  have hp := hLen_pos k
  have h := Nat.lt_div_mul_add (a := len + k.hLen - 1) hp
  omega

/-- PBKDF2 gives the number of bytes asked for (R109). -/
@[simp] theorem pbkdf2_length (h : HmacFn) (k : Binding) (key salt : Bytes) (c len : Nat) :
    (pbkdf2 h k key salt c len).length = len := by
  unfold pbkdf2
  rw [List.length_take, flatMap_blocks_length _ k.hLen (fun i => pbkdf2Block_length h k key salt c _)]
  have := blocks_cover k len
  omega

/-- PBKDF2's output is the stream's bytes at positions 0 .. len-1 (R108, R109). -/
theorem pbkdf2_getD (h : HmacFn) (k : Binding) (key salt : Bytes) (c len x : Nat) (hx : x < len) :
    (pbkdf2 h k key salt c len).getD x 0 = streamByte h k key salt c x := by
  have hc := blocks_cover k len
  have key' := flatMap_blocks_getD (fun i => pbkdf2Block h k key salt c (BitVec.ofNat 32 (i + 1))) k.hLen
    (fun i => pbkdf2Block_length h k key salt c _) ((len + k.hLen - 1) / k.hLen) x (by omega)
  unfold pbkdf2 streamByte blockIndex
  rw [← key']
  simp [List.getD, hx]

/-! ## Reading through the cache -/

/-- A valid cached block is the block its index names (R111). -/
def Stream.CacheTrue (h : HmacFn) (t : Stream) : Prop :=
  t.cacheValid = true →
    t.cacheBytes = pbkdf2Block h t.ssel t.keyBytes t.saltBytes t.siter.toNat t.cacheIdx

/-- The stream's own byte at a position (R108). -/
def Stream.byteAt (h : HmacFn) (t : Stream) (x : Nat) : Byte :=
  streamByte h t.ssel t.keyBytes t.saltBytes t.siter.toNat x

/-- A fetch of a byte of the cached block (R111). -/
theorem Stream.fetch_hit (h : HmacFn) (x : Nat) (t : Stream) (hv : t.cacheValid = true)
    (hi : t.cacheIdx = blockIndex t.ssel x) :
    t.fetch h x = (t.cacheBytes.getD (x % t.ssel.hLen) 0, t) := by
  simp [Stream.fetch, hv, hi]

/-- A fetch of a byte of another block, which is computed and cached (R111). -/
theorem Stream.fetch_miss (h : HmacFn) (x : Nat) (t : Stream)
    (hm : ¬ (t.cacheValid = true ∧ t.cacheIdx = blockIndex t.ssel x)) :
    t.fetch h x = (t.byteAt h x, { t with
      cacheValid := true
      cacheIdx := blockIndex t.ssel x
      cacheBytes := pbkdf2Block h t.ssel t.keyBytes t.saltBytes t.siter.toNat (blockIndex t.ssel x) }) := by
  have hc : (t.cacheValid && t.cacheIdx == blockIndex t.ssel x) = false := by
    rw [Bool.eq_false_iff, ne_eq, Bool.and_eq_true, beq_iff_eq]
    exact hm
  simp only [Stream.fetch, hc]
  rfl

/-- A fetch changes the cached block only (R111). -/
theorem Stream.fetch_frame (h : HmacFn) (x : Nat) (t : Stream) :
    ∃ v i b, (t.fetch h x).2 = { t with cacheValid := v, cacheIdx := i, cacheBytes := b } := by
  by_cases hc : t.cacheValid = true ∧ t.cacheIdx = blockIndex t.ssel x
  · rw [Stream.fetch_hit h x t hc.1 hc.2]
    exact ⟨_, _, _, rfl⟩
  · rw [Stream.fetch_miss h x t hc]
    exact ⟨_, _, _, rfl⟩

/-- A fetch returns the stream's byte, whatever the cache holds, and leaves the cache true (R111). -/
theorem Stream.fetch_eq (h : HmacFn) (x : Nat) (t : Stream) (ht : t.CacheTrue h) :
    (t.fetch h x).1 = t.byteAt h x ∧ (t.fetch h x).2.CacheTrue h := by
  by_cases hc : t.cacheValid = true ∧ t.cacheIdx = blockIndex t.ssel x
  · rw [Stream.fetch_hit h x t hc.1 hc.2, ht hc.1, hc.2]
    exact ⟨rfl, ht⟩
  · rw [Stream.fetch_miss h x t hc]
    exact ⟨rfl, fun _ => rfl⟩

/-- A read of n bytes changes the cached block only. -/
theorem Stream.fetchMany_frame (h : HmacFn) (n x : Nat) (t : Stream) :
    ∃ v i b, (t.fetchMany h n x).2 = { t with cacheValid := v, cacheIdx := i, cacheBytes := b } := by
  induction n generalizing x t with
  | zero => exact ⟨_, _, _, rfl⟩
  | succ n ih =>
    obtain ⟨v, i, b, e⟩ := Stream.fetch_frame h x t
    obtain ⟨v', i', b', e'⟩ := ih (x + 1) (t.fetch h x).2
    refine ⟨v', i', b', ?_⟩
    rw [show (t.fetchMany h (n + 1) x).2 = ((t.fetch h x).2.fetchMany h n (x + 1)).2 from rfl, e', e]

/-- A read of n bytes returns the stream's bytes from the position on, and leaves the cache true (R108,
R111, R113). -/
theorem Stream.fetchMany_eq (h : HmacFn) (n x : Nat) (t : Stream) (ht : t.CacheTrue h) :
    (t.fetchMany h n x).1 = (List.range n).map (fun m => t.byteAt h (x + m))
      ∧ (t.fetchMany h n x).2.CacheTrue h := by
  induction n generalizing x t with
  | zero => exact ⟨rfl, ht⟩
  | succ n ih =>
    obtain ⟨e1, c1⟩ := Stream.fetch_eq h x t ht
    obtain ⟨v, i, b, f⟩ := Stream.fetch_frame h x t
    obtain ⟨e2, c2⟩ := ih (x + 1) (t.fetch h x).2 c1
    have hb : ∀ y, (t.fetch h x).2.byteAt h y = t.byteAt h y := by
      intro y
      rw [f]
      rfl
    refine ⟨?_, c2⟩
    simp only [Stream.fetchMany, e1, e2, hb, List.range_succ_eq_map, List.map_cons, List.map_map]
    congr 1
    apply List.map_congr_left
    intro m _
    simp only [Function.comp_apply]
    congr 1
    omega

@[simp] theorem Stream.fetchMany_length (h : HmacFn) (n x : Nat) (t : Stream) : (t.fetchMany h n x).1.length = n := by
  induction n generalizing x t with
  | zero => rfl
  | succ n ih => simp [Stream.fetchMany, ih]

theorem Stream.fetch_cacheLen (h : HmacFn) (x : Nat) (t : Stream) (ht : t.cacheBytes.length = t.ssel.hLen) :
    (t.fetch h x).2.cacheBytes.length = t.ssel.hLen := by
  by_cases hc : t.cacheValid = true ∧ t.cacheIdx = blockIndex t.ssel x
  · rw [Stream.fetch_hit h x t hc.1 hc.2]
    exact ht
  · rw [Stream.fetch_miss h x t hc]
    exact pbkdf2Block_length ..

theorem Stream.fetchMany_cacheLen (h : HmacFn) (n x : Nat) (t : Stream)
    (ht : t.cacheBytes.length = t.ssel.hLen) : (t.fetchMany h n x).2.cacheBytes.length = t.ssel.hLen := by
  induction n generalizing x t with
  | zero => exact ht
  | succ n ih =>
    obtain ⟨v, i, b, f⟩ := Stream.fetch_frame h x t
    have l := Stream.fetch_cacheLen h x t ht
    have e : (t.fetch h x).2.ssel = t.ssel := by rw [f]
    have := ih (x + 1) (t.fetch h x).2 (by rw [e]; exact l)
    rwa [e] at this

/-- The stream just opened holds the key and salt it was given (R112, R124). -/
@[simp] theorem Stream.reopen_keyBytes (key salt : Bytes) (c : Word) (k : Binding) (t : Stream) :
    (t.reopen key salt c k).keyBytes = key := Mem.readBytes_ofBytes key

@[simp] theorem Stream.reopen_saltBytes (key salt : Bytes) (c : Word) (k : Binding) (t : Stream) :
    (t.reopen key salt c k).saltBytes = salt := Mem.readBytes_ofBytes salt

end Sys2Proof.Machine
end

