-- ==== Sys2Proof/Laws/Sound.lean ====
section
/-! SUPPORT. Soundness of the state under each operation: what a check that passes gives, what the results of
each command are on a sound state, and that completion and the host's accesses keep a state sound. -/

namespace Sys2Proof.Machine

/-! ## Spaces -/

theorem Mem.Fits.nil (n : Nat) : Mem.Fits n [] := ⟨Mem.wf_nil, Mem.within_nil n⟩

theorem Mem.Fits.writeBytes {m : Mem} {n a : Nat} {v : Bytes} (h : m.Fits n) (hv : a + v.length ≤ n) :
    (m.writeBytes a v).Fits n :=
  ⟨Mem.wf_writeBytes a v h.wf, Mem.within_writeBytes h.within hv⟩

theorem Mem.Fits.wipe_all {m : Mem} {n : Nat} (h : m.Fits n) : m.wipe 0 n = [] := Mem.wipe_all h.within

theorem Mem.Fits.ofBytes {v : Bytes} {n : Nat} (hv : v.length = n) : (Mem.ofBytes v).Fits n :=
  hv ▸ ⟨Mem.wf_ofBytes v, Mem.within_ofBytes v⟩

/-! ## Parameters -/

theorem Params.wf_iff (c : Params) : c.wf = true ↔
    (1 ≤ c.wHw ∧ c.wHw ≤ 255) ∧ (1 ≤ c.keyMax ∧ c.keyMax ≤ 65536)
      ∧ (1 ≤ c.saltMax ∧ c.saltMax ≤ 65536 ∧ c.saltMax ≤ c.bBytes)
      ∧ (128 ≤ c.bBytes ∧ c.bBytes ≤ 2 ^ 20 ∧ c.bBytes % 128 = 0)
      ∧ (1 ≤ c.outBytes ∧ c.outBytes ≤ 65536)
      ∧ (128 ≤ c.vlaneBytes ∧ c.vlaneBytes ≤ 2 ^ 31 ∧ c.vlaneBytes % 128 = 0)
      ∧ c.engineBase.toNat % 4 = 0 := by
  simp only [Params.wf, Bool.and_eq_true, decide_eq_true_eq]
  tauto

/-! ## What a check that passes gives -/

theorem Check.pass_n {s : State} (h : Check.n.fails s = false) : s.regs.n ≠ 0 := by
  simp [Check.fails] at h
  exact h.1

theorem Check.pass_r {s : State} (h : Check.r.fails s = false) : s.regs.r ≠ 0 := by
  simpa [Check.fails] using h

theorem Check.pass_p {s : State} (h : Check.p.fails s = false) : s.regs.p ≠ 0 := by
  simpa [Check.fails] using h

theorem Check.pass_t {s : State} (h : Check.t.fails s = false) : s.regs.maxThreads ≠ 0 := by
  simpa [Check.fails] using h

theorem Check.pass_key {s : State} (h : Check.key.fails s = false) : s.regs.keyLen.toNat ≤ s.cfg.keyMax := by
  simpa [Check.fails] using h

theorem Check.pass_salt {s : State} (h : Check.salt.fails s = false) : s.regs.saltLen.toNat ≤ s.cfg.saltMax := by
  simpa [Check.fails] using h

theorem Check.pass_b {s : State} (h : Check.b.fails s = false) : s.lanesLen ≤ s.cfg.bBytes := by
  simpa [Check.fails] using h

theorem Check.pass_b1 {s : State} (h : Check.b1.fails s = false) : s.mfLen ≤ s.cfg.bBytes := by
  simpa [Check.fails] using h

theorem Check.pass_lane {s : State} (h : Check.lane.fails s = false) : s.regs.lane.toNat < s.regs.p.toNat := by
  simpa [Check.fails] using h

theorem Check.pass_iter {s : State} (h : Check.iter.fails s = false) : s.regs.iter ≠ 0 := by
  simpa [Check.fails] using h

theorem Check.pass_rlen {s : State} (h : Check.rlen.fails s = false) : s.regs.readLen.toNat ≤ s.cfg.outBytes := by
  simpa [Check.fails] using h

theorem Check.pass_opened {s : State} (h : Check.opened.fails s = false) : s.stream.isOpen = true := by
  simpa [Check.fails] using h

theorem Check.pass_seek {s : State} {o : SeekOrigin} (h : (Check.seek o).fails s = false) :
    0 ≤ s.seekTarget o ∧ s.seekTarget o ≤ 2 ^ 63 - 1 := by
  simpa [Check.fails] using h

/-- A lane that lies in the p lanes lies in B (R134). -/
theorem lane_in_b {s : State} {k : Nat} (hk : k < s.regs.p.toNat) (hb : s.lanesLen ≤ s.cfg.bBytes) :
    k * (128 * s.regs.r.toNat) + 128 * s.regs.r.toNat ≤ s.cfg.bBytes := by
  have h := Nat.mul_le_mul_right (128 * s.regs.r.toNat) (Nat.succ_le_of_lt hk)
  rw [Nat.succ_eq_add_one] at h
  have e : (k + 1) * (128 * s.regs.r.toNat) = k * (128 * s.regs.r.toNat) + 128 * s.regs.r.toNat := by ring
  have e2 : s.lanesLen = s.regs.p.toNat * (128 * s.regs.r.toNat) := by
    unfold State.lanesLen State.mfLen
    ring
  omega

/-- Every binding the machine runs with is built (R29). -/
theorem State.binding_built (s : State) (h : s.binding = .sha512) : s.cfg.hasSha512 = true := by
  unfold State.binding State.hmacSelBit at h
  split at h
  · rename_i hb
    rw [Bool.and_eq_true] at hb
    exact hb.2
  · cases h

/-! ## The results of the commands on a sound state, by the functions of the spec -/

/-- SALSA replaces B[0..64) by SalsaCore of it (R85). -/
theorem salsaResults_eq (s : State) (hq : s.seq = MixRegs.zero) :
    salsaResults s
      = { s with
          b := s.b.writeBytes 0
            (blockBytes [salsaCore s.regs.rounds.toNat (blockAt (leWords (s.b.readBytes 0 64)) 0)]) } := by
  have : s.seq.clearSalsa = s.seq := by rw [hq]; rfl
  simp [salsaResults, runSalsa_eq, this]

/-- BLOCKMIX replaces B[0..128·R) by BlockMix of it (R89). -/
theorem blockMixResults_eq (s : State) (hq : s.seq = MixRegs.zero) :
    blockMixResults s
      = { s with b := s.b.writeBytes 0 (blockBytes (blockMix (s.b.readBlocks 0 s.mfLen))) } := by
  have hl : (s.b.readBlocks 0 s.mfLen).length = 2 * s.regs.r.toNat := by
    rw [Mem.readBlocks_length]
    unfold State.mfLen
    omega
  have h := runBlockMix_eq s.regs.r.toNat (s.b.readBlocks 0 s.mfLen) s.seq hl (by rw [hq]; rfl) (by rw [hq]; rfl)
  have e : ({ s.seq with q := zeroBlock, y := [], sub := 0 } : MixRegs) = s.seq := by rw [hq]; rfl
  rw [e] at h
  simp [blockMixResults, h]

/-- SMIX replaces lane LANE of B by SMix of it; V_0 is wiped again (R95). -/
theorem smixResults_eq (s : State) (hq : s.Quiet) (hn : s.regs.n ≠ 0) :
    smixResults s = { s with b := mixedLane s.regs.n s.regs.r.toNat s.b s.regs.lane.toNat } := by
  have hu : s.units.getD 0 Worker.quiet = Worker.quiet := by
    cases h : s.units with
    | nil => rfl
    | cons u us => exact hq.units u (by simp [h])
  have hset : s.units.set 0 Worker.quiet = s.units := by
    cases h : s.units with
    | nil => rfl
    | cons u us =>
      have := hq.units u (by simp [h])
      simp [this]
  have hm := mixLane_eq s.regs.n s.regs.r.toNat s.regs.lane.toNat Worker.quiet s.b hn rfl rfl
  unfold smixResults
  rw [hu, hm]
  dsimp only
  rw [hset]
  rfl

/-- MIX_ALL replaces every lane of B by SMix of it, in every interleaving (R100, R103). -/
theorem mixPhase_sound {s : State} (hs : s.Sound) (hn : s.regs.n ≠ 0) (hr : s.regs.r ≠ 0) (hp : s.regs.p ≠ 0)
    (ht : s.regs.maxThreads ≠ 0) :
    ∃ ts, mixPhase s
      = { s with b := mixedLanes s.regs.n s.regs.r.toNat s.regs.p.toNat s.b, workerTurns := ts } := by
  obtain ⟨ts, h⟩ := mixPhase_eq hs.quiet.units hs.units ((Params.wf_iff _).mp hs.cfg).1.1 hn hr hp ht hs.b.wf
  refine ⟨ts, ?_⟩
  rw [h, ← hs.quiet.claim]

/-- EFFECTIVE_SALT fills B with PBKDF2 output and mixes its lanes, in every interleaving (R123). -/
theorem effectiveSaltResults_eq {h : HmacFn} {s : State} (hs : s.Sound) (hn : s.regs.n ≠ 0) (hr : s.regs.r ≠ 0)
    (hp : s.regs.p ≠ 0) (ht : s.regs.maxThreads ≠ 0) (hb : s.lanesLen ≤ s.cfg.bBytes) :
    ∃ ts, effectiveSaltResults h s
      = { s with
          b := mixedLanes s.regs.n s.regs.r.toNat s.regs.p.toNat (fillResults h s).b
          workerTurns := ts } := by
  have hf : (fillResults h s).Sound := by
    refine { hs with b := ?_, quiet := ⟨hs.quiet.claim, hs.quiet.seq, hs.quiet.pbk, hs.quiet.units⟩ }
    exact hs.b.writeBytes (by rw [pbkdf2_length]; omega)
  obtain ⟨ts, e⟩ := mixPhase_sound hf hn hr hp ht
  exact ⟨ts, by unfold effectiveSaltResults; rw [e]; rfl⟩

/-! ## Soundness of the parts a command writes -/

/-- The part of soundness that is about data, which completion turns into soundness. -/
structure State.DataSound (s : State) : Prop where
  cfg : s.cfg.wf = true
  key : s.key.Fits s.cfg.keyMax
  salt : s.salt.Fits s.cfg.saltMax
  b : s.b.Fits s.cfg.bBytes
  out : s.out.Fits s.cfg.outBytes
  units : s.units.length = s.cfg.wHw
  hmacSel : s.regs.hmacSel = true → s.cfg.hasSha512 = true
  stream : s.stream.Sound s.cfg

theorem State.Sound.data {s : State} (h : s.Sound) : s.DataSound :=
  ⟨h.cfg, h.key, h.salt, h.b, h.out, h.units, h.hmacSel, h.stream⟩

/-- Completion of sound data is a sound state (R130, R17). -/
theorem State.DataSound.complete {s : State} (h : s.DataSound) (opc : Byte) (e : ErrorCode) :
    (s.complete opc e).Sound where
  cfg := h.cfg
  key := h.key
  salt := h.salt
  b := h.b
  out := h.out
  units := by simpa using h.units
  quiet := ⟨rfl, rfl, rfl, fun u hu => by
    obtain ⟨v, -, rfl⟩ := List.mem_map.mp hu
    rfl⟩
  hmacSel := h.hmacSel
  stream := h.stream
  running := fun hb => by simp at hb
  errCode := by
    show e.code.toNat ≤ 5
    cases e <;> decide
  held := fun _ => rfl

/-- The closed stream is sound (R118). -/
theorem Stream.closed_sound (c : Params) : Stream.closed.Sound c where
  skey := Mem.Fits.nil 0
  skeyLen := Nat.zero_le _
  ssalt := Mem.Fits.nil 0
  ssaltLen := Nat.zero_le _
  pos := by decide
  built := fun h => by cases h
  cacheLen := rfl
  cacheValid := fun h => by cases h
  cacheEmpty := fun _ => rfl
  iterations := fun h => by cases h
  closed := fun _ => rfl

/-- A stream opened on a key and salt that fit is sound (R112, R124). -/
theorem Stream.reopen_sound {c : Params} {key salt : Bytes} {n : Word} {k : Binding} (t : Stream)
    (hk : key.length ≤ c.keyMax) (hs : salt.length ≤ c.bBytes) (hn : n ≠ 0)
    (hb : k = .sha512 → c.hasSha512 = true) : (t.reopen key salt n k).Sound c where
  skey := Mem.Fits.ofBytes rfl
  skeyLen := hk
  ssalt := Mem.Fits.ofBytes rfl
  ssaltLen := hs
  pos := by simp [Stream.reopen]
  built := hb
  cacheLen := by simp [Stream.reopen]
  cacheValid := fun h => by cases h
  cacheEmpty := fun _ => rfl
  iterations := fun _ => hn
  closed := fun h => by cases h

theorem domainLen_le (k : Binding) : domainLen k ≤ 274877906880 := by
  cases k <;> simp [domainLen, Binding.hLen]

/-- A read leaves the stream sound (R111, R113). -/
theorem streamRead_sound {s : State} (hs : s.stream.Sound s.cfg) (ho : s.stream.isOpen = true) :
    (streamReadResults s.hmac s).stream.Sound s.cfg := by
  obtain ⟨v, i, b, f⟩ := Stream.fetchMany_frame s.hmac s.readCountNext s.stream.pos s.stream
  have ct := (Stream.fetchMany_eq s.hmac s.readCountNext s.stream.pos s.stream hs.cacheValid).2
  have cl := Stream.fetchMany_cacheLen s.hmac s.readCountNext s.stream.pos s.stream hs.cacheLen
  have ce : v = false → b = zeros s.stream.ssel.hLen := by
    have gen : ∀ n x (t : Stream), (t.cacheValid = false → t.cacheBytes = zeros t.ssel.hLen) →
        ((t.fetchMany s.hmac n x).2.cacheValid = false →
          (t.fetchMany s.hmac n x).2.cacheBytes = zeros t.ssel.hLen) := by
      intro n
      induction n with
      | zero => exact fun x t h => h
      | succ n ih =>
        intro x t h
        obtain ⟨v', i', b', f'⟩ := Stream.fetch_frame s.hmac x t
        have e : (t.fetch s.hmac x).2.ssel = t.ssel := by rw [f']
        have := ih (x + 1) (t.fetch s.hmac x).2 (by
          by_cases hc : t.cacheValid = true ∧ t.cacheIdx = blockIndex t.ssel x
          · rw [Stream.fetch_hit _ x t hc.1 hc.2]
            exact h
          · rw [Stream.fetch_miss _ x t hc]
            exact fun hf => by cases hf)
        rwa [e] at this
    have := gen s.readCountNext s.stream.pos s.stream hs.cacheEmpty
    rw [f] at this
    exact this
  rw [f] at ct cl
  have hp := hs.pos
  have hd := domainLen_le s.stream.ssel
  have hc : s.readCountNext ≤ domainLen s.stream.ssel - s.stream.pos := Nat.min_le_right _ _
  have e : (streamReadResults s.hmac s).stream
      = { s.stream with
          cacheValid := v, cacheIdx := i, cacheBytes := b, pos := s.stream.pos + s.readCountNext } := by
    simp [streamReadResults, f]
  rw [e]
  exact {
    skey := hs.skey
    skeyLen := hs.skeyLen
    ssalt := hs.ssalt
    ssaltLen := hs.ssaltLen
    pos := by simp only; omega
    built := hs.built
    cacheLen := cl
    cacheValid := ct
    cacheEmpty := ce
    iterations := hs.iterations
    closed := fun h => by rw [ho] at h; cases h }

/-- A seek to a target in range leaves the stream sound (R115). -/
theorem seek_sound {o : SeekOrigin} {s : State} (hs : s.stream.Sound s.cfg) (ho : s.stream.isOpen = true)
    (ht : 0 ≤ s.seekTarget o ∧ s.seekTarget o ≤ 2 ^ 63 - 1) : (seekResults o s).stream.Sound s.cfg :=
  { hs with
    pos := by
      show (s.seekTarget o).toNat < 2 ^ 63
      omega
    closed := fun h => by
      have h' : s.stream.isOpen = false := h
      rw [ho] at h'
      cases h' }

/-- The results of every command, on a sound state on which its checks pass, are sound data (R130). -/
theorem resultsOf_data {i : Instr} {s : State} (hs : s.Sound) (hc : ∀ c ∈ checksOf i, c.fails s = false) :
    (resultsOf i s).DataSound := by
  have d := hs.data
  cases i <;> simp only [checksOf, resultsOf, List.mem_cons, List.not_mem_nil, or_false, forall_eq_or_imp,
    forall_eq] at hc ⊢
  case nop => exact d
  case streamWrite => exact d
  case streamSetlen => exact d
  case salsa =>
    rw [salsaResults_eq s hs.quiet.seq]
    refine { d with b := d.b.writeBytes ?_ }
    have := ((Params.wf_iff _).mp hs.cfg).2.2.2.1.1
    rw [blockBytes_length]
    show 0 + 64 * 1 ≤ s.cfg.bBytes
    omega
  case blockmix =>
    rw [blockMixResults_eq s hs.quiet.seq]
    refine { d with b := d.b.writeBytes ?_ }
    have := Check.pass_b1 hc.2
    rw [blockBytes_length, blockMix_length, Mem.readBlocks_length]
    omega
  case smix =>
    rw [smixResults_eq s hs.quiet (Check.pass_n hc.1)]
    refine { d with b := d.b.writeBytes ?_ }
    have := lane_in_b (Check.pass_lane hc.2.2.2.2.1) (Check.pass_b hc.2.2.2.2.2.1)
    rw [blockBytes_length, smix_length, Mem.readBlocks_length]
    omega
  case mixAll =>
    obtain ⟨ts, e⟩ := mixPhase_sound hs (Check.pass_n hc.1) (Check.pass_r hc.2.1) (Check.pass_p hc.2.2.1)
      (Check.pass_t hc.2.2.2.1)
    rw [e]
    refine { d with b := ⟨mixedLanes_wf _ d.b.wf, mixedLanes_within _ ?_ d.b.within⟩ }
    have := Check.pass_b hc.2.2.2.2.2.1
    unfold State.lanesLen State.mfLen at this
    rwa [Nat.mul_comm]
  case pbkdf2Fill =>
    refine { d with b := d.b.writeBytes ?_ }
    have := Check.pass_b hc.2.2.2.2.2
    rw [pbkdf2_length]
    omega
  case effectiveSalt =>
    have hb := Check.pass_b hc.2.2.2.2.2.2.2.2.1
    obtain ⟨ts, e⟩ := effectiveSaltResults_eq (h := s.hmac) hs (Check.pass_n hc.1) (Check.pass_r hc.2.1)
      (Check.pass_p hc.2.2.1) (Check.pass_t hc.2.2.2.1) hb
    have fb : (fillResults s.hmac s).b.Fits s.cfg.bBytes := d.b.writeBytes (by rw [pbkdf2_length]; omega)
    rw [e]
    refine { d with b := ⟨mixedLanes_wf _ fb.wf, mixedLanes_within _ ?_ fb.within⟩ }
    unfold State.lanesLen State.mfLen at hb
    rwa [Nat.mul_comm]
  case openScrypt =>
    have hb := Check.pass_b hc.2.2.2.2.2.2.2.2.1
    obtain ⟨ts, e⟩ := effectiveSaltResults_eq (h := s.hmac) hs (Check.pass_n hc.1) (Check.pass_r hc.2.1)
      (Check.pass_p hc.2.2.1) (Check.pass_t hc.2.2.2.1) hb
    have fb : (fillResults s.hmac s).b.Fits s.cfg.bBytes := d.b.writeBytes (by rw [pbkdf2_length]; omega)
    unfold openScryptResults
    rw [e]
    refine { d with
      b := ⟨mixedLanes_wf _ fb.wf, mixedLanes_within _ ?_ fb.within⟩
      stream := Stream.reopen_sound _ ?_ ?_ (by decide) s.binding_built }
    · unfold State.lanesLen State.mfLen at hb
      rwa [Nat.mul_comm]
    · unfold State.keyBytes
      rw [Mem.readBytes_length]
      exact Check.pass_key hc.2.2.2.2.2.2.1
    · rw [Mem.readBytes_length]
      exact hb
  case openPbkdf2 =>
    refine { d with stream := Stream.reopen_sound _ ?_ ?_ (Check.pass_iter hc.1) s.binding_built }
    · unfold State.keyBytes
      rw [Mem.readBytes_length]
      exact Check.pass_key hc.2.1
    · unfold State.saltBytes
      rw [Mem.readBytes_length]
      have := Check.pass_salt hc.2.2
      have := ((Params.wf_iff _).mp hs.cfg).2.2.1.2.2
      show s.regs.saltLen.toNat ≤ s.cfg.bBytes
      omega
  case streamRead =>
    have h1 := Check.pass_rlen hc.2
    have h2 : s.readCountNext ≤ s.regs.readLen.toNat := Nat.min_le_left _ _
    have ho : (s.out.writeBytes 0 (s.stream.fetchMany s.hmac s.readCountNext s.stream.pos).1).Fits
        s.cfg.outBytes := d.out.writeBytes (by rw [Stream.fetchMany_length]; omega)
    have ht := streamRead_sound hs.stream (Check.pass_opened hc.1)
    exact ⟨d.cfg, d.key, d.salt, d.b, ho, d.units, d.hmacSel, ht⟩
  case streamSeekBegin =>
    exact { d with stream := seek_sound hs.stream (Check.pass_opened hc.1) (Check.pass_seek hc.2) }
  case streamSeekCurrent =>
    exact { d with stream := seek_sound hs.stream (Check.pass_opened hc.1) (Check.pass_seek hc.2) }
  case streamSeekEnd =>
    exact { d with stream := seek_sound hs.stream (Check.pass_opened hc.1) (Check.pass_seek hc.2) }
  case close => exact { d with stream := Stream.closed_sound _ }
  case zeroize =>
    exact { d with
      key := by simp only [zeroizeResults, closeResults, d.key.wipe_all]; exact Mem.Fits.nil _
      salt := by simp only [zeroizeResults, closeResults, d.salt.wipe_all]; exact Mem.Fits.nil _
      b := by simp only [zeroizeResults, closeResults, d.b.wipe_all]; exact Mem.Fits.nil _
      out := by simp only [zeroizeResults, closeResults, d.out.wipe_all]; exact Mem.Fits.nil _
      stream := Stream.closed_sound _ }

/-! ## The host's accesses -/

theorem lowBytes_length (n : Nat) (v : Word) : (lowBytes n v).length = n := by simp [lowBytes]

/-- A routed window access lies in the window's backed part (R45, R47). -/
theorem Params.route_window {c : Params} {addr : Word} {size : AccessSize} {w : Window} {off : Nat}
    (h : Params.route c addr size = some (.window w off)) : off + size.bytes ≤ w.capacity c := by
  unfold Params.route at h
  split at h
  · cases h
  · split at h
    · split at h <;> cases h
    · split at h
      · cases h
        assumption
      · cases h
    · cases h

/-- A host access keeps a state sound. -/
theorem State.access_sound {s : State} (hs : s.Sound) (hl : s.resetLine = false) (a : HostAccess) :
    (s.access a).Sound := by
  have held : ∀ {t : State}, t.resetLine = s.resetLine → t.resetLine = true → t.engine = .idle := by
    intro t h1 h2
    rw [h1, hl] at h2
    cases h2
  have keep : ∀ {t : State} (o : Bool) (x : Word), t.Sound → (t.respond o x).Sound := by
    intro t o x ht
    exact { ht with quiet := ⟨ht.quiet.claim, ht.quiet.seq, ht.quiet.pbk, ht.quiet.units⟩ }
  have dropped : s.setOverrun.Sound :=
    { hs with quiet := ⟨hs.quiet.claim, hs.quiet.seq, hs.quiet.pbk, hs.quiet.units⟩ }
  cases a with
  | read addr size =>
    unfold State.access
    dsimp only
    split
    · exact keep _ _ hs
    · exact keep _ _ hs
  | write addr size v =>
    unfold State.access
    dsimp only
    split
    · exact keep _ _ hs
    · rename_i t ht
      apply keep
      cases t with
      | unmapped => exact hs
      | window w off =>
        have hr := Params.route_window ht
        unfold State.writeValue
        dsimp only
        split
        · cases w
          · exact { hs with
              key := hs.key.writeBytes (by rw [lowBytes_length]; exact hr)
              quiet := ⟨hs.quiet.claim, hs.quiet.seq, hs.quiet.pbk, hs.quiet.units⟩ }
          · exact { hs with
              salt := hs.salt.writeBytes (by rw [lowBytes_length]; exact hr)
              quiet := ⟨hs.quiet.claim, hs.quiet.seq, hs.quiet.pbk, hs.quiet.units⟩ }
          · exact { hs with
              out := hs.out.writeBytes (by rw [lowBytes_length]; exact hr)
              quiet := ⟨hs.quiet.claim, hs.quiet.seq, hs.quiet.pbk, hs.quiet.units⟩ }
          · exact { hs with
              b := hs.b.writeBytes (by rw [lowBytes_length]; exact hr)
              quiet := ⟨hs.quiet.claim, hs.quiet.seq, hs.quiet.pbk, hs.quiet.units⟩ }
        · exact dropped
      | csr off =>
        unfold State.writeValue
        dsimp only
        split
        · rename_i c _
          have operand : ∀ g : OperandRegs, s.regs.write s.cfg v c = some g → (s.writeOperand g).Sound := by
            intro g hg
            unfold State.writeOperand
            split
            · refine { hs with
                hmacSel := ?_
                quiet := ⟨hs.quiet.claim, hs.quiet.seq, hs.quiet.pbk, hs.quiet.units⟩ }
              have h0 := hs.hmacSel
              cases c <;> simp only [OperandRegs.write, Option.some.injEq, reduceCtorEq] at hg <;> subst hg <;>
                first
                | exact h0
                | (intro hb
                   simp only [Bool.and_eq_true] at hb
                   exact hb.2)
            · exact dropped
          unfold State.writeCsr
          split
          · unfold State.writeCmd
            split
            · exact { hs with
                quiet := ⟨hs.quiet.claim, hs.quiet.seq, hs.quiet.pbk, hs.quiet.units⟩
                running := fun _ => ⟨rfl, rfl⟩
                held := held rfl }
            · exact dropped
          · refine { hs with
              quiet := ⟨hs.quiet.claim, hs.quiet.seq, hs.quiet.pbk, hs.quiet.units⟩
              running := fun hb => ?_ }
            have := hs.running hb
            simp [this.1, this.2]
          · exact { hs with quiet := ⟨hs.quiet.claim, hs.quiet.seq, hs.quiet.pbk, hs.quiet.units⟩ }
          · split
            · rename_i g hg
              exact operand g hg
            · exact hs
        · exact hs

end Sys2Proof.Machine
end

