-- ==== Sys2Proof/Tests/Slice0.lean ====
section
/-! SUPPORT. The model's own tests: the well-formedness checks, the words of the opcode map, vectors of
95_test_vectors.md, one or two small steps of each command, and a witness for the hypotheses of each statement. -/

namespace Sys2Proof.Tests

open Sys2Proof Sys2Proof.Machine

set_option Elab.async false

/-! ## Well-formedness: an ill-formed term for each check -/

theorem test_wf_fields_ok : CommandFields.wf ⟨0x0A, 2, 0⟩ = true := by decide
theorem test_wf_rsvd_refused : CommandFields.wf ⟨0x01, 0, 1⟩ = false := by decide
theorem test_wf_opc_refused : CommandFields.wf ⟨0x0F, 0, 0⟩ = false := by decide
theorem test_wf_origin_refused : CommandFields.wf ⟨0x0A, 3, 0⟩ = false := by decide
theorem test_wf_org_on_salsa_refused : CommandFields.wf ⟨0x01, 1, 0⟩ = false := by decide
theorem test_wf_access_ok : HostAccess.wf (.write 0 .one 0xFF) = true := by decide
theorem test_wf_access_data_refused : HostAccess.wf (.write 0 .one 0x100) = false := by decide
theorem test_wf_params_default : Params.default.wf = true := by decide
/-- R8's default of the parameter HMAC: HMAC-SHA256 and HMAC-SHA512. -/
theorem test_reset_hmac : State.reset.hmac = intendedHmac := rfl
theorem test_wf_params_refused :
    ({ Params.default with wHw := 0 } : Params).wf = false ∧ ({ Params.default with wHw := 256 } : Params).wf = false
      ∧ ({ Params.default with keyMax := 0 } : Params).wf = false
      ∧ ({ Params.default with saltMax := 65537, bBytes := 2 ^ 20 } : Params).wf = false
      ∧ ({ Params.default with saltMax := 1024, bBytes := 128 } : Params).wf = false
      ∧ ({ Params.default with bBytes := 65537 } : Params).wf = false
      ∧ ({ Params.default with outBytes := 65537 } : Params).wf = false
      ∧ ({ Params.default with vlaneBytes := 129 } : Params).wf = false
      ∧ ({ Params.default with engineBase := 2 } : Params).wf = false := by decide

/-! ## Decoding: the words of R69 and the illegal words of 95_test_vectors.md section 9 -/

theorem test_decode_nop : decode 0x00000000#32 = .ok .nop := by decide
theorem test_decode_salsa : decode 0x00000001#32 = .ok .salsa := by decide
theorem test_decode_blockmix : decode 0x00000002#32 = .ok .blockmix := by decide
theorem test_decode_smix : decode 0x00000003#32 = .ok .smix := by decide
theorem test_decode_mixAll : decode 0x00000004#32 = .ok .mixAll := by decide
theorem test_decode_pbkdf2Fill : decode 0x00000005#32 = .ok .pbkdf2Fill := by decide
theorem test_decode_effectiveSalt : decode 0x00000006#32 = .ok .effectiveSalt := by decide
theorem test_decode_openScrypt : decode 0x00000007#32 = .ok .openScrypt := by decide
theorem test_decode_openPbkdf2 : decode 0x00000008#32 = .ok .openPbkdf2 := by decide
theorem test_decode_streamRead : decode 0x00000009#32 = .ok .streamRead := by decide
theorem test_decode_streamSeekBegin : decode 0x0000000A#32 = .ok .streamSeekBegin := by decide
theorem test_decode_streamSeekCurrent : decode 0x0000010A#32 = .ok .streamSeekCurrent := by decide
theorem test_decode_streamSeekEnd : decode 0x0000020A#32 = .ok .streamSeekEnd := by decide
theorem test_decode_streamWrite : decode 0x0000000B#32 = .ok .streamWrite := by decide
theorem test_decode_streamSetlen : decode 0x0000000C#32 = .ok .streamSetlen := by decide
theorem test_decode_close : decode 0x0000000D#32 = .ok .close := by decide
theorem test_decode_zeroize : decode 0x0000000E#32 = .ok .zeroize := by decide
theorem test_decode_illegal :
    decode 0x00000101#32 = .error .originOnNonSeek ∧ decode 0x00000401#32 = .error .reservedBits
      ∧ decode 0x80000000#32 = .error .reservedBits ∧ decode 0x0000000F#32 = .error .opcodeOutOfRange
      ∧ decode 0x000000FF#32 = .error .opcodeOutOfRange ∧ decode 0x0000030A#32 = .error .reservedOrigin := by decide
theorem test_decode_table_word :
    decodeTableWord 32 0x20A = some .streamSeekEnd ∧ decodeTableWord 32 0x30A = none
      ∧ decodeTableWord 32 0x80000000 = none := by decide

/-! ## Vectors of the pure functions -/

/-- V-SALSA-1's input bytes (95_test_vectors.md section 2). -/
def salsaIn : Bytes :=
  [0x7E, 0x87, 0x9A, 0x21, 0x4F, 0x3E, 0xC9, 0x86, 0x7C, 0xA9, 0x40, 0xE6, 0x41, 0x71, 0x8F, 0x26,
    0xBA, 0xEE, 0x55, 0x5B, 0x8C, 0x61, 0xC1, 0xB5, 0x0D, 0xF8, 0x46, 0x11, 0x6D, 0xCD, 0x3B, 0x1D,
    0xEE, 0x24, 0xF3, 0x19, 0xDF, 0x9B, 0x3D, 0x85, 0x14, 0x12, 0x1E, 0x4B, 0x5A, 0xC5, 0xAA, 0x32,
    0x76, 0x02, 0x1D, 0x29, 0x09, 0xC7, 0x48, 0x29, 0xED, 0xEB, 0xC6, 0x8D, 0xB8, 0xB8, 0xC2, 0x5E]

/-- V-SALSA-1's output bytes. -/
def salsaOut : Bytes :=
  [0xA4, 0x1F, 0x85, 0x9C, 0x66, 0x08, 0xCC, 0x99, 0x3B, 0x81, 0xCA, 0xCB, 0x02, 0x0C, 0xEF, 0x05,
    0x04, 0x4B, 0x21, 0x81, 0xA2, 0xFD, 0x33, 0x7D, 0xFD, 0x7B, 0x1C, 0x63, 0x96, 0x68, 0x2F, 0x29,
    0xB4, 0x39, 0x31, 0x68, 0xE3, 0xC9, 0xE6, 0xBC, 0xFE, 0x6B, 0xC5, 0xB7, 0xA0, 0x6D, 0x96, 0xBA,
    0xE4, 0x24, 0xCC, 0x10, 0x2C, 0x91, 0x74, 0x5C, 0x24, 0xAD, 0x67, 0x3D, 0xC7, 0x61, 0x8F, 0x81]

/-- V-BLOCKMIX-1's input bytes (section 3). -/
def mixIn : Bytes :=
  [0xF7, 0xCE, 0x0B, 0x65, 0x3D, 0x2D, 0x72, 0xA4, 0x10, 0x8C, 0xF5, 0xAB, 0xE9, 0x12, 0xFF, 0xDD,
    0x77, 0x76, 0x16, 0xDB, 0xBB, 0x27, 0xA7, 0x0E, 0x82, 0x04, 0xF3, 0xAE, 0x2D, 0x0F, 0x6F, 0xAD,
    0x89, 0xF6, 0x8F, 0x48, 0x11, 0xD1, 0xE8, 0x7B, 0xCC, 0x3B, 0xD7, 0x40, 0x0A, 0x9F, 0xFD, 0x29,
    0x09, 0x4F, 0x01, 0x84, 0x63, 0x95, 0x74, 0xF3, 0x9A, 0xE5, 0xA1, 0x31, 0x52, 0x17, 0xBC, 0xD7]
    ++ [0x89, 0x49, 0x91, 0x44, 0x72, 0x13, 0xBB, 0x22, 0x6C, 0x25, 0xB5, 0x4D, 0xA8, 0x63, 0x70, 0xFB,
    0xCD, 0x98, 0x43, 0x80, 0x37, 0x46, 0x66, 0xBB, 0x8F, 0xFC, 0xB5, 0xBF, 0x40, 0xC2, 0x54, 0xB0,
    0x67, 0xD2, 0x7C, 0x51, 0xCE, 0x4A, 0xD5, 0xFE, 0xD8, 0x29, 0xC9, 0x0B, 0x50, 0x5A, 0x57, 0x1B,
    0x7F, 0x4D, 0x1C, 0xAD, 0x6A, 0x52, 0x3C, 0xDA, 0x77, 0x0E, 0x67, 0xBC, 0xEA, 0xAF, 0x7E, 0x89]

/-- The second block of V-BLOCKMIX-1's output; the first is V-SALSA-1's output. -/
def mixOutHigh : Bytes :=
  [0x20, 0xED, 0xC9, 0x75, 0x32, 0x38, 0x81, 0xA8, 0x05, 0x40, 0xF6, 0x4C, 0x16, 0x2D, 0xCD, 0x3C,
    0x21, 0x07, 0x7C, 0xFE, 0x5F, 0x8D, 0x5F, 0xE2, 0xB1, 0xA4, 0x16, 0x8F, 0x95, 0x36, 0x78, 0xB7,
    0x7D, 0x3B, 0x3D, 0x80, 0x3B, 0x60, 0xE4, 0xAB, 0x92, 0x09, 0x96, 0xE5, 0x9B, 0x4D, 0x53, 0xB6,
    0x5D, 0x2A, 0x22, 0x58, 0x77, 0xD5, 0xED, 0xF5, 0x84, 0x2C, 0xB9, 0xF1, 0x4E, 0xEF, 0xE4, 0x25]

/-- V-SMIX-2's output words, for N = 1 (section 4). -/
def smixOutOne : List Word :=
  [0xE8DF97D2, 0x5057D8B9, 0xED880333, 0xB7200315, 0xDFFBBD4C, 0x0D285E87, 0xB86E9659, 0xB3BC6A0D,
    0x79CEA64F, 0x7C54B2C5, 0xFA19ADC8, 0x257FC4F3, 0x65F16442, 0x7FAE538B, 0x159CEF09, 0x659B2095,
    0x7C3F8506, 0x63B0DB25, 0x85DB099C, 0xA1C63B30, 0x91D63C2A, 0x04DEC15A, 0x40E706E7, 0xBF6EEB06,
    0xE57F3F40, 0x000989EF, 0x507ADF02, 0x2BC488E5, 0x7264EC05, 0x0A08AD18, 0xD03707CB, 0xBA604106]

/-- V-SMIX-3's output words, for N = 2 (section 4). -/
def smixOutTwo : List Word :=
  [0xE783DBCF, 0xF9BCB86F, 0xC2638CC1, 0xA1DACF12, 0x53B5B26E, 0x59DD19EF, 0xB63FD32F, 0x62EBF715,
    0x547D72AC, 0xD27566F5, 0x9FD5BBD9, 0xF14AF794, 0x3D145345, 0x7A31C548, 0x7DB7C936, 0xD3F0D01D,
    0xDB502EDD, 0x7D66081E, 0xDBB8FE11, 0x1E805719, 0x1E6724B9, 0xA3647B97, 0xEB0D93E0, 0x412E4B34,
    0x97D18BA7, 0xD9527FAB, 0xCD3B8AA8, 0x9CBD83EB, 0xE2099A00, 0x17828A19, 0x4F647AE2, 0x9A19AF82]

/-- V-SALSA-6's words: one double round of 0 .. 15 (section 2). -/
def doubleRoundOut : List Word :=
  [0x5FF84399, 0xE8E8DC91, 0x7DD7BE10, 0x135421DB, 0x96C9D24F, 0xBDBF75D0, 0x1A88D53C, 0x87D3E112,
    0x8E085C1C, 0xE840980F, 0x10B5C561, 0x4A2EE5E8, 0x9F51F845, 0x1E245252, 0xC952FFA0, 0xD7F6853F]

/-- V-SALSA-5's words for n = 2 (section 2). -/
def twoRoundsOut : List Word :=
  [0x5FF84399, 0xE8E8DC92, 0x7DD7BE12, 0x135421DE, 0x96C9D253, 0xBDBF75D5, 0x1A88D542, 0x87D3E119,
    0x8E085C24, 0xE8409818, 0x10B5C56B, 0x4A2EE5F3, 0x9F51F851, 0x1E24525F, 0xC952FFAE, 0xD7F6854E]

/-- V-PBKDF2-1's 32 bytes (section 7). -/
def pbkdf2Out : Bytes :=
  [0x12, 0x0F, 0xB6, 0xCF, 0xFC, 0xF8, 0xB3, 0x2C, 0x43, 0xE7, 0x22, 0x52, 0x56, 0xC4, 0xF8, 0x37,
    0xA8, 0x65, 0x48, 0xC9, 0x2C, 0xCC, 0x35, 0x48, 0x08, 0x05, 0x98, 0x7C, 0xB7, 0x0B, 0xE1, 0x7B]

/-- V-PBKDF2-6's 64 bytes (section 7). -/
def pbkdf2Sha512Out : Bytes :=
  [0x86, 0x7F, 0x70, 0xCF, 0x1A, 0xDE, 0x02, 0xCF, 0xF3, 0x75, 0x25, 0x99, 0xA3, 0xA5, 0x3D, 0xC4,
    0xAF, 0x34, 0xC7, 0xA6, 0x69, 0x81, 0x5A, 0xE5, 0xD5, 0x13, 0x55, 0x4E, 0x1C, 0x8C, 0xF2, 0x52,
    0xC0, 0x2D, 0x47, 0x0A, 0x28, 0x5A, 0x05, 0x01, 0xBA, 0xD9, 0x99, 0xBF, 0xE9, 0x43, 0xC0, 0x8F,
    0x05, 0x02, 0x35, 0xD7, 0xD6, 0x8B, 0x1D, 0xA5, 0x5E, 0x63, 0xF7, 0x3B, 0x60, 0xA5, 0x7F, 0xCE]

/-- "password" and "salt" as bytes. -/
def password : Bytes := [0x70, 0x61, 0x73, 0x73, 0x77, 0x6F, 0x72, 0x64]

/-- "salt" as bytes. -/
def saltText : Bytes := [0x73, 0x61, 0x6C, 0x74]

/-- The block of words 0 .. 15. -/
def counting : Block := Vector.ofFn fun i => BitVec.ofNat 32 i.val

/-- V-SALSA-8: the primitives. -/
theorem test_primitives :
    rotl32 0x80000001 7 = 0x000000C0 ∧ rotl32 0x12345678 18 = 0x59E048D1 ∧ rotl32 0xFFFFFFFF 13 = 0xFFFFFFFF
      ∧ add32 0xFFFFFFFF 1 = 0 ∧ (arx 4 0 12 7 (zeroBlock.set 0 1))[4] = 0x00000080 := by decide +kernel

/-- V-SALSA-6: one double round. -/
theorem test_double_round : (doubleRound counting).toList = doubleRoundOut := by decide +kernel

/-- V-SALSA-5, n = 2: the feed-forward. -/
theorem test_core_two_rounds : (salsaCore 2 counting).toList = twoRoundsOut := by decide +kernel

/-- V-SALSA-1: the core with 8 rounds, bytes in and out. -/
theorem test_core_vector : blockBytes [salsaCore 8 (blockAt (leWords salsaIn) 0)] = salsaOut := by decide +kernel

/-- V-SMIX-3, N = 2: the table, the index and the mixing turn. -/
theorem test_smix_two : wordsOf (smix 2 (blocksOf (leWords mixIn))) = smixOutTwo := by decide +kernel

/-- V-PBKDF2-1, on the intended HMAC-SHA256 (R105). -/
theorem test_pbkdf2_sha256 : pbkdf2 intendedHmac .sha256 password saltText 1 32 = pbkdf2Out := by decide +kernel

/-- V-PBKDF2-8: stream bytes 32 .. 35, in block 2. -/
theorem test_stream_bytes :
    (Stream.fetchMany intendedHmac 4 32 (Stream.closed.reopen password saltText 1 .sha256)).1
      = [0x4D, 0xBF, 0x3A, 0x2F] := by decide +kernel

/-- V-PBKDF2-6, on the intended HMAC-SHA512. -/
theorem test_pbkdf2_sha512 : pbkdf2 intendedHmac .sha512 password saltText 1 64 = pbkdf2Sha512Out := by
  decide +kernel

/-! ## A small engine -/

/-- Small parameters, all legal. -/
def tiny : Params where
  wHw := 2
  keyMax := 64
  saltMax := 64
  bBytes := 256
  outBytes := 64
  vlaneBytes := 256
  hasSha512 := true
  hmac := .standard
  engineBase := 0

/-- Operands on which every command's checks but the stream's pass: N = 2, R = 1, P = 2. -/
def operands : OperandRegs where
  n := 2
  r := 1
  p := 2
  maxThreads := 2
  rounds := 2
  hmacSel := false
  iter := 1
  keyLen := 8
  saltLen := 4
  lane := 1
  readLen := 4
  seekOffLo := 30
  seekOffHi := 0

/-- The small engine after reset, with the given operand registers, stream and control state. -/
def machine (g : OperandRegs) (t : Stream) (e : EngineState) : State :=
  { State.resetWith tiny with regs := g, stream := t, engine := e }

/-- A stream opened on "password" and "salt". -/
def openStream : Stream := Stream.closed.reopen password saltText 1 .sha256

theorem openStream_sound : openStream.Sound tiny :=
  Stream.reopen_sound _ (by decide) (by decide) (by decide) (by decide)

/-- The small engine is sound. -/
theorem machine_sound (g : OperandRegs) (t : Stream) (e : EngineState) (hg : g.hmacSel = false)
    (ht : t.Sound tiny) : (machine g t e).Sound where
  cfg := by
    show tiny.wf = true
    decide
  key := Mem.Fits.nil _
  salt := Mem.Fits.nil _
  b := Mem.Fits.nil _
  out := Mem.Fits.nil _
  units := rfl
  quiet := ⟨rfl, rfl, rfl, fun u hu => (List.mem_replicate.mp hu).2⟩
  hmacSel := fun h => by
    have h' : g.hmacSel = true := h
    rw [hg] at h'
    cases h'
  stream := ht
  running := fun _ => ⟨rfl, rfl⟩
  errCode := by
    show (0 : Byte).toNat ≤ 5
    decide
  held := fun h => by cases h

theorem closed_machine_sound (g : OperandRegs) (e : EngineState) (hg : g.hmacSel = false) :
    (machine g Stream.closed e).Sound := machine_sound g _ e hg (Stream.closed_sound tiny)

theorem open_machine_sound (g : OperandRegs) (e : EngineState) (hg : g.hmacSel = false) :
    (machine g openStream e).Sound := machine_sound g _ e hg openStream_sound

/-- The small engine IDLE, the stream closed. -/
def idle : State := machine operands Stream.closed .idle

/-- The small engine IDLE, the stream open. -/
def opened : State := machine operands openStream .idle

/-- The state a command answers; the state itself where it stops. -/
def after (i : Instr) (s : State) : State :=
  match exec i s with
  | .next t => t
  | .fault _ => s
  | .refused _ => s

/-! ## One step of each command -/

theorem test_nop : (after .nop idle).statusWord = 0x02 ∧ (after .nop idle).errCodeWord = 0 := by decide +kernel

/-- Program P1 on the small engine: V-SALSA-1 through B. -/
theorem test_salsa :
    (after .salsa { machine { operands with rounds := 8 } Stream.closed .idle with b := Mem.ofBytes salsaIn }).b
      = Mem.ofBytes salsaOut := by decide +kernel

/-- V-SALSA-9: an odd round count. -/
theorem test_salsa_rounds : (after .salsa (machine { operands with rounds := 7 } Stream.closed .idle)).errCodeWord
    = 0x0101 := by decide +kernel

/-- V-BLOCKMIX-1 through B; the bytes above are kept. -/
theorem test_blockmix :
    (after .blockmix { idle with b := Mem.ofBytes (mixIn ++ [0x55]) }).b
      = Mem.ofBytes (salsaOut ++ mixOutHigh ++ [0x55]) := by decide +kernel

/-- V-BLOCKMIX-4, R = 0 and R too large for B. -/
theorem test_blockmix_errors :
    (after .blockmix (machine { operands with r := 0 } Stream.closed .idle)).errCodeWord = 0x0201
      ∧ (after .blockmix (machine { operands with r := 3 } Stream.closed .idle)).errCodeWord = 0x0202 := by
  decide +kernel

/-- V-SMIX-2 on lane 1; lane 0 is kept. -/
theorem test_smix :
    (after .smix { machine { operands with n := 1 } Stream.closed .idle with
      b := Mem.ofBytes (zeros 128 ++ mixIn) }).b = Mem.ofBytes (zeros 128 ++ leBytes smixOutOne) := by
  decide +kernel

/-- V-SMIX-4: LANE = P fails. -/
theorem test_smix_lane : (after .smix (machine { operands with lane := 2 } Stream.closed .idle)).errCodeWord
    = 0x0301 := by decide +kernel

/-- V-MIXALL-1's shape with N = 1: both lanes are mixed, under an order of turns that starts with unit 1. -/
theorem test_mixAll :
    (after .mixAll { machine { operands with n := 1 } Stream.closed .idle with
      b := Mem.ofBytes (mixIn ++ mixIn), workerTurns := [1, 0, 0, 1] }).b
      = Mem.ofBytes (leBytes smixOutOne ++ leBytes smixOutOne) := by decide +kernel

/-- V-MIXALL-2: N = R = P = 2^31 fails check MEM. -/
theorem test_mixAll_mem :
    (after .mixAll (machine { operands with n := 0x80000000, r := 0x80000000, p := 0x80000000 }
      Stream.closed .idle)).errCodeWord = 0x0401 := by decide +kernel

/-- V-FILL-1: one lane of B from the empty password and salt, which is V-BLOCKMIX-1's input. -/
theorem test_fill :
    (after .pbkdf2Fill (machine { operands with keyLen := 0, saltLen := 0, p := 1 } Stream.closed .idle)).b
      = Mem.ofBytes mixIn := by decide +kernel

/-- PBKDF2_FILL with R = 0. -/
theorem test_fill_error : (after .pbkdf2Fill (machine { operands with r := 0 } Stream.closed .idle)).errCodeWord
    = 0x0501 := by decide +kernel

/-- V-ESALT-3: the first failing check, N, decides; a table too large for V_w. -/
theorem test_effectiveSalt_errors :
    (after .effectiveSalt (machine { operands with n := 3, r := 0, p := 0, maxThreads := 0 } Stream.closed
        .idle)).errCodeWord = 0x0601
      ∧ (after .effectiveSalt (machine { operands with n := 4 } Stream.closed .idle)).errCodeWord = 0x0602 := by
  decide +kernel

/-- V-FILL-1 and V-SMIX-2: OPEN_SCRYPT on the empty password and salt, N = R = P = 1, leaves SMix of V-FILL-1's lane
as the stream's salt. -/
theorem test_openScrypt :
    (after .openScrypt (machine { operands with n := 1, p := 1, keyLen := 0, saltLen := 0 } Stream.closed
      .idle)).stream.saltBytes = leBytes smixOutOne := by decide +kernel

/-- Program P4: N = 3 fails OPEN_SCRYPT, and the stream stays closed. -/
theorem test_openScrypt_error :
    (after .openScrypt (machine { operands with n := 3 } Stream.closed .idle)).errCodeWord = 0x0701
      ∧ (after .openScrypt (machine { operands with n := 3 } Stream.closed .idle)).statusWord = 0x06 := by
  decide +kernel

/-- Program P3: OPEN_PBKDF2 gives STREAM_OPEN, POS 0, SLEN 0x1F_FFFF_FFE0 and copies of the key. -/
theorem test_openPbkdf2 :
    (after .openPbkdf2 { idle with key := Mem.ofBytes password }).statusWord = 0x12
      ∧ (after .openPbkdf2 idle).streamLen = 0x1FFFFFFFE0
      ∧ (after .openPbkdf2 { idle with key := Mem.ofBytes password }).stream.keyBytes = password := by decide +kernel

/-- V-STREAM-4: ITER = 0 fails, and an open stream is kept. -/
theorem test_openPbkdf2_error :
    (after .openPbkdf2 (machine { operands with iter := 0 } openStream .idle)).errCodeWord = 0x0801
      ∧ (after .openPbkdf2 (machine { operands with iter := 0 } openStream .idle)).stream = openStream := by
  decide +kernel

/-- Program P3: a read of 4 at position 30 crosses from block 1 to block 2. -/
theorem test_streamRead :
    (after .streamRead { opened with stream := { openStream with pos := 30 } }).out
        = Mem.ofBytes [0xE1, 0x7B, 0x4D, 0xBF]
      ∧ (after .streamRead { opened with stream := { openStream with pos := 30 } }).stream.pos = 34 := by
  decide +kernel

/-- A read past the end delivers nothing and succeeds; a read of a closed stream fails. -/
theorem test_streamRead_ends :
    (after .streamRead { opened with stream := { openStream with pos := 0x1FFFFFFFE0 } }).errCodeWord = 0x0900
      ∧ (after .streamRead { opened with stream := { openStream with pos := 0x1FFFFFFFE0 } }).readCount = 0
      ∧ (after .streamRead idle).errCodeWord = 0x0905 := by decide +kernel

/-- Program P3: SEEK BEGIN 30. -/
theorem test_seek_begin : (after .streamSeekBegin opened).stream.pos = 30
    ∧ (after .streamSeekBegin opened).errCodeWord = 0x0A00 := by decide +kernel

/-- V-STREAM-3: from 2^63 - 1 a step of +1 fails and POS is kept. -/
theorem test_seek_current :
    (after .streamSeekCurrent { machine { operands with seekOffLo := 1 } openStream .idle with
        stream := { openStream with pos := 2 ^ 63 - 1 } }).errCodeWord = 0x0A01
      ∧ (after .streamSeekCurrent { machine { operands with seekOffLo := 1 } openStream .idle with
        stream := { openStream with pos := 2 ^ 63 - 1 } }).stream.pos = 2 ^ 63 - 1 := by decide +kernel

/-- Program P3: SEEK END -5. -/
theorem test_seek_end :
    (after .streamSeekEnd (machine { operands with seekOffLo := 0xFFFFFFFB, seekOffHi := 0xFFFFFFFF } openStream
      .idle)).stream.pos = 0x1FFFFFFFDB := by decide +kernel

/-- V-STREAM-5. -/
theorem test_streamWrite : (after .streamWrite opened).errCodeWord = 0x0B03
    ∧ (after .streamWrite opened).statusWord = 0x16 := by decide +kernel

/-- V-STREAM-5. -/
theorem test_streamSetlen : (after .streamSetlen opened).errCodeWord = 0x0C03
    ∧ (after .streamSetlen opened).stream = openStream := by decide +kernel

/-- R118: CLOSE of an open stream. -/
theorem test_close : (after .close opened).errCodeWord = 0x0D00 ∧ (after .close opened).streamLen = 0
    ∧ (after .close opened).stream.skey = [] := by decide +kernel

/-- Program P7: ZEROIZE clears the windows and closes the stream; the registers stay. -/
theorem test_zeroize :
    (after .zeroize { opened with key := Mem.ofBytes password, b := Mem.ofBytes salsaIn }).statusWord = 0x02
      ∧ (after .zeroize { opened with key := Mem.ofBytes password, b := Mem.ofBytes salsaIn }).key = []
      ∧ (after .zeroize { opened with b := Mem.ofBytes salsaIn }).b = []
      ∧ (after .zeroize opened).regs = operands := by decide +kernel

/-! ## Host accesses, from the table of 95_test_vectors.md section 9, after reset with the default parameters -/

theorem test_read_id : (State.reset.access (.read 0x0 .four)).resp = some ⟨true, 0x53435259⟩ := by decide +kernel
theorem test_read_caps : (State.reset.access (.read 0x4 .four)).resp = some ⟨true, 0x0104⟩ := by decide +kernel
theorem test_read_rounds : (State.reset.access (.read 0x40 .four)).resp = some ⟨true, 8⟩ := by decide +kernel
theorem test_read_reserved : (State.reset.access (.read 0x7C .four)).resp = some ⟨true, 0⟩ := by decide +kernel
theorem test_read_wrong_size : (State.reset.access (.read 0x24 .one)).resp = some ⟨false, 0⟩ := by decide +kernel
theorem test_write_b : ((State.reset.access (.write 0x100000 .four 0x04030201)).access (.read 0x100001 .one)).resp
    = some ⟨true, 0x02⟩ ∧ (State.reset.access (.write 0x100000 .four 0x04030201)).b = Mem.ofBytes [1, 2, 3, 4] := by
  decide +kernel
theorem test_read_b_half : ((State.reset.access (.write 0x100000 .four 0x04030201)).access (.read 0x100002 .two)).resp
    = some ⟨true, 0x0403⟩ := by decide +kernel
theorem test_read_errors : (State.reset.access (.read 0x100002 .four)).resp = some ⟨false, 0⟩
    ∧ (State.reset.access (.read 0x10400 .one)).resp = some ⟨false, 0⟩
    ∧ (State.reset.access (.read 0x200000 .four)).resp = some ⟨false, 0⟩ := by decide +kernel
theorem test_hmacSel_readback :
    ((State.reset.access (.write 0x44 .four 0xFFFFFFFF)).access (.read 0x44 .four)).resp = some ⟨true, 1⟩ := by
  decide +kernel
theorem test_rounds_readback :
    ((State.reset.access (.write 0x40 .four 0x0107)).access (.read 0x40 .four)).resp = some ⟨true, 7⟩ := by
  decide +kernel

/-- Program P6, case A: while RUNNING a window reads 0 and a register write is dropped with OVERRUN. -/
theorem test_running_access :
    ((State.reset.accept 1).access (.read 0x100000 .four)).resp = some ⟨true, 0⟩
      ∧ ((State.reset.accept 1).access (.write 0x40 .four 2)).statusWord = 0x09
      ∧ ((State.reset.accept 1).access (.write 0x40 .four 2)).regs.rounds = 8 := by decide +kernel

/-- A word accepted and run in one step from reset, as the host's question has it. -/
theorem test_step_runs_word :
    (match step (State.reset.withFetchWord 32 0x1) with
      | .next t => t.errCodeWord == 0x0100 && t.statusWord == 0x02
      | _ => false) = true := by decide +kernel

/-- An access while reset is asserted is refused; the release makes the engine answer again. -/
theorem test_reset_access :
    step { State.reset with resetLine := true, inputs := [.access (.read 0 .four)] } = .refused .accessDuringReset
      ∧ (match step { State.reset with resetLine := true, inputs := [.resetRelease] } with
        | .next t => t == State.reset
        | _ => false) = true := ⟨rfl, by decide +kernel⟩

/-! ## Witnesses: for each statement with hypotheses, states and operands that meet them -/

theorem witness_StepRunsDecodedCommand :
    (machine operands Stream.closed (.running 1)).engine = .running 1 ∧ decode 1#32 = .ok .salsa
      ∧ (machine operands Stream.closed (.running 1)).inputs = []
      ∧ ({ machine operands Stream.closed (.running 1) with inputs := [.engineTurn, .resetAssert] } : State).inputs
        = .engineTurn :: [.resetAssert] := by decide

theorem witness_IllegalWordCompletes :
    (machine operands Stream.closed (.running 0x30A)).Sound
      ∧ (machine operands Stream.closed (.running 0x30A)).engine = .running 0x30A
      ∧ decode 0x30A#32 = .error .reservedOrigin :=
  ⟨closed_machine_sound _ _ rfl, rfl, by decide⟩

theorem witness_StepTakesOneEvent :
    ({ idle with inputs := [.access (.read 0 .four)] } : State).inputs = .access (.read 0 .four) :: []
      ∧ idle.resetLine = false ∧ ({ idle with resetLine := true } : State).resetLine = true
      ∧ idle.inputs = [] ∧ idle.engine = .idle := by decide

theorem witness_ResetStepClearsEverything :
    ({ machine operands openStream (.running 1) with inputs := [.resetAssert, .engineTurn] } : State).inputs
      = .resetAssert :: [.engineTurn] := by decide

theorem witness_ResetValues :
    Params.default.wf = true ∧ (7 < 1024 ∧ 7 ∉ [0, 1, 2, 3, 4, 5, 6, 16])
      ∧ (1023 < 1024 ∧ 1023 ∉ [0, 1, 2, 3, 4, 5, 6, 16]) := by decide

theorem witness_ResetIsSound : Params.default.wf = true ∧ tiny.wf = true := by decide

theorem witness_StepKeepsSound :
    (machine operands Stream.closed (.running 0)).Sound
      ∧ ∃ t, step (machine operands Stream.closed (.running 0)) = .next t :=
  ⟨closed_machine_sound _ _ rfl, _, rfl⟩

theorem witness_StepKeepsParameters : ∃ t, step { idle with inputs := [.resetAssert] } = .next t := ⟨_, rfl⟩

theorem witness_AcceptanceOfACommand :
    idle.cfg.wf = true ∧ idle.engine = .idle ∧ decode 0xFF#32 = .error .opcodeOutOfRange
      ∧ (machine operands Stream.closed (.running 0xFF)).engine = .running 0xFF := by decide

theorem witness_ErrorsArePrecise :
    idle.Sound ∧ ∃ t, exec .streamRead idle = .next t ∧ t.err = true :=
  ⟨closed_machine_sound _ _ rfl, _, rfl, rfl⟩

theorem witness_FirstFailingCheckDecides :
    (machine operands Stream.closed (.running 0x0B)).engine = .running 0x0B
      ∧ expectedCode (machine operands Stream.closed (.running 0x30A)) 0x30A = .illegalCommand
      ∧ expectedCode (machine operands Stream.closed (.running 0x0B)) 0x0B = .unsupportedOperation
      ∧ expectedCode (machine operands Stream.closed (.running 0x09)) 0x09 = .streamClosed
      ∧ expectedCode (machine { operands with r := 0, n := 3 } Stream.closed (.running 0x04)) 0x04
        = .invalidParameter
      ∧ expectedCode (machine { operands with p := 3 } Stream.closed (.running 0x04)) 0x04 = .resourceExhausted
      ∧ expectedCode (machine operands Stream.closed (.running 0x04)) 0x04 = .none := by decide +kernel

/-- The boundary values of the checks of R133 and R134: the last value that passes and the first that fails. -/
theorem witness_CheckConditions :
    idle.Sound
      ∧ ([(1 : Word), 2, 0x80000000].all fun v =>
          !Check.n.fails (machine { operands with n := v } Stream.closed .idle)) = true
      ∧ ([(0 : Word), 3, 0xFFFFFFFF].all fun v =>
          Check.n.fails (machine { operands with n := v } Stream.closed .idle)) = true
      ∧ Check.key.fails (machine { operands with keyLen := 64 } Stream.closed .idle) = false
      ∧ Check.key.fails (machine { operands with keyLen := 65 } Stream.closed .idle) = true
      ∧ Check.lane.fails (machine { operands with lane := 1 } Stream.closed .idle) = false
      ∧ Check.lane.fails (machine { operands with lane := 2 } Stream.closed .idle) = true
      ∧ Check.rlen.fails (machine { operands with readLen := 64 } Stream.closed .idle) = false
      ∧ Check.rlen.fails (machine { operands with readLen := 65 } Stream.closed .idle) = true
      ∧ Check.b.fails (machine { operands with p := 2 } Stream.closed .idle) = false
      ∧ Check.b.fails (machine { operands with p := 3 } Stream.closed .idle) = true
      ∧ Check.v.fails (machine { operands with n := 2 } Stream.closed .idle) = false
      ∧ Check.v.fails (machine { operands with n := 4 } Stream.closed .idle) = true :=
  ⟨closed_machine_sound _ _ rfl, by decide +kernel⟩

theorem witness_NopOnlyCompletes :
    idle.Sound ∧ (machine operands Stream.closed (.running 1)).Sound
      ∧ (machine operands Stream.closed (.running 1)).engine = .running 1 :=
  ⟨closed_machine_sound _ _ rfl, closed_machine_sound _ _ rfl, rfl⟩

/-- SALSA: the boundary round counts. -/
theorem witness_SalsaCommand :
    (∀ v : Byte, (machine { operands with rounds := v } Stream.closed .idle).Sound)
      ∧ ([(2 : Byte), 20].all fun v =>
          firstFailing (machine { operands with rounds := v } Stream.closed .idle) [.rounds] == none) = true
      ∧ ([(0 : Byte), 1, 19, 21, 22, 255].all fun v =>
          firstFailing (machine { operands with rounds := v } Stream.closed .idle) [.rounds] == some .rounds) = true :=
  ⟨fun _ => closed_machine_sound _ _ rfl, by decide +kernel, by decide +kernel⟩

theorem witness_BlockmixCommand :
    (∀ v : Word, (machine { operands with r := v } Stream.closed .idle).Sound)
      ∧ firstFailing (machine { operands with r := 2 } Stream.closed .idle) [.r, .b1] = none
      ∧ firstFailing (machine { operands with r := 0 } Stream.closed .idle) [.r, .b1] = some .r
      ∧ firstFailing (machine { operands with r := 3 } Stream.closed .idle) [.r, .b1] = some .b1 :=
  ⟨fun _ => closed_machine_sound _ _ rfl, by decide +kernel, by decide +kernel, by decide +kernel⟩

theorem witness_SmixCommand :
    (∀ v : Word, (machine { operands with lane := v } Stream.closed .idle).Sound)
      ∧ firstFailing idle (checkRow .smix) = none
      ∧ firstFailing (machine { operands with lane := 2 } Stream.closed .idle) (checkRow .smix) = some .lane :=
  ⟨fun _ => closed_machine_sound _ _ rfl, by decide +kernel, by decide +kernel⟩

theorem witness_MixAllCommand :
    (∀ v : Word, (machine { operands with n := v } Stream.closed .idle).Sound)
      ∧ firstFailing idle (checkRow .mixAll) = none
      ∧ firstFailing (machine { operands with n := 4 } Stream.closed .idle) (checkRow .mixAll) = some .v :=
  ⟨fun _ => closed_machine_sound _ _ rfl, by decide +kernel, by decide +kernel⟩

theorem witness_Pbkdf2FillCommand :
    (∀ v : Word, (machine { operands with keyLen := v } Stream.closed .idle).Sound)
      ∧ firstFailing idle (checkRow .pbkdf2Fill) = none
      ∧ firstFailing (machine { operands with keyLen := 65 } Stream.closed .idle) (checkRow .pbkdf2Fill)
        = some .key :=
  ⟨fun _ => closed_machine_sound _ _ rfl, by decide +kernel, by decide +kernel⟩

theorem witness_EffectiveSaltCommand :
    (∀ v : Word, (machine { operands with saltLen := v } Stream.closed .idle).Sound)
      ∧ firstFailing idle (checkRow .effectiveSalt) = none
      ∧ firstFailing (machine { operands with saltLen := 65 } Stream.closed .idle) (checkRow .effectiveSalt)
        = some .salt :=
  ⟨fun _ => closed_machine_sound _ _ rfl, by decide +kernel, by decide +kernel⟩

theorem witness_OpenScryptCommand :
    (∀ v : Word, (machine { operands with maxThreads := v } openStream .idle).Sound)
      ∧ firstFailing opened (checkRow .openScrypt) = none
      ∧ firstFailing (machine { operands with maxThreads := 0 } openStream .idle) (checkRow .openScrypt)
        = some .t :=
  ⟨fun _ => open_machine_sound _ _ rfl, by decide +kernel, by decide +kernel⟩

theorem witness_OpenPbkdf2Command :
    (∀ v : Word, (machine { operands with iter := v } openStream .idle).Sound)
      ∧ firstFailing opened (checkRow .openPbkdf2) = none
      ∧ firstFailing (machine { operands with iter := 0 } openStream .idle) (checkRow .openPbkdf2) = some .iter :=
  ⟨fun _ => open_machine_sound _ _ rfl, by decide +kernel, by decide +kernel⟩

theorem witness_StreamReadCommand :
    opened.Sound ∧ idle.Sound ∧ (machine { operands with readLen := 65 } openStream .idle).Sound
      ∧ firstFailing opened (checkRow .streamRead) = none
      ∧ firstFailing (machine { operands with readLen := 64 } openStream .idle) (checkRow .streamRead) = none
      ∧ firstFailing idle (checkRow .streamRead) = some .opened
      ∧ firstFailing (machine { operands with readLen := 65 } openStream .idle) (checkRow .streamRead)
        = some .rlen :=
  ⟨open_machine_sound _ _ rfl, closed_machine_sound _ _ rfl, open_machine_sound _ _ rfl, by decide +kernel,
    by decide +kernel, by decide +kernel, by decide +kernel⟩

/-- STREAM_SEEK: targets 0, 2^63 - 1, 2^63 and -1 from BEGIN, and a closed stream. -/
theorem witness_StreamSeekCommands :
    (∀ lo hi : Word, (machine { operands with seekOffLo := lo, seekOffHi := hi } openStream .idle).Sound)
      ∧ idle.Sound ∧ idle.stream.isOpen = false ∧ opened.stream.isOpen = true
      ∧ (machine { operands with seekOffLo := 0 } openStream .idle).seekOffset = 0
      ∧ (machine { operands with seekOffLo := 0xFFFFFFFF, seekOffHi := 0x7FFFFFFF } openStream .idle).seekOffset
        = 2 ^ 63 - 1
      ∧ (machine { operands with seekOffLo := 0, seekOffHi := 0x80000000 } openStream .idle).seekOffset = -2 ^ 63
      ∧ (machine { operands with seekOffLo := 0xFFFFFFFF, seekOffHi := 0xFFFFFFFF } openStream .idle).seekOffset = -1 :=
  ⟨fun _ _ => open_machine_sound _ _ rfl, closed_machine_sound _ _ rfl, by decide, by decide, by decide +kernel,
    by decide +kernel, by decide +kernel, by decide +kernel⟩

theorem witness_StreamIsReadOnly : opened.Sound ∧ idle.Sound :=
  ⟨open_machine_sound _ _ rfl, closed_machine_sound _ _ rfl⟩

theorem witness_CloseCommand : opened.Sound ∧ idle.Sound ∧ idle.stream.isOpen = false :=
  ⟨open_machine_sound _ _ rfl, closed_machine_sound _ _ rfl, rfl⟩

theorem witness_ZeroizeCommand : opened.Sound := open_machine_sound _ _ rfl

theorem witness_MixingIsScheduleIndependent :
    idle.Sound ∧ (machine { operands with maxThreads := 1 } Stream.closed .idle).Sound
      ∧ firstFailing idle (checkRow .mixAll) = none
      ∧ firstFailing (machine { operands with maxThreads := 1 } Stream.closed .idle) (checkRow .mixAll) = none
      ∧ idle.b = (machine { operands with maxThreads := 1 } Stream.closed .idle).b
      ∧ idle.regs.n = 2 ∧ idle.regs.r = 1 ∧ idle.regs.p = 2 :=
  ⟨closed_machine_sound _ _ rfl, closed_machine_sound _ _ rfl, by decide +kernel, by decide +kernel, rfl, rfl, rfl,
    rfl⟩

/-- One unit in use and one above Weff. -/
theorem witness_MixingPhaseEnds :
    ∃ (j : MixJob) (us : List Worker) (q : Pool), j = ⟨1, 1, 0, 1⟩ ∧ us = [Worker.quiet, Worker.quiet]
      ∧ q = (Pool.run j [1, 0] { claim := 0, units := startUnits j.weff us, b := [] }).1
      ∧ (q.units.map fun u => u.wstate) = [.done, .idle] ∧ q.claim = 1 :=
  ⟨_, _, _, rfl, rfl, rfl, by decide +kernel, by decide +kernel⟩

theorem witness_ClaimStepFetchesAndIncrements :
    ∃ (j : MixJob) (q : Pool) (u : Worker), j = ⟨1, 1, 2, 2⟩ ∧ 1 < j.weff ∧ q.units[1]? = some u
      ∧ u.wstate = .claiming ∧ (q.turn j 1).claim = 1 :=
  ⟨⟨1, 1, 2, 2⟩, { claim := 0, units := startUnits 2 [Worker.quiet, Worker.quiet], b := [] },
    { Worker.quiet with wstate := .claiming }, rfl, by decide, by decide, rfl, by decide⟩

theorem witness_LaneScheduleComputesSMix :
    (1 : Word) ≠ 0 ∧ Worker.quiet.regs = MixRegs.zero ∧ Worker.quiet.v = []
      ∧ (Mem.readBlocks [] (0 * 128) 128).length = 2 := by decide +kernel

theorem witness_IntegerifyIsFirstWordOfLastBlock :
    (2 : Word).toNat = 2 ^ 1 ∧ [zeroBlock, counting].length = 2 * 1 ∧ smixIndex 2 [zeroBlock, counting.set 0 7] = 1 := by
  decide +kernel

theorem witness_BlockMixDeinterleaves : 1 ≤ 1 ∧ [zeroBlock, counting].length = 2 * 1 := by decide

theorem witness_RotationMovesBits :
    (1 ≤ 1 ∧ 1 ≤ 31 ∧ 0 < 32) ∧ (1 ≤ 31 ∧ 31 ≤ 31 ∧ 31 < 32) ∧ (rotl32 0x80000000 1).getLsbD 0 = true
      ∧ (rotl32 1 31).getLsbD 31 = true := by decide

/-- The first row of the column table and the last row of the row table. -/
theorem witness_RoundsAreTheirStepTables : (4, 0, 12, 7) ∈ columnSteps ++ rowSteps
    ∧ (15, 14, 13, 18) ∈ columnSteps ++ rowSteps := by decide

theorem witness_Pbkdf2BlockXorsItsIterations : 1 ≤ 1 ∧ 31 < Binding.sha256.hLen ∧ 63 < Binding.sha512.hLen := by decide

theorem witness_Pbkdf2IsThePrefixOfTheStream : 33 ≤ domainLen .sha256 ∧ 32 < 33 := by decide

theorem witness_ChunkedReadsAgree :
    opened.Sound ∧ opened.stream.isOpen = true ∧ (40 : Word).toNat + (24 : Word).toNat ≤ opened.cfg.outBytes :=
  ⟨open_machine_sound _ _ rfl, rfl, by decide⟩

theorem witness_ComputeKeyThroughTheEngine :
    idle.Sound ∧ firstFailing idle (checkRow .openScrypt) = none ∧ idle.regs.readLen.toNat ≤ idle.cfg.outBytes :=
  ⟨closed_machine_sound _ _ rfl, by decide +kernel, by decide⟩

theorem witness_StatusRegister : idle.cfg.wf = true := by decide

theorem witness_IdentificationRegisters : idle.cfg.wf = true ∧ (machine operands Stream.closed (.running 1)).cfg.wf = true := by
  decide

theorem witness_CtrlRegister : ({ idle with irqEn := true } : State).cfg.wf = true := by decide

/-- A register kept by a write to another: R reads 1 before and after a write to N. -/
theorem witness_OperandRegistersReadBack :
    idle.cfg.wf = true ∧ idle.engine = .idle ∧ 0x034 ≠ 0x030 ∧ ReadsAs idle (4 * 13) 1 :=
  ⟨by decide, rfl, by decide, by unfold ReadsAs; decide +kernel⟩

theorem witness_HmacSelRegister :
    idle.cfg.wf = true ∧ idle.engine = .idle ∧ Params.default.wf = true
      ∧ (State.resetWith { tiny with hasSha512 := false }).cfg.wf = true
      ∧ (State.resetWith { tiny with hasSha512 := false }).cfg.hasSha512 = false := by decide

theorem witness_ReservedCsrOffsets :
    idle.cfg.wf = true ∧ 4 * 7 = 0x01C ∧ 0x078 ≤ 4 * 30 ∧ 4 * 1023 ≤ 0xFFC ∧ AccessSize.one ≠ .four ∧ 0x026 % 4 ≠ 0 := by
  decide

/-- Each ground of R47: an offset between the windows, one beyond KEY's backed part, a misaligned one, a small
access to a register. -/
theorem witness_ErrorAccessesHaveNoEffect :
    idle.cfg.wf = true ∧ ¬ Backed idle.cfg 0x1000 ∧ ¬ Backed idle.cfg 0x10040 ∧ Backed idle.cfg 0x1003F
      ∧ (0x100002 : Word).toNat % AccessSize.four.bytes ≠ 0 ∧ 0x024 < 0x1000 ∧ AccessSize.two ≠ .four := by
  refine ⟨by decide, ?_, ?_, ?_, by decide, by decide, by decide⟩
  · rintro (h | ⟨w, h1, h2⟩)
    · omega
    · cases w <;> simp [Window.base] at h1 h2
  · rintro (h | ⟨w, h1, h2⟩)
    · omega
    · cases w <;> simp [Window.base, Window.capacity, idle, machine, State.resetWith, tiny] at h1 h2
  · exact .inr ⟨.key, by decide, by decide⟩

/-- The first and the last aligned offsets of a window. -/
theorem witness_WindowAccessesUseLittleEndianLanes :
    idle.cfg.wf = true ∧ idle.engine = .idle ∧ 0 % AccessSize.four.bytes = 0
      ∧ 0 + AccessSize.four.bytes ≤ Window.b.capacity idle.cfg ∧ 252 % AccessSize.four.bytes = 0
      ∧ 252 + AccessSize.four.bytes ≤ Window.b.capacity idle.cfg
      ∧ 63 + AccessSize.one.bytes ≤ Window.key.capacity idle.cfg := by decide

theorem witness_RunningReads :
    (machine operands Stream.closed (.running 1)).cfg.wf = true
      ∧ (machine operands Stream.closed (.running 1)).engine = .running 1
      ∧ 60 % AccessSize.four.bytes = 0 ∧ 60 + AccessSize.four.bytes ≤ Window.out.capacity tiny
      ∧ ReadsAs idle (4 * 12) 2 := by
  refine ⟨by decide, rfl, by decide, by decide, ?_⟩
  unfold ReadsAs
  decide +kernel

theorem witness_RunningWrites :
    (machine operands Stream.closed (.running 1)).cfg.wf = true
      ∧ (machine operands Stream.closed (.running 1)).engine = .running 1
      ∧ 62 % AccessSize.two.bytes = 0 ∧ 62 + AccessSize.two.bytes ≤ Window.salt.capacity tiny
      ∧ 4 * 7 ∉ [0x020, 0x024, 0x02C, 0x030, 0x034, 0x038, 0x03C, 0x040, 0x044, 0x048, 0x04C, 0x050, 0x054, 0x058,
        0x060, 0x064] := by decide

theorem witness_WordAndByteViewsAgree :
    idle.cfg.wf = true ∧ idle.engine = .idle ∧ 4 * 63 + 4 ≤ idle.cfg.bBytes ∧ 0 ≠ 63 ∧ 4 * 0 + 4 ≤ idle.cfg.bBytes := by
  decide

theorem witness_InterruptIsALevel :
    (∃ t, exec .nop { idle with irqEn := true } = .next t ∧ t.irq = true) ∧ (0x2 : Word).getLsbD 1 = true
      ∧ (0x2 : Word).getLsbD 0 = false := ⟨⟨_, rfl, rfl⟩, by decide, by decide⟩

/-- Writes dropped at an operand register, at CMD and at the last byte of a window raise OVERRUN, and a write of bit 3 to STATUS lowers it. -/
theorem witness_OverrunRecordsDroppedWrites :
    (∃ t, step { machine operands Stream.closed (.running 1) with inputs := [.access (.write 0x30 .four 5)] }
        = .next t ∧ t.overrun = true)
      ∧ (∃ t, step { machine operands Stream.closed (.running 1) with inputs := [.access (.write 0x20 .four 5)] }
          = .next t ∧ t.overrun = true)
      ∧ (∃ t, step { machine operands Stream.closed (.running 1) with inputs := [.access (.write 0x1003F .one 5)] }
          = .next t ∧ t.overrun = true)
      ∧ ∃ t, step { idle with overrun := true, inputs := [.access (.write 0x24 .four 8)] } = .next t
          ∧ t.overrun = false :=
  ⟨⟨_, rfl, by decide +kernel⟩, ⟨_, rfl, by decide +kernel⟩, ⟨_, rfl, by decide +kernel⟩, ⟨_, rfl, by decide +kernel⟩⟩

theorem witness_CommandsRunToTheirEnd :
    (∃ t, step (machine operands Stream.closed (.running 0)) = .next t ∧ t.engine = .idle)
      ∧ ∃ t, step { idle with inputs := [.access (.write 0x20 .four 5)] } = .next t
          ∧ t.engine = .running 5 := ⟨⟨_, rfl, by decide +kernel⟩, ⟨_, rfl, by decide +kernel⟩⟩

/-- The position 2^32 + 5, in both halves of POS, with the stream open; and a closed stream. -/
theorem witness_ResultRegistersRead :
    (machine operands { openStream with pos := 2 ^ 32 + 5 } .idle).Sound
      ∧ ReadsAs (machine operands { openStream with pos := 2 ^ 32 + 5 } .idle) 0x068 5
      ∧ ReadsAs (machine operands { openStream with pos := 2 ^ 32 + 5 } .idle) 0x06C 1
      ∧ ReadsAs (machine operands openStream .idle) 0x070 0xFFFFFFE0
      ∧ ReadsAs (machine operands openStream .idle) 0x074 0x1F
      ∧ (machine operands Stream.closed (.running 1)).Sound
      ∧ ReadsAs (machine operands Stream.closed (.running 1)) 0x074 0 := by
  refine ⟨machine_sound _ _ _ rfl { openStream_sound with pos := by decide, closed := fun h => by cases h }, ?_, ?_, ?_, ?_,
    closed_machine_sound _ _ rfl, ?_⟩ <;>
  · unfold ReadsAs
    decide +kernel

theorem witness_HostAccessesKeepResults : HostAccess.read 0 .four = .read 0 .four := rfl

/-- A run of two steps from reset that stays safe: the engine is idle and nothing is to come. -/
theorem test_runs_from_reset : State.reset.runsFor 2 := ⟨_, rfl⟩

end Sys2Proof.Tests
end

section
/-! SUPPORT. The registers as the host's accesses reach them: where each register lies in the CSR block (R21), what a
4-byte access at an offset of the block answers and leaves (R36, R46), and which accesses to the block are errors
(R47). -/

namespace Sys2Proof.Machine

/-! ## Where the registers lie (R21) -/

/-- The offset of a register in the CSR block, as R21's table writes it. -/
def Csr.offset : Csr → Nat
  | .id => 0x000
  | .caps => 0x004
  | .keyMax => 0x008
  | .saltMax => 0x00C
  | .bBytes => 0x010
  | .outBytes => 0x014
  | .vlaneBytes => 0x018
  | .cmd => 0x020
  | .status => 0x024
  | .errCode => 0x028
  | .ctrl => 0x02C
  | .n => 0x030
  | .r => 0x034
  | .p => 0x038
  | .maxThreads => 0x03C
  | .rounds => 0x040
  | .hmacSel => 0x044
  | .iter => 0x048
  | .keyLen => 0x04C
  | .saltLen => 0x050
  | .lane => 0x054
  | .readLen => 0x058
  | .readCount => 0x05C
  | .seekOffLo => 0x060
  | .seekOffHi => 0x064
  | .posLo => 0x068
  | .posHi => 0x06C
  | .slenLo => 0x070
  | .slenHi => 0x074

@[simp] theorem csrAt_offset (reg : Csr) : csrAt reg.offset = some reg := by cases reg <;> rfl

/-- `csrAt` finds a register at its own offset and nowhere else. -/
theorem csrAt_eq_some_iff {off : Nat} {reg : Csr} : csrAt off = some reg ↔ off = reg.offset := by
  constructor
  · intro h
    unfold csrAt at h
    split at h <;> cases h <;> rfl
  · rintro rfl
    exact csrAt_offset reg

theorem Csr.offset_le (reg : Csr) : reg.offset ≤ 0x074 := by cases reg <;> decide

theorem Csr.offset_lt_csrBlock (reg : Csr) : reg.offset < 0x1000 := lt_of_le_of_lt reg.offset_le (by decide)

theorem Csr.offset_aligned (reg : Csr) : reg.offset % 4 = 0 := by cases reg <;> rfl

/-- No register lies at 0x01C or from 0x078 on: the reserved offsets of R36. -/
theorem csrAt_reserved {off : Nat} (h : off = 0x01C ∨ 0x078 ≤ off) : csrAt off = none := by
  rcases h with rfl | h
  · rfl
  · refine Option.eq_none_iff_forall_ne_some.mpr fun reg hr => ?_
    have hle := reg.offset_le
    rw [← csrAt_eq_some_iff.mp hr] at hle
    omega

/-! ## 4-byte accesses to the block (R36, R46) -/

theorem Params.wf_engineBase {c : Params} (hc : c.wf = true) : c.engineBase.toNat % 4 = 0 := by
  obtain ⟨-, -, -, -, -, -, h⟩ := (Params.wf_iff c).mp hc
  exact h

theorem readsAs_csr {s : State} (hc : s.cfg.wf = true) (reg : Csr) : ReadsAs s reg.offset (s.readCsr reg) := by
  unfold ReadsAs hostRead hostAddr
  rw [State.access_read_csr (Params.wf_engineBase hc) reg.offset_lt_csrBlock reg.offset_aligned]
  simp [State.readValue]

theorem hostWrite_csr {s : State} (hc : s.cfg.wf = true) (reg : Csr) (v : Word) :
    hostWrite .four reg.offset v s = (s.writeCsr reg v).respond true 0 := by
  unfold hostWrite hostAddr
  rw [State.access_write_csr (Params.wf_engineBase hc) v reg.offset_lt_csrBlock reg.offset_aligned]
  simp [State.writeValue]

theorem readsAs_reserved {s : State} (hc : s.cfg.wf = true) {off : Nat} (h : off < 0x1000) (h4 : off % 4 = 0)
    (hn : csrAt off = none) : ReadsAs s off 0 := by
  unfold ReadsAs hostRead hostAddr
  rw [State.access_read_csr (Params.wf_engineBase hc) h h4]
  simp [State.readValue, hn]

theorem hostWrite_reserved {s : State} (hc : s.cfg.wf = true) {off : Nat} (v : Word) (h : off < 0x1000)
    (h4 : off % 4 = 0) (hn : csrAt off = none) : hostWrite .four off v s = s.respond true 0 := by
  unfold hostWrite hostAddr
  rw [State.access_write_csr (Params.wf_engineBase hc) v h h4]
  simp [State.writeValue, hn]

/-! ## Errors (R47) -/

/-- An access to the block that is not of 4 bytes, or not aligned, is routed nowhere. -/
theorem Params.route_csr_error {c : Params} (hc : c.engineBase.toNat % 4 = 0) {off : Nat} {size : AccessSize}
    (h : off < 0x1000) (hbad : size ≠ .four ∨ off % 4 ≠ 0) :
    Params.route c (c.engineBase + BitVec.ofNat 32 off) size = none := by
  have hlt : off < 2 ^ 32 := by omega
  have ht : targetAt off = .csr off := if_pos h
  unfold Params.route
  rw [Params.target_offset c hlt, Params.offset_mod hc size hlt, ht]
  by_cases hs : size = .four
  · subst hs
    have h4 : off % 4 ≠ 0 := hbad.resolve_left fun hne => hne rfl
    simp [AccessSize.bytes, h4]
  · simp [hs]

theorem hostRead_of_route_none {s : State} {size : AccessSize} {off : Nat}
    (h : Params.route s.cfg (hostAddr s off) size = none) : hostRead size off s = s.respond false 0 := by
  simp only [hostRead, State.access, h]

theorem hostWrite_of_route_none {s : State} {size : AccessSize} {off : Nat} (v : Word)
    (h : Params.route s.cfg (hostAddr s off) size = none) : hostWrite size off v s = s.respond false 0 := by
  simp only [hostWrite, State.access, h]

/-! ## Writes to the operand registers (R50) -/

/-- A write to an operand register is the write of the new operand values. -/
theorem State.writeCsr_operand {s : State} {reg : Csr} {v : Word} {g : OperandRegs}
    (hg : s.regs.write s.cfg v reg = some g) : s.writeCsr reg v = s.writeOperand g := by
  unfold State.writeCsr
  split
  · cases hg
  · cases hg
  · cases hg
  · rw [hg]

/-- While IDLE a host write to an operand register is taken, and changes nothing else. -/
theorem hostWrite_operand_idle {s : State} (hc : s.cfg.wf = true) (he : s.engine = .idle) {reg : Csr} {v : Word}
    {g : OperandRegs} (hg : s.regs.write s.cfg v reg = some g) :
    hostWrite .four reg.offset v s = { s with regs := g, resp := some ⟨true, 0⟩ } := by
  rw [hostWrite_csr hc, State.writeCsr_operand hg, State.writeOperand, he]
  rfl

/-! ## What the registers of one bit and the constant registers read (R22, R26, R29) -/

/-- A register that holds one bit reads 1 or 0. -/
theorem oneBitWord_eq (b : Bool) : (0#31 ++ BitVec.ofBool b : Word) = if b then 1 else 0 := by cases b <;> rfl

theorem readsAs_ctrl {s : State} (hc : s.cfg.wf = true) : ReadsAs s 0x02C (if s.irqEn then 1 else 0) :=
  oneBitWord_eq s.irqEn ▸ readsAs_csr hc .ctrl

theorem readsAs_hmacSel {s : State} (hc : s.cfg.wf = true) : ReadsAs s 0x044 (if s.hmacSelBit then 1 else 0) :=
  oneBitWord_eq s.hmacSelBit ▸ readsAs_csr hc .hmacSel

/-- CAPS of legal parameters is W_HW with HAS_SHA512 above it. -/
theorem readCsr_caps {s : State} (hc : s.cfg.wf = true) :
    s.readCsr .caps = BitVec.ofNat 32 (s.cfg.wHw + 256 * s.cfg.hasSha512.toNat) := by
  obtain ⟨⟨-, hw⟩, -⟩ := (Params.wf_iff s.cfg).mp hc
  rw [State.readCsr, Nat.mod_eq_of_lt (by omega)]

/-- The fields of CAPS: a byte, one bit above it, and 0. -/
theorem caps_fields {w : Nat} (hw : w ≤ 255) (h : Bool) :
    (BitVec.ofNat 32 (w + 256 * h.toNat)).toNat % 256 = w
      ∧ (BitVec.ofNat 32 (w + 256 * h.toNat)).getLsbD 8 = h
      ∧ (BitVec.ofNat 32 (w + 256 * h.toNat)).toNat / 512 = 0 := by
  have hh := h.toNat_le
  have hv : (BitVec.ofNat 32 (w + 256 * h.toNat)).toNat = w + 256 * h.toNat :=
    Nat.mod_eq_of_lt (by omega)
  refine ⟨by omega, ?_, by omega⟩
  have hq : (w + 256 * h.toNat) / 2 ^ 8 = h.toNat := by omega
  rw [BitVec.getLsbD, hv, Nat.testBit_eq_decide_div_mod_eq, hq]
  cases h <;> rfl

/-- A capacity register, which reads a parameter of at most 31 bits, reads it whole. -/
theorem readsAs_capacity {s : State} (hc : s.cfg.wf = true) (reg : Csr) {n : Nat}
    (hr : s.readCsr reg = BitVec.ofNat 32 n) (hn : n ≤ 2 ^ 31) : ∃ v : Word, ReadsAs s reg.offset v ∧ v.toNat = n :=
  ⟨_, hr ▸ readsAs_csr hc reg, Nat.mod_eq_of_lt (by omega)⟩

/-- The seven registers of R22 ignore writes. -/
theorem writeCsr_identification {k : Nat} (hk : k ≤ 6) :
    ∃ reg : Csr, reg.offset = 4 * k ∧ ∀ (s : State) (v : Word), s.writeCsr reg v = s := by
  interval_cases k
  · exact ⟨.id, rfl, fun _ _ => rfl⟩
  · exact ⟨.caps, rfl, fun _ _ => rfl⟩
  · exact ⟨.keyMax, rfl, fun _ _ => rfl⟩
  · exact ⟨.saltMax, rfl, fun _ _ => rfl⟩
  · exact ⟨.bBytes, rfl, fun _ _ => rfl⟩
  · exact ⟨.outBytes, rfl, fun _ _ => rfl⟩
  · exact ⟨.vlaneBytes, rfl, fun _ _ => rfl⟩

/-! ## The binding (R29) -/

theorem State.hmacSelBit_unbuilt {s : State} (h : s.cfg.hasSha512 = false) : s.hmacSelBit = false := by
  rw [State.hmacSelBit, h, Bool.and_false]

/-- While IDLE a write to HMAC_SEL takes bit 0 where HMAC-SHA512 is built, and nothing where it is not. -/
theorem hostWrite_hmacSel_idle {s : State} (hc : s.cfg.wf = true) (he : s.engine = .idle) (v : Word) :
    hostWrite .four 0x044 v s
      = { s with
          regs := { s.regs with hmacSel := v.getLsbD 0 && s.cfg.hasSha512 }
          resp := some ⟨true, 0⟩ } :=
  hostWrite_operand_idle hc he (reg := .hmacSel) rfl

/-- The bit HMAC_SEL holds after a write while IDLE. -/
theorem hmacSelBit_hostWrite_idle {s : State} (hc : s.cfg.wf = true) (he : s.engine = .idle) (v : Word) :
    (hostWrite .four 0x044 v s).hmacSelBit = (v.getLsbD 0 && s.cfg.hasSha512) := by
  rw [hostWrite_hmacSel_idle hc he, State.hmacSelBit]
  simp

/-! ## After reset (R42) -/

/-- The registers beyond R22's show no parameter after reset. -/
theorem readCsr_resetWith_eq_reset (c : Params) {reg : Csr} (h : 0x018 < reg.offset) :
    (State.resetWith c).readCsr reg = State.reset.readCsr reg := by
  cases reg with
  | id | caps | keyMax | saltMax | bBytes | outBytes | vlaneBytes => exact absurd h (by decide)
  | _ => rfl

/-- After reset every register beyond R22's reads 0 but ROUNDS, which reads 8 (R21's "reset" column). -/
theorem readCsr_resetWith (c : Params) {reg : Csr} (h : 0x018 < reg.offset) :
    (State.resetWith c).readCsr reg = if reg = .rounds then 8 else 0 := by
  rw [readCsr_resetWith_eq_reset c h]
  revert h
  cases reg <;> decide

/-- Beyond R22's registers every word of the CSR block reads 0 after reset but ROUNDS: the reserved offsets by R36. -/
theorem readsAs_resetWith_zero {c : Params} (hc : c.wf = true) {k : Nat} (hk : k < 1024) (hlo : 6 < k)
    (hne : k ≠ 16) : ReadsAs (State.resetWith c) (4 * k) 0 := by
  cases hr : csrAt (4 * k) with
  | none => exact readsAs_reserved hc (by omega) (by omega) hr
  | some reg =>
    have hoff : 4 * k = reg.offset := csrAt_eq_some_iff.mp hr
    have hrounds : reg ≠ .rounds := by
      rintro rfl
      simp only [Csr.offset] at hoff
      omega
    have hzero : (State.resetWith c).readCsr reg = 0 := by rw [readCsr_resetWith c (by omega), if_neg hrounds]
    rw [hoff, ← hzero]
    exact readsAs_csr hc reg

end Sys2Proof.Machine
end

section
/-! Settles the statements about the state the host sees: reset values, the constant registers, CTRL, HMAC_SEL and the
reserved offsets (R22, R26, R29, R36, R42). -/

namespace Sys2Proof.Machine

/-- Settles O49: HMAC_SEL reads its bit, which is 0 where HMAC-SHA512 is not built, and a write while IDLE leaves bit 0
of the value there where it is built. -/
theorem hmacSelRegister : Obligations.HmacSelRegister := by
  unfold Obligations.HmacSelRegister
  refine ⟨fun s hc => ⟨fun hb => ?_, fun he v => ⟨_, rfl, ?_, ?_⟩⟩, rfl, rfl, fun c hc =>
    readsAs_resetWith_zero hc (k := 17) (by decide) (by decide) (by decide)⟩
  · have hbit := State.hmacSelBit_unbuilt hb
    have hread := readsAs_hmacSel hc
    rw [hbit] at hread
    exact ⟨hread, by rw [State.binding, hbit]; rfl⟩
  · have hcfg : (hostWrite .four 0x044 v s).cfg.wf = true := by rw [hostWrite_hmacSel_idle hc he]; exact hc
    have hread := readsAs_hmacSel hcfg
    rw [hmacSelBit_hostWrite_idle hc he] at hread
    simpa only [Bool.and_eq_true] using hread
  · simp only [State.binding, hmacSelBit_hostWrite_idle hc he, Bool.and_eq_true]

/-- Settles O9: the registers by their reads at their offsets, the rest of the state by the definition of reset. -/
theorem resetValues : Obligations.ResetValues := by
  unfold Obligations.ResetValues
  rintro c hc s rfl
  have hread (reg : Csr) : ReadsAs (State.resetWith c) reg.offset ((State.resetWith c).readCsr reg) :=
    readsAs_csr hc reg
  have hcaps := hread .caps
  rw [readCsr_caps (s := State.resetWith c) hc] at hcaps
  have hrounds := hread .rounds
  rw [readCsr_resetWith c (by decide), if_pos rfl] at hrounds
  refine ⟨hread .id, hcaps, hread .keyMax, hread .saltMax, hread .bBytes, hread .outBytes, hread .vlaneBytes, hrounds,
    fun k hk hz => ?_, rfl, rfl, rfl, rfl, rfl, rfl, rfl, fun a => ⟨rfl, rfl, rfl, rfl⟩⟩
  simp only [List.mem_cons, List.not_mem_nil, or_false, not_or] at hz
  exact readsAs_resetWith_zero hc hk (by omega) (by omega)

/-- Settles O46: each register of R22 reads its parameter, which legal parameters keep within the register, and its
writes are ignored. -/
theorem identificationRegisters : Obligations.IdentificationRegisters := by
  unfold Obligations.IdentificationRegisters
  intro s hc
  obtain ⟨⟨-, hw⟩, ⟨-, hkey⟩, ⟨-, hsalt, -⟩, ⟨-, hb, -⟩, ⟨-, hout⟩, ⟨-, hv, -⟩, -⟩ := (Params.wf_iff s.cfg).mp hc
  refine ⟨readsAs_csr hc .id, ⟨_, readCsr_caps hc ▸ readsAs_csr hc .caps, caps_fields hw _⟩,
    readsAs_capacity hc .keyMax rfl (by omega), readsAs_capacity hc .saltMax rfl (by omega),
    readsAs_capacity hc .bBytes rfl (by omega), readsAs_capacity hc .outBytes rfl (by omega),
    readsAs_capacity hc .vlaneBytes rfl hv, fun k v hk => ?_⟩
  obtain ⟨reg, hoff, hignored⟩ := writeCsr_identification hk
  rw [← hoff, hostWrite_csr hc, hignored]

/-- Settles O47: CTRL reads IRQ_EN, a write replaces it alone in either engine state, and IRQ is DONE under it. -/
theorem ctrlRegister : Obligations.CtrlRegister := by
  unfold Obligations.CtrlRegister
  refine ⟨fun c => rfl, fun s hc => ⟨readsAs_ctrl hc, fun v => hostWrite_csr hc .ctrl v, fun h => ?_, fun h => ?_⟩⟩
  · rw [State.irq, h, Bool.and_false]
  · rw [State.irq, h, Bool.and_true]

/-- Settles O50: no register lies at a reserved offset, and an access of another size, or misaligned, is routed
nowhere. -/
theorem reservedCsrOffsets : Obligations.ReservedCsrOffsets := by
  unfold Obligations.ReservedCsrOffsets
  refine fun s hc => ⟨fun k hk => ?_, fun off size hoff hbad => ?_⟩
  · have hn : csrAt (4 * k) = none := csrAt_reserved (hk.imp_right And.left)
    have hlt : 4 * k < 0x1000 := by omega
    have h4 : 4 * k % 4 = 0 := by omega
    exact ⟨readsAs_reserved hc hlt h4 hn, fun v => hostWrite_reserved hc v hlt h4 hn⟩
  · have hroute := Params.route_csr_error (Params.wf_engineBase hc) hoff hbad
    exact ⟨hostRead_of_route_none hroute, fun v => hostWrite_of_route_none v hroute⟩

end Sys2Proof.Machine
end

section
/-! SUPPORT. The host's accesses by address: the grounds of an error (R47), how the windows are reached (R44, R45), and
what the registers answer and take while RUNNING (R49, R50). -/

namespace Sys2Proof.Machine

/-! ## Errors (R47) -/

/-- `targetAt` read backwards: what it finds lies at the offset, a window's byte at its offset from the window's base. -/
theorem targetAt_cases (off : Nat) :
    (targetAt off = .csr off ∧ off < 0x1000)
      ∨ (∃ w a, targetAt off = .window w a ∧ off = w.base + a)
      ∨ targetAt off = .unmapped := by
  unfold targetAt
  split
  next h => exact .inl ⟨rfl, h⟩
  split
  next h => exact .inr (.inl ⟨.key, _, rfl, (Nat.add_sub_cancel' h.1).symm⟩)
  split
  next h => exact .inr (.inl ⟨.salt, _, rfl, (Nat.add_sub_cancel' h.1).symm⟩)
  split
  next h => exact .inr (.inl ⟨.out, _, rfl, (Nat.add_sub_cancel' h.1).symm⟩)
  split
  next h => exact .inr (.inl ⟨.b, _, rfl, (Nat.add_sub_cancel' h.1).symm⟩)
  exact .inr (.inr rfl)

theorem AccessSize.bytes_pos (size : AccessSize) : 0 < size.bytes := by cases size <;> decide

theorem Params.route_misaligned {c : Params} {addr : Word} {size : AccessSize} (h : addr.toNat % size.bytes ≠ 0) :
    Params.route c addr size = none := if_pos h

theorem Params.route_narrow_csr {c : Params} {addr : Word} {size : AccessSize}
    (h : (addr - c.engineBase).toNat < 0x1000) (hs : size ≠ .four) : Params.route c addr size = none := by
  have ht : Params.target c addr = .csr (addr - c.engineBase).toNat := if_pos h
  simp only [Params.route, ht, if_neg hs, ite_self]

theorem Params.route_not_backed {c : Params} {addr : Word} {size : AccessSize}
    (h : ¬ Backed c (addr - c.engineBase).toNat) : Params.route c addr size = none := by
  have hpos := AccessSize.bytes_pos size
  unfold Params.route Params.target
  obtain ⟨-, hlt⟩ | ⟨w, a, ht, ho⟩ | ht := targetAt_cases (addr - c.engineBase).toNat
  · exact absurd (.inl hlt) h
  · have hbeyond : ¬ a + size.bytes ≤ w.capacity c := fun hle => h (.inr ⟨w, by omega, by omega⟩)
    simp only [ht, if_neg hbeyond, ite_self]
  · simp only [ht, ite_self]

/-- An access that is routed nowhere is an error and changes nothing. -/
theorem State.access_of_route_none {s : State} {addr : Word} {size : AccessSize}
    (h : Params.route s.cfg addr size = none) :
    s.access (.read addr size) = s.respond false 0
      ∧ ∀ v : Word, s.access (.write addr size v) = s.respond false 0 := by
  simp only [State.access, h, implies_true, and_self]

/-! ## The windows (R44, R45) -/

/-- The bytes of the map that a window takes up (R44). -/
def Window.range : Window → Nat
  | .key | .salt | .out => 0x10000
  | .b => 0x100000

theorem Window.capacity_le {c : Params} (hc : c.wf = true) (w : Window) : w.capacity c ≤ w.range := by
  obtain ⟨-, ⟨-, hkey⟩, ⟨-, hsalt, -⟩, ⟨-, hb, -⟩, ⟨-, hout⟩, -⟩ := (Params.wf_iff c).mp hc
  cases w with
  | key => exact hkey
  | salt => exact hsalt
  | out => exact hout
  | b => exact hb

theorem Window.base_add_range_le (w : Window) : w.base + w.range ≤ 0x200000 := by cases w <;> decide

/-- A backed byte of a window lies in the window's range of the map. -/
theorem targetAt_window {c : Params} (hc : c.wf = true) (w : Window) {off : Nat} (h : off < w.capacity c) :
    targetAt (w.base + off) = .window w off := by
  have hcap := Window.capacity_le hc w
  unfold targetAt
  cases w <;>
  · simp only [Window.base, Window.range] at h hcap ⊢
    grind

theorem Window.base_mod (w : Window) (size : AccessSize) : w.base % size.bytes = 0 := by
  cases w <;> cases size <;> rfl

/-- An aligned access to backed bytes of a window reaches them. -/
theorem Params.route_backed {c : Params} (hc : c.wf = true) {w : Window} {off : Nat} {size : AccessSize}
    (ha : off % size.bytes = 0) (h : off + size.bytes ≤ w.capacity c) :
    Params.route c (c.engineBase + BitVec.ofNat 32 (w.base + off)) size = some (.window w off) := by
  have hpos := AccessSize.bytes_pos size
  have hcap := Window.capacity_le hc w
  have hmap := w.base_add_range_le
  have hin : off < w.capacity c := by omega
  have hlt : w.base + off < 2 ^ 32 := by omega
  have halign : (w.base + off) % size.bytes = 0 := by rw [Nat.add_mod, w.base_mod, ha, Nat.zero_add, Nat.zero_mod]
  unfold Params.route
  rw [Params.target_offset c hlt, Params.offset_mod (Params.wf_engineBase hc) size hlt, targetAt_window hc w hin]
  simp only [halign, ne_eq, not_true_eq_false, if_false, if_pos h]

theorem hostRead_window {s : State} (hc : s.cfg.wf = true) {w : Window} {off : Nat} {size : AccessSize}
    (ha : off % size.bytes = 0) (h : off + size.bytes ≤ w.capacity s.cfg) :
    hostRead size (w.base + off) s = s.respond true (s.readValue size (.window w off)) := by
  simp only [hostRead, hostAddr, State.access, Params.route_backed hc ha h]

theorem hostWrite_window {s : State} (hc : s.cfg.wf = true) {w : Window} {off : Nat} {size : AccessSize} (v : Word)
    (ha : off % size.bytes = 0) (h : off + size.bytes ≤ w.capacity s.cfg) :
    hostWrite size (w.base + off) v s = (s.writeValue size v (.window w off)).respond true 0 := by
  simp only [hostWrite, hostAddr, State.access, Params.route_backed hc ha h]

/-! ## Reads while RUNNING (R49) -/

theorem State.readValue_window_running {s : State} {cw : Word} (he : s.engine = .running cw) (size : AccessSize)
    (w : Window) (off : Nat) : s.readValue size (.window w off) = 0 := by
  simp only [State.readValue, he]

/-- A read has one answer. -/
theorem ReadsAs.unique {s : State} {off : Nat} {v w : Word} (hv : ReadsAs s off v) (hw : ReadsAs s off w) : v = w := by
  have hresp : (s.respond true v).resp = (s.respond true w).resp := congrArg State.resp (hv.symm.trans hw)
  injection hresp with hresp
  exact congrArg Response.value hresp

/-- Only STATUS, by its BUSY bit, shows whether the engine is RUNNING. -/
theorem State.readCsr_engine (s : State) (e : EngineState) {reg : Csr} (h : reg ≠ .status) :
    State.readCsr { s with engine := e } reg = s.readCsr reg := by
  cases reg with
  | status => exact absurd rfl h
  | _ => rfl

/-! ## Writes while RUNNING (R50) -/

theorem State.writeValue_window_running {s : State} {cw : Word} (he : s.engine = .running cw) (size : AccessSize)
    (v : Word) (w : Window) (off : Nat) : s.writeValue size v (.window w off) = s.setOverrun := by
  simp only [State.writeValue, he]

/-- The offsets of R50 are those of CMD and of the operand registers. -/
theorem Csr.offset_mem_droppedOffsets_iff (c : Params) (v : Word) (g : OperandRegs) (reg : Csr) :
    reg.offset ∈ droppedOffsets ↔ reg = .cmd ∨ ∃ g', g.write c v reg = some g' := by
  cases reg <;> simp [Csr.offset, droppedOffsets, OperandRegs.write]

theorem exists_csr_of_mem_droppedOffsets {off : Nat} (h : off ∈ droppedOffsets) : ∃ reg : Csr, reg.offset = off := by
  have hsome : ∀ o ∈ droppedOffsets, (csrAt o).isSome = true := by decide
  obtain ⟨reg, hreg⟩ := Option.isSome_iff_exists.mp (hsome off h)
  exact ⟨reg, (csrAt_eq_some_iff.mp hreg).symm⟩

/-- While RUNNING a write to CMD or to an operand register is dropped. -/
theorem State.writeCsr_dropped {s : State} {cw : Word} (he : s.engine = .running cw) {reg : Csr} (v : Word)
    (h : reg.offset ∈ droppedOffsets) : s.writeCsr reg v = s.setOverrun := by
  obtain rfl | ⟨g, hg⟩ := (Csr.offset_mem_droppedOffsets_iff s.cfg v s.regs reg).mp h
  · simp only [State.writeCsr, State.writeCmd, he]
  · simp only [State.writeCsr_operand hg, State.writeOperand, he]

/-- A register that is none of CMD, STATUS, CTRL and the operand registers ignores writes. -/
theorem State.writeCsr_ignored {s : State} {reg : Csr} (v : Word) (hstatus : reg ≠ .status) (hctrl : reg ≠ .ctrl)
    (h : reg.offset ∉ droppedOffsets) : s.writeCsr reg v = s := by
  rw [Csr.offset_mem_droppedOffsets_iff s.cfg v s.regs] at h
  unfold State.writeCsr
  split
  next => exact absurd (.inl rfl) h
  next => exact absurd rfl hstatus
  next => exact absurd rfl hctrl
  next =>
    split
    next g hg => exact absurd (.inr ⟨g, hg⟩) h
    next => rfl

end Sys2Proof.Machine
end

section
/-! Settles the statements about the host's accesses: errors, and reads and writes while RUNNING (R47, R49, R50). -/

namespace Sys2Proof.Machine

/-- Settles O51: on each of R47's grounds the access is routed nowhere. -/
theorem errorAccessesHaveNoEffect : Obligations.ErrorAccessesHaveNoEffect := by
  unfold Obligations.ErrorAccessesHaveNoEffect
  rintro s addr size - off rfl (hbacked | halign | ⟨hcsr, hsize⟩)
  · exact State.access_of_route_none (Params.route_not_backed hbacked)
  · exact State.access_of_route_none (Params.route_misaligned halign)
  · exact State.access_of_route_none (Params.route_narrow_csr hcsr hsize)

/-- Settles O53: a window's bytes are hidden while RUNNING, and of the registers only STATUS shows the engine's state. -/
theorem runningReads : Obligations.RunningReads := by
  unfold Obligations.RunningReads
  refine fun s cw hc he => ⟨fun w off size ha hb => ?_, fun k v hk hstatus hv => ?_⟩
  · rw [hostRead_window hc ha hb, State.readValue_window_running he]
  · cases hr : csrAt (4 * k) with
    | none =>
      have hzero := readsAs_reserved (s := { s with engine := .idle }) hc (by omega) (by omega) hr
      rw [hv.unique hzero]
      exact readsAs_reserved hc (by omega) (by omega) hr
    | some reg =>
      have hoff : 4 * k = reg.offset := csrAt_eq_some_iff.mp hr
      have hne : reg ≠ .status := by rintro rfl; exact hstatus hoff
      rw [hoff] at hv ⊢
      rw [hv.unique (readsAs_csr (s := { s with engine := .idle }) hc reg), State.readCsr_engine s .idle hne]
      exact readsAs_csr hc reg

/-- Settles O54: by where the write goes, a window, a dropped register, STATUS, CTRL, or a register or reserved offset
that ignores it. -/
theorem runningWrites : Obligations.RunningWrites := by
  unfold Obligations.RunningWrites
  refine fun s cw v hc he => ⟨fun w off size ha hb => ?_, fun off hoff => ?_, hostWrite_csr hc .status v,
    hostWrite_csr hc .ctrl v, fun k hk hother => ?_⟩
  · rw [hostWrite_window hc v ha hb, State.writeValue_window_running he]
    rfl
  · obtain ⟨reg, rfl⟩ := exists_csr_of_mem_droppedOffsets hoff
    rw [hostWrite_csr hc, State.writeCsr_dropped he v hoff]
    rfl
  · cases hr : csrAt (4 * k) with
    | none => exact hostWrite_reserved hc v (by omega) (by omega) hr
    | some reg =>
      rw [csrAt_eq_some_iff.mp hr] at hother ⊢
      have hkept : reg.offset ∉ droppedOffsets := fun h => hother (List.Sublist.subset (by decide) h)
      have hstatus : reg ≠ .status := by rintro rfl; exact hother (by decide)
      have hctrl : reg ≠ .ctrl := by rintro rfl; exact hother (by decide)
      rw [hostWrite_csr hc, State.writeCsr_ignored v hstatus hctrl hkept]

end Sys2Proof.Machine
end

section
/-! SUPPORT. Decoding read backwards: what the two tables and the fields of a word must be when a command is decoded,
and the words that are encoded (R65, R69, R71). -/

namespace Sys2Proof

/-- The three fields of R65 are all the bits of a word. -/
@[simp] theorem wordOf_fieldsOf (cw : Word) : wordOf (fieldsOf cw) = cw := by
  apply BitVec.eq_of_getLsbD_eq
  intro k hk
  simp only [wordOf, fieldsOf, BitVec.getLsbD_append, BitVec.getLsbD_extractLsb']
  split
  next h => simp [h]
  split
  next hopc h => simp [h, show 8 + (k - 8) = k by omega]
  next hopc horg => simp [show k - 8 - 2 < 22 by omega, show 10 + (k - 8 - 2) = k by omega]

/-- A command that `opcodeTable` finds has the operation code in its fields, and the other two are 0. -/
theorem fields_of_opcodeTable {opc : BitVec 8} {i : Instr} (h : opcodeTable opc.toNat = some i) :
    i.fields = ⟨opc, 0, 0⟩ := by
  generalize hn : opc.toNat = n at h
  obtain rfl : BitVec.ofNat 8 n = opc := by simp [← hn]
  unfold opcodeTable at h
  split at h <;> cases h <;> rfl

/-- A command that `originTable` finds is the STREAM_SEEK with the origin in its fields. -/
theorem fields_of_originTable {org : BitVec 2} {i : Instr} (h : originTable org.toNat = some i) :
    i.fields = ⟨0x0A, org, 0⟩ := by
  generalize hn : org.toNat = n at h
  obtain rfl : BitVec.ofNat 2 n = org := by simp [← hn]
  unfold originTable at h
  split at h <;> cases h <;> rfl

/-- The fields that decode to a command are the command's own: RSVD is 0, and the origin table gives the other two for
a STREAM_SEEK, the opcode table for any other command. -/
theorem eq_fields_of_decodeFields {f : CommandFields} {i : Instr} (h : decodeFields f = .ok i) : f = i.fields := by
  obtain ⟨opc, org, rsvd⟩ := f
  simp only [decodeFields, ne_eq] at h
  split at h
  next => cases h
  next hrsvd =>
    obtain rfl := not_not.mp hrsvd
    split at h
    next => cases h
    next j hj =>
      split at h
      next hseek =>
        subst hseek
        split at h
        next => cases h
        next j hj => cases h; exact (fields_of_originTable hj).symm
      next =>
        split at h
        next => cases h
        next horg =>
          obtain rfl := not_not.mp horg
          cases h
          exact (fields_of_opcodeTable hj).symm

/-- Every command decodes from its fields. -/
@[simp] theorem decodeFields_fields (i : Instr) : decodeFields i.fields = .ok i := by
  cases i <;> rfl

/-- The word of a command carries the command's fields. -/
@[simp] theorem fieldsOf_encode (i : Instr) : fieldsOf (encode i) = i.fields := by
  cases i <;> rfl

/-- A word decodes to a command exactly when it is the command's encoding. -/
theorem decode_eq_ok_iff {cw : Word} {i : Instr} : decode cw = .ok i ↔ cw = encode i := by
  constructor
  · intro h
    rw [encode, ← eq_fields_of_decodeFields h, wordOf_fieldsOf]
  · rintro rfl
    rw [decode, fieldsOf_encode, decodeFields_fields]

namespace Machine

/-- The words written in R69's table are the words of the fields in its columns. -/
theorem encode_eq_tableWord (i : Instr) : encode i = tableWord i := by
  cases i <;> rfl

end Machine

end Sys2Proof
end

section
/-! Settles the statement about the words of the opcode map (R69). -/

namespace Sys2Proof.Machine

/-- Settles O2: a decoding word is the encoding of its command, and the encodings are the words of R69's table. -/
theorem exactlyTheTableWordsDecode : Obligations.ExactlyTheTableWordsDecode := by
  unfold Obligations.ExactlyTheTableWordsDecode
  intro cw i
  rw [decode_eq_ok_iff, encode_eq_tableWord]

end Sys2Proof.Machine
end

section
/-! SUPPORT. What completion leaves (R130, R136), and the rule of a command from what its results do: the checks of its
row decide, and the results are all a command adds to its completion. -/

namespace Sys2Proof.Machine

/-! ## Completion -/

/-- The flags, registers, parameters and lines that no command's results write, and how many worker units there are. -/
structure KeepsControl (s t : State) : Prop where
  units : t.units.length = s.units.length
  overrun : t.overrun = s.overrun
  irqEn : t.irqEn = s.irqEn
  regs : t.regs = s.regs
  cfg : t.cfg = s.cfg
  resetLine : t.resetLine = s.resetLine
  inputs : t.inputs = s.inputs
  resp : t.resp = s.resp

theorem KeepsControl.refl (s : State) : KeepsControl s s := ⟨rfl, rfl, rfl, rfl, rfl, rfl, rfl, rfl⟩

theorem ErrorCode.code_eq_zero_iff (e : ErrorCode) : e.code = 0 ↔ e = .none := by cases e <;> decide

/-- The scratch is clear after every completion (R17, R130). -/
theorem State.complete_quiet (opc : Byte) (e : ErrorCode) (s : State) : (s.complete opc e).Quiet where
  claim := rfl
  seq := rfl
  pbk := rfl
  units u hu := by
    obtain ⟨-, -, rfl⟩ := List.mem_map.mp hu
    rfl

/-- ERR_CODE, read as a word, is the operation code above the error code (R25). -/
theorem State.errCodeWord_eq (s : State) : s.errCodeWord = s.errOpc.setWidth 32 <<< 8 ||| s.errCode.setWidth 32 := by
  apply BitVec.eq_of_getLsbD_eq
  intro i hi
  simp only [State.errCodeWord, BitVec.getLsbD_append, BitVec.getLsbD_or, BitVec.getLsbD_shiftLeft,
    BitVec.getLsbD_setWidth]
  by_cases hcode : i < 8
  · simp [hcode, hi]
  · have hlow : s.errCode.getLsbD i = false := BitVec.getLsbD_of_ge _ i (by omega)
    by_cases hopc : i - 8 < 8
    · simp [hcode, hopc, hi, hlow, show i - 8 < 32 by omega]
    · have hhigh : s.errOpc.getLsbD (i - 8) = false := BitVec.getLsbD_of_ge _ _ (by omega)
      simp [hcode, hopc, hlow, hhigh]

/-- The completion of a state that differs from s in results alone is a completion of s (R130). -/
theorem State.complete_finished {s t : State} (h : KeepsControl s t) (opc : Byte) (e : ErrorCode) :
    Finished opc e.code s (t.complete opc e) where
  idle := rfl
  done := rfl
  err := decide_eq_decide.mpr (not_congr e.code_eq_zero_iff.symm)
  errCode := State.errCodeWord_eq _
  quiet := t.complete_quiet opc e
  units := by simpa using h.units
  overrun := h.overrun
  irqEn := h.irqEn
  regs := h.regs
  cfg := h.cfg
  resetLine := h.resetLine
  inputs := h.inputs
  resp := h.resp

/-- Completing the state as it was changes nothing but DONE, ERR and ERR_CODE (R136). -/
theorem State.complete_rejected (s : State) (opc : Byte) (e : ErrorCode) :
    Rejected opc e.code s (s.complete opc e) :=
  ⟨State.complete_finished (.refl s) opc e, ⟨fun _ => rfl, fun _ => rfl⟩, ⟨rfl, rfl, fun _ => rfl⟩, fun _ => rfl, rfl⟩

/-! ## The rule of a command -/

/-- A command follows its rule when, on a sound state that passes its checks, its results leave the control state alone
and have the effect. -/
theorem commandRule_of_results {i : Instr} (hi : ¬ unsupported i) {effect : State → State → Prop}
    (h : ∀ s : State, s.Sound → (∀ c ∈ checksOf i, c.fails s = false) →
      KeepsControl s (resultsOf i s) ∧ effect s ((resultsOf i s).complete i.opc .none)) :
    CommandRule i i.opc (checksOf i) effect := by
  intro s hs
  rw [exec_eq_runCommand i s hi]
  constructor
  · intro c hc
    exact ⟨_, runCommand_fail hc, s.complete_rejected i.opc c.error⟩
  · intro hnone
    have hpass := (firstFailing_none s (checksOf i)).mp hnone
    obtain ⟨hcontrol, heffect⟩ := h s hs hpass
    exact ⟨_, runCommand_pass hpass, State.complete_finished hcontrol i.opc .none, heffect⟩

/-- Writing a string changes no byte outside its length. -/
theorem Mem.writeBytes_sameBytesOutside (m : Mem) (a : Nat) (v : Bytes) :
    SameBytesOutside a v.length m (m.writeBytes a v) := fun _ hx => Mem.read_writeBytes_outside m hx

end Sys2Proof.Machine
end

section
/-! SUPPORT. The operations of the core, each from the words or bits of its result: rotation (R74), an ARX step (R75),
the quarter-rounds and rounds as lists of steps (R76 to R78), and the feed-forward (R81). -/

namespace Sys2Proof.Machine

/-! ## Rotation and ARX (R74, R75) -/

/-- A bit of a rotated word comes from the shift left from place k on, from the shift right below it. -/
theorem rotl32_getLsbD (v : Word) {k i : Nat} (hi : i < 32) :
    (rotl32 v k).getLsbD i = if i < k then v.getLsbD (32 - k + i) else (v.getLsbD (i - k) || v.getLsbD (32 - k + i)) := by
  unfold rotl32
  rw [BitVec.getLsbD_or, BitVec.getLsbD_shiftLeft, BitVec.getLsbD_ushiftRight]
  by_cases h : i < k <;> simp [h, hi]

theorem arx_getElem (d a b : Fin 16) (k : Nat) (x : Block) (j : Fin 16) :
    (arx d a b k x)[j] = if j = d then x[d] ^^^ rotl32 (x[a] + x[b]) k else x[j] := by
  simp only [arx, add32, Fin.getElem_fin, Vector.getElem_set, Fin.ext_iff, eq_comm]

/-! ## Rounds as lists of steps (R76 to R78) -/

/-- The four steps of a quarter-round, in order (R76). -/
def quarterSteps (y0 y1 y2 y3 : Fin 16) : List (Fin 16 × Fin 16 × Fin 16 × Nat) :=
  [(y1, y0, y3, 7), (y2, y1, y0, 9), (y3, y2, y1, 13), (y0, y3, y2, 18)]

theorem runSteps_append (p q : List (Fin 16 × Fin 16 × Fin 16 × Nat)) (x : Block) :
    runSteps (p ++ q) x = runSteps q (runSteps p x) := List.foldl_append

theorem quarterRound_eq_runSteps (y0 y1 y2 y3 : Fin 16) (x : Block) :
    quarterRound y0 y1 y2 y3 x = runSteps (quarterSteps y0 y1 y2 y3) x := rfl

/-- R77's table is the steps of its four quarter-rounds. -/
theorem columnSteps_eq : columnSteps
    = quarterSteps 0 4 8 12 ++ quarterSteps 5 9 13 1 ++ quarterSteps 10 14 2 6 ++ quarterSteps 15 3 7 11 := rfl

/-- R78's table is the steps of its four quarter-rounds. -/
theorem rowSteps_eq : rowSteps
    = quarterSteps 0 1 2 3 ++ quarterSteps 5 6 7 4 ++ quarterSteps 10 11 8 9 ++ quarterSteps 15 12 13 14 := rfl

theorem columnRound_eq_runSteps (x : Block) : columnRound x = runSteps columnSteps x := by
  simp only [columnRound, columnSteps_eq, runSteps_append, quarterRound_eq_runSteps]

theorem rowRound_eq_runSteps (x : Block) : rowRound x = runSteps rowSteps x := by
  simp only [rowRound, rowSteps_eq, runSteps_append, quarterRound_eq_runSteps]

/-! ## The feed-forward (R81) -/

theorem salsaCore_getElem (n : Nat) (inp : Block) (i : Fin 16) :
    (salsaCore n inp)[i] = (doubleRound^[n / 2] inp)[i] + inp[i] := by
  simp only [salsaCore, zipBlock, add32, Fin.getElem_fin, Vector.getElem_ofFn]

end Sys2Proof.Machine
end

section
/-! Settles the statements about the Salsa core and the SALSA command (R74 to R81, R85). -/

namespace Sys2Proof.Machine

/-- Settles O39: below place k the bit comes round from the top of the word, from k on it moves up by k. -/
theorem rotationMovesBits : Obligations.RotationMovesBits := by
  unfold Obligations.RotationMovesBits
  intro v k i hk hk' hi
  rw [rotl32_getLsbD v hi]
  split
  next hwrap =>
    have hmod : (i + 32 - k) % 32 = 32 - k + i := by omega
    rw [hmod]
  next hmove =>
    have hmod : (i + 32 - k) % 32 = i - k := by omega
    have htop : v.getLsbD (32 - k + i) = false := BitVec.getLsbD_of_ge v _ (by omega)
    rw [hmod, htop, Bool.or_false]

/-- Settles O38: the rounds by their lists of steps, the core word by word, and the registers by `runSalsa_eq`. -/
theorem roundsAreTheirStepTables : Obligations.RoundsAreTheirStepTables := by
  unfold Obligations.RoundsAreTheirStepTables
  refine ⟨arx_getElem, by decide, quarterRound_eq_runSteps, fun x => ?_, fun n inp u => ?_⟩
  · exact ⟨rfl, columnRound_eq_runSteps x, rfl, rowRound_eq_runSteps x, rfl⟩
  · rw [runSalsa_eq]
    exact ⟨salsaCore_getElem n inp, rfl, rfl⟩

/-- Settles O19: SALSA's results are one write of the core's 64 bytes over the first 64 of B. -/
theorem salsaCommand : Obligations.SalsaCommand := by
  unfold Obligations.SalsaCommand
  refine commandRule_of_results (i := .salsa) (by simp [unsupported]) fun s hs _ => ?_
  have hresults : resultsOf .salsa s = _ := salsaResults_eq s hs.quiet.seq
  rw [hresults]
  generalize hout : blockBytes [salsaCore s.regs.rounds.toNat (blockAt (leWords (s.b.readBytes 0 64)) 0)] = out
  have hlen : out.length = 64 := by rw [← hout, blockBytes_length, List.length_singleton]
  refine ⟨⟨rfl, rfl, rfl, rfl, rfl, rfl, rfl, rfl⟩, ?_, ?_, ⟨fun _ => rfl, fun _ => rfl⟩, ⟨rfl, rfl, fun _ => rfl⟩, rfl⟩
  · exact hlen ▸ Mem.readBytes_writeBytes s.b 0 out
  · exact hlen ▸ Mem.writeBytes_sameBytesOutside s.b 0 out

end Sys2Proof.Machine
end

section
/-! SUPPORT. The rule of a command whose results are one write of bytes over a range of B, the length of a range of B
written back after mixing, and the words and running states of a list of blocks (R11, R86, R87). -/

namespace Sys2Proof.Machine

/-! ## A command that writes one range of B -/

/-- A write to B leaves the control state alone. -/
theorem KeepsControl.writeB (s : State) (m : Mem) : KeepsControl s { s with b := m } :=
  ⟨rfl, rfl, rfl, rfl, rfl, rfl, rfl, rfl⟩

/-- A command follows its rule with one range of B written when, on a sound state that passes its checks, its results
are that write. -/
theorem commandRule_of_writeB {i : Instr} (hi : ¬ unsupported i) {a n : State → Nat} {out : State → Bytes}
    (hlen : ∀ s, (out s).length = n s)
    (hresults : ∀ s : State, s.Sound → (∀ c ∈ checksOf i, c.fails s = false) →
      resultsOf i s = { s with b := s.b.writeBytes (a s) (out s) }) :
    CommandRule i i.opc (checksOf i) fun s t =>
      t.b.readBytes (a s) (n s) = out s
        ∧ SameBytesOutside (a s) (n s) s.b t.b ∧ KeepsKeySalt s t ∧ KeepsStreamSide s t
        ∧ t.workerTurns = s.workerTurns := by
  refine commandRule_of_results hi fun s hs hpass => ?_
  rw [hresults s hs hpass, ← hlen s]
  refine ⟨.writeB s _, ?_, ?_, ⟨fun _ => rfl, fun _ => rfl⟩, ⟨rfl, rfl, fun _ => rfl⟩, rfl⟩
  · exact Mem.readBytes_writeBytes s.b (a s) (out s)
  · exact Mem.writeBytes_sameBytesOutside s.b (a s) (out s)

/-! ## The bytes of mixed blocks -/

/-- As many blocks as 128·r bytes hold are 128·r bytes again (R67). -/
theorem blockBytes_length_of_readBlocks {m : Mem} {a r : Nat} {bs : List Block}
    (h : bs.length = (m.readBlocks a (128 * r)).length) : (blockBytes bs).length = 128 * r := by
  rw [blockBytes_length, h, Mem.readBlocks_length]
  omega

/-! ## The words of a list of blocks (R11) -/

/-- Word 16k + i of a list of blocks is word i of block k. -/
theorem wordsOf_getD (bs : List Block) (k : Nat) {i : Nat} (hi : i < 16) :
    (wordsOf bs).getD (16 * k + i) 0 = (bs.getD k zeroBlock)[i] := by
  induction bs generalizing k with
  | nil => simp [wordsOf, zeroBlock]
  | cons b bs ih =>
    have hcons : wordsOf (b :: bs) = b.toList ++ wordsOf bs := List.flatMap_cons
    rw [hcons]
    cases k with
    | zero =>
      rw [List.getD_append _ _ _ _ (by simpa using hi)]
      simp [hi]
    | succ k =>
      have hindex : 16 * (k + 1) + i - b.toList.length = 16 * k + i := by
        rw [Vector.length_toList]
        omega
      rw [List.getD_append_right _ _ _ _ (by rw [Vector.length_toList]; omega), hindex, ih, List.getD_cons_succ]

/-- Masking with N - 1 is reduction modulo N, for N a power of two (R90). -/
theorem toNat_and_sub_one {n : Word} {e : Nat} (hn : n.toNat = 2 ^ e) (w : Word) :
    (w &&& (n - 1)).toNat = w.toNat % n.toNat := by
  have hone : (1 : Word) ≤ n := BitVec.le_def.mpr (hn ▸ Nat.one_le_two_pow)
  have hmask : (n - 1).toNat = 2 ^ e - 1 := by rw [BitVec.toNat_sub_of_le hone, hn]; rfl
  rw [BitVec.toNat_and, hmask, Nat.and_two_pow_sub_one_eq_mod, hn]

/-! ## The running states of BlockMix (R86) -/

/-- Each running state is the core of the one before it xor the next input block. -/
theorem runningState_succ {bs : List Block} (q : Block) {k : Nat} (hk : k < bs.length) :
    runningState bs q (k + 1) = salsaCore 8 (xorBlock (runningState bs q k) (bs.getD k zeroBlock)) :=
  mixRun_getD_succ bs q k hk

theorem mixPosition_even (r i : Nat) : mixPosition r (2 * i) = i := by
  simp [mixPosition]

theorem mixPosition_odd (r i : Nat) : mixPosition r (2 * i + 1) = r + i := by
  have hodd : (2 * i + 1) % 2 ≠ 0 := by omega
  have hhalf : (2 * i + 1) / 2 = i := by omega
  rw [mixPosition, if_neg hodd, hhalf]

end Sys2Proof.Machine
end

section
/-! Settles the statements about BlockMix and SMix: Integerify, the order of BlockMix, and the BLOCKMIX and SMIX
commands (R86 to R95). -/

namespace Sys2Proof.Machine

/-- Settles O36: the mask N - 1 reduces modulo N, and the last block's first word is word 16(2r-1). -/
theorem integerifyIsFirstWordOfLastBlock : Obligations.IntegerifyIsFirstWordOfLastBlock := by
  unfold Obligations.IntegerifyIsFirstWordOfLastBlock
  intro n e r st hn hst _
  have hword : (wordsOf st).getD (16 * (2 * r - 1)) 0 = integerify st := by
    rw [integerify, getLastD_eq_getD st (2 * r) hst]
    exact wordsOf_getD st (2 * r - 1) (by decide : 0 < 16)
  rw [hword]
  exact toNat_and_sub_one hn (integerify st)

/-- Settles O37: the running states from the last block, whose results `blockMix_getD` puts at R87's positions. -/
theorem blockMixDeinterleaves : Obligations.BlockMixDeinterleaves := by
  unfold Obligations.BlockMixDeinterleaves
  intro r bs _ hbs
  refine ⟨runningState bs (bs.getLastD zeroBlock), getLastD_eq_getD bs (2 * r) hbs,
    fun k hk => runningState_succ _ (hbs ▸ hk), by rw [blockMix_length, hbs], fun i hi => ⟨?_, ?_⟩⟩
  · have heven := blockMix_getD hbs (show 2 * i < 2 * r by omega)
    rwa [mixPosition_even] at heven
  · have hodd := blockMix_getD hbs (show 2 * i + 1 < 2 * r by omega)
    rwa [mixPosition_odd] at hodd

/-- Settles O20: BLOCKMIX's results are one write of the mixed blocks over the first 128·R bytes of B. -/
theorem blockmixCommand : Obligations.BlockmixCommand := by
  unfold Obligations.BlockmixCommand
  refine commandRule_of_writeB (i := .blockmix) (a := fun _ => 0) (by simp [unsupported]) (fun s => ?_)
    fun s hs _ => blockMixResults_eq s hs.quiet.seq
  exact blockBytes_length_of_readBlocks (blockMix_length (s.b.readBlocks 0 (128 * s.regs.r.toNat)))

/-- Settles O21: SMIX's results are one write of the mixed lane over the lane, the check of N having passed. -/
theorem smixCommand : Obligations.SmixCommand := by
  unfold Obligations.SmixCommand
  refine commandRule_of_writeB (i := .smix) (a := fun s => s.regs.lane.toNat * (128 * s.regs.r.toNat))
    (by simp [unsupported]) (fun s => ?_) fun s hs hpass => ?_
  · exact blockBytes_length_of_readBlocks (smix_length s.regs.n (s.b.readBlocks _ (128 * s.regs.r.toNat)))
  · have hn : s.regs.n ≠ 0 := Check.pass_n (hpass .n (by simp [checksOf]))
    exact smixResults_eq s hs.quiet hn

end Sys2Proof.Machine
end

section
/-! SUPPORT. The rule of a command that writes nothing but the stream, what a stream just opened or closed holds, the
seek's target and checks, and that the host's accesses leave the stream alone (R38, R112 to R118). -/

namespace Sys2Proof.Machine

/-! ## A command that writes the stream -/

/-- A write of the stream leaves the control state alone. -/
theorem KeepsControl.writeStream (s : State) (u : Stream) : KeepsControl s { s with stream := u } :=
  ⟨rfl, rfl, rfl, rfl, rfl, rfl, rfl, rfl⟩

/-- A command follows its rule with the stream written and all else kept when its results are that write. -/
theorem commandRule_of_writeStream {i : Instr} (hi : ¬ unsupported i) {out : State → Stream}
    (hresults : ∀ s : State, resultsOf i s = { s with stream := out s }) :
    CommandRule i i.opc (checksOf i) fun s t =>
      t.stream = out s ∧ KeepsKeySalt s t ∧ SameBytes s.b t.b ∧ SameBytes s.out t.out ∧ t.readCount = s.readCount
        ∧ t.workerTurns = s.workerTurns := by
  refine commandRule_of_results hi fun s _ _ => ?_
  rw [hresults s]
  exact ⟨.writeStream s _, rfl, ⟨fun _ => rfl, fun _ => rfl⟩, fun _ => rfl, fun _ => rfl, rfl, rfl⟩

/-- A command that follows a rule follows every rule whose effect is implied. -/
theorem CommandRule.mono {i : Instr} {opc : Byte} {row : List Check} {e e' : State → State → Prop}
    (h : CommandRule i opc row e) (himp : ∀ s t, e s t → e' s t) : CommandRule i opc row e' := by
  intro s hs
  obtain ⟨hfail, hpass⟩ := h s hs
  refine ⟨hfail, fun hnone => ?_⟩
  obtain ⟨t, hexec, hfin, he⟩ := hpass hnone
  exact ⟨t, hexec, hfin, himp s t he⟩

/-! ## The stream just opened or closed (R112, R118) -/

/-- SLEN is the length of the open stream's domain (R35, R107). -/
theorem State.streamLen_of_isOpen {s : State} (h : s.stream.isOpen = true) :
    s.streamLen = s.stream.ssel.hLen * (2 ^ 32 - 1) := if_pos h

/-- SLEN of the closed stream is 0 (R35, R110). -/
theorem State.streamLen_of_closed {s : State} (h : s.stream = Stream.closed) : s.streamLen = 0 := by
  rw [State.streamLen, h]
  rfl

/-- Nothing of an older key is left beyond the new one. -/
theorem Stream.reopen_skey_read {key salt : Bytes} {c : Word} {k : Binding} {u : Stream} {a : Nat}
    (h : key.length ≤ a) : (u.reopen key salt c k).skey.read a = 0 :=
  Mem.read_zero_of_within (Mem.within_ofBytes key) h

/-- Nothing of an older salt is left beyond the new one. -/
theorem Stream.reopen_ssalt_read {key salt : Bytes} {c : Word} {k : Binding} {u : Stream} {a : Nat}
    (h : salt.length ≤ a) : (u.reopen key salt c k).ssalt.read a = 0 :=
  Mem.read_zero_of_within (Mem.within_ofBytes salt) h

/-- The cached block of a stream just opened is wiped. -/
theorem Stream.reopen_cacheBytes_zero {key salt : Bytes} {c : Word} {k : Binding} {u : Stream} :
    ∀ v ∈ (u.reopen key salt c k).cacheBytes, v = 0 := fun _ hv => List.eq_of_mem_replicate hv

/-! ## The host's accesses and the stream (R38) -/

@[simp] theorem State.respond_stream (okay : Bool) (v : Word) (s : State) : (s.respond okay v).stream = s.stream := rfl

@[simp] theorem State.setWindow_stream (w : Window) (m : Mem) (s : State) : (s.setWindow w m).stream = s.stream := by
  cases w <;> rfl

@[simp] theorem State.writeCmd_stream (v : Word) (s : State) : (s.writeCmd v).stream = s.stream := by
  unfold State.writeCmd
  split
  next => exact s.accept_stream v
  next => exact s.setOverrun_stream

@[simp] theorem State.writeOperand_stream (g : OperandRegs) (s : State) : (s.writeOperand g).stream = s.stream := by
  unfold State.writeOperand
  split
  next => rfl
  next => exact s.setOverrun_stream

@[simp] theorem State.writeCsr_stream (reg : Csr) (v : Word) (s : State) : (s.writeCsr reg v).stream = s.stream := by
  unfold State.writeCsr
  split
  next => exact s.writeCmd_stream v
  next => exact s.writeStatus_stream v
  next => rfl
  next =>
    split
    next g _ => exact s.writeOperand_stream g
    next => rfl

@[simp] theorem State.writeValue_stream (s : State) (size : AccessSize) (v : Word) (tgt : Target) :
    (s.writeValue size v tgt).stream = s.stream := by
  cases tgt with
  | csr off =>
    unfold State.writeValue
    dsimp only
    split
    next reg _ => exact s.writeCsr_stream reg v
    next => rfl
  | window w off =>
    unfold State.writeValue
    dsimp only
    split
    next => exact s.setWindow_stream w _
    next => exact s.setOverrun_stream
  | unmapped => rfl

/-- No host access reaches the stream (R38). -/
@[simp] theorem State.access_stream (a : HostAccess) (s : State) : (s.access a).stream = s.stream := by
  obtain ⟨okay, v, h⟩ | ⟨_, size, v, tgt, _, _, h⟩ := s.access_cases a
  · rw [h, State.respond_stream]
  · rw [h, State.respond_stream, State.writeValue_stream]

/-! ## Seeking (R114, R115) -/

/-- The STREAM_SEEK of each origin (R69). -/
def seekInstr : SeekOrigin → Instr
  | .fromBegin => .streamSeekBegin
  | .fromCurrent => .streamSeekCurrent
  | .fromEnd => .streamSeekEnd

/-- A STREAM_SEEK checks that the stream is open and the target in range, and then writes the cursor alone. -/
theorem seek_commandRule (o : SeekOrigin) :
    CommandRule (seekInstr o) 0x0A [.opened, .seek o] fun s t =>
      t.stream = { s.stream with pos := (s.seekTarget o).toNat } ∧ KeepsKeySalt s t ∧ SameBytes s.b t.b
        ∧ SameBytes s.out t.out ∧ t.readCount = s.readCount ∧ t.workerTurns = s.workerTurns := by
  cases o with
  | fromBegin => exact commandRule_of_writeStream (i := .streamSeekBegin) (by simp [unsupported]) fun _ => rfl
  | fromCurrent => exact commandRule_of_writeStream (i := .streamSeekCurrent) (by simp [unsupported]) fun _ => rfl
  | fromEnd => exact commandRule_of_writeStream (i := .streamSeekEnd) (by simp [unsupported]) fun _ => rfl

/-- The seek offset is the 64-bit number of the two registers, less 2^64 where the sign bit is set (R34). -/
theorem State.seekOffset_eq (s : State) :
    s.seekOffset = ((s.regs.seekOffHi.toNat * 2 ^ 32 + s.regs.seekOffLo.toNat : Nat) : Int)
      - (if 2 ^ 31 ≤ s.regs.seekOffHi.toNat then 2 ^ 64 else 0) := by
  have hlo := s.regs.seekOffLo.isLt
  have hval : (s.regs.seekOffHi ++ s.regs.seekOffLo : BitVec 64).toNat
      = s.regs.seekOffHi.toNat * 2 ^ 32 + s.regs.seekOffLo.toNat := by
    rw [BitVec.toNat_append, Nat.shiftLeft_eq, Nat.mul_comm, ← Nat.two_pow_add_eq_or_of_lt hlo]
  rw [State.seekOffset, BitVec.toInt_eq_toNat_cond, hval]
  split <;> split <;> omega

theorem firstFailing_seek_closed {s : State} (o : SeekOrigin) (h : s.stream.isOpen = false) :
    firstFailing s [.opened, .seek o] = some .opened := by
  simp [firstFailing, Check.fails, h]

theorem firstFailing_seek_outOfRange {s : State} {o : SeekOrigin} (h : s.stream.isOpen = true)
    (ht : s.seekTarget o < 0 ∨ 2 ^ 63 - 1 < s.seekTarget o) :
    firstFailing s [.opened, .seek o] = some (.seek o) := by
  simp only [firstFailing, Check.fails, h, ht, Bool.not_true, Bool.false_eq_true, decide_true, if_false, if_true]

theorem firstFailing_seek_inRange {s : State} {o : SeekOrigin} (h : s.stream.isOpen = true)
    (hlo : 0 ≤ s.seekTarget o) (hhi : s.seekTarget o ≤ 2 ^ 63 - 1) :
    firstFailing s [.opened, .seek o] = none := by
  have hin : ¬ (s.seekTarget o < 0 ∨ 2 ^ 63 - 1 < s.seekTarget o) := by omega
  simp only [firstFailing, Check.fails, h, hin, Bool.not_true, Bool.false_eq_true, decide_false, if_false]

/-! ## The commands the read-only stream refuses (R116, R117) -/

/-- An unsupported command, whatever the state, completes with UNSUPPORTED_OPERATION and nothing else. -/
theorem exec_unsupported_rejected {i : Instr} (h : unsupported i) (s : State) :
    ∃ t, exec i s = .next t ∧ Rejected i.opc 3 s t ∧ t.errCodeWord = i.opc.setWidth 32 <<< 8 ||| 3 :=
  have hrej := s.complete_rejected i.opc .unsupportedOperation
  ⟨_, exec_unsupported i s h, hrej, hrej.1.errCode⟩

end Sys2Proof.Machine
end

section
/-! Settles the statements about OPEN_PBKDF2, STREAM_SEEK, STREAM_WRITE, STREAM_SETLEN and CLOSE (R112 to R118). -/

namespace Sys2Proof.Machine

/-- Settles O26: OPEN_PBKDF2's results are one write of the stream, reopened on copies of the key and the salt. -/
theorem openPbkdf2Command : Obligations.OpenPbkdf2Command := by
  unfold Obligations.OpenPbkdf2Command
  have hrule := commandRule_of_writeStream (i := .openPbkdf2) (by simp [unsupported]) fun _ => rfl
  refine hrule.mono fun s t ⟨hstream, hks, hb, hout, hcount, hturns⟩ => ?_
  have hlen : t.streamLen = s.binding.hLen * (2 ^ 32 - 1) := by
    rw [State.streamLen_of_isOpen (by rw [hstream]; rfl), hstream]
    rfl
  have hkeyLen : s.keyBytes.length = s.regs.keyLen.toNat := s.key.readBytes_length 0 _
  have hsaltLen : s.saltBytes.length = s.regs.saltLen.toNat := s.salt.readBytes_length 0 _
  rw [hstream]
  refine ⟨rfl, Stream.reopen_keyBytes .., Stream.reopen_saltBytes .., rfl, rfl, rfl, rfl,
    Stream.reopen_cacheBytes_zero, hlen, fun a ha => ?_, fun a ha => ?_, fun a => ?_, hks, hb, hcount, hout,
    hturns⟩
  · exact Stream.reopen_skey_read (hkeyLen ▸ ha)
  · exact Stream.reopen_ssalt_read (hsaltLen ▸ ha)
  · rw [State.access_stream, hstream]

/-- Settles O28: the three origins are one rule, whose first failing check the stream and the target decide. -/
theorem streamSeekCommands : Obligations.StreamSeekCommands := by
  unfold Obligations.StreamSeekCommands
  refine ⟨⟨.reservedOrigin, by decide⟩, fun i base horigin s hs off hoff => ?_⟩
  obtain ⟨o, rfl, hbase⟩ : ∃ o, i = seekInstr o ∧ base s = s.seekBase o := by
    obtain ⟨rfl, rfl⟩ | ⟨rfl, rfl⟩ | ⟨rfl, rfl⟩ := horigin
    · exact ⟨.fromBegin, rfl, rfl⟩
    · exact ⟨.fromCurrent, rfl, rfl⟩
    · exact ⟨.fromEnd, rfl, rfl⟩
  have htarget : base s + off = s.seekTarget o := by rw [hoff, hbase, State.seekTarget, State.seekOffset_eq]
  obtain ⟨hfail, hpass⟩ := seek_commandRule o s hs
  rw [htarget]
  refine ⟨fun hclosed => ?_, fun hopen hout => ?_, fun hopen hlo hhi => ?_⟩
  · exact hfail .opened (firstFailing_seek_closed o hclosed)
  · exact hfail (.seek o) (firstFailing_seek_outOfRange hopen hout)
  · obtain ⟨t, hexec, hfin, hstream, hkeep⟩ := hpass (firstFailing_seek_inRange hopen hlo hhi)
    have hpos : t.stream.pos = (s.seekTarget o).toNat := by rw [hstream]
    exact ⟨t, hexec, hfin, hpos ▸ Int.toNat_of_nonneg hlo, hpos ▸ hstream, hkeep⟩

/-- Settles O29: both commands are refused in every state, open or closed. -/
theorem streamIsReadOnly : Obligations.StreamIsReadOnly := by
  unfold Obligations.StreamIsReadOnly
  exact fun s _ => ⟨exec_unsupported_rejected (.inl rfl) s, exec_unsupported_rejected (.inr rfl) s⟩

/-- Settles O30: CLOSE has no checks, and its results are the stream of reset. -/
theorem closeCommand : Obligations.CloseCommand := by
  unfold Obligations.CloseCommand
  intro s hs
  have hrule := commandRule_of_writeStream (i := .close) (by simp [unsupported]) fun _ => rfl
  obtain ⟨t, hexec, hfin, hstream, hkeep⟩ := (hrule s hs).2 rfl
  have hlen : t.streamLen = 0 := State.streamLen_of_closed hstream
  have hsame : s.stream.isOpen = false → t.stream = s.stream := fun hclosed =>
    hstream.trans (hs.stream.closed hclosed).symm
  refine ⟨t, hexec, hfin, hfin.errCode, ?_, ?_, hlen, hsame, hkeep⟩
  · exact hstream ▸ fun _ => ⟨rfl, rfl⟩
  · exact hstream ▸ ⟨rfl, rfl, rfl, rfl, rfl, rfl, rfl, fun _ hv => List.eq_of_mem_replicate hv, rfl⟩

end Sys2Proof.Machine
end

section
/-! SUPPORT. The control commands on a sound state: completion without results and zeroed windows, and what a host write
to CMD does before the command it names runs (R50, R125, R126, R129). -/

namespace Sys2Proof.Machine

/-! ## Completion of a quiet state (R130) -/

/-- Clearing scratch that is already clear changes nothing (R17). -/
theorem State.quieten_of_quiet {s : State} (h : s.Quiet) : s.quieten = s := by
  obtain ⟨hclaim, hseq, hpbk, hunits⟩ := h
  have hmap : s.units.map (fun _ => Worker.quiet) = s.units :=
    (List.map_congr_left fun u hu => (hunits u hu).symm).trans s.units.map_id
  rw [State.quieten, hmap, ← hclaim, ← hseq, ← hpbk]

/-- From a quiet state a completion writes ENGINE_STATE, DONE, ERR and ERR_CODE alone. -/
theorem State.complete_of_quiet {s : State} (h : s.Quiet) (opc : Byte) (e : ErrorCode) :
    s.complete opc e
      = { s with engine := .idle, done := true, err := decide (e ≠ .none), errCode := e.code, errOpc := opc } := by
  rw [State.complete, State.quieten_of_quiet h]

/-- NOP is its completion, in every state (R125). -/
theorem exec_nop (s : State) : exec .nop s = .next (s.complete 0 .none) :=
  runCommand_pass fun _ hc => absurd hc List.not_mem_nil

/-! ## A host write to CMD and the turn that follows (R128, R129) -/

theorem hostWrite_cmd_idle {s : State} (hc : s.cfg.wf = true) (he : s.engine = .idle) (v : Word) :
    hostWrite .four 0x020 v s = (s.accept v).respond true 0 :=
  (hostWrite_csr hc .cmd v).trans (by rw [State.writeCsr, State.writeCmd, he])

theorem hostWrite_cmd_running {s : State} {cw : Word} (hc : s.cfg.wf = true) (he : s.engine = .running cw) (v : Word) :
    hostWrite .four 0x020 v s = s.setOverrun.respond true 0 :=
  (hostWrite_csr hc .cmd v).trans (by rw [State.writeCsr_dropped he v (by decide)])

/-- The turn of an engine that runs a word of R69's table is that word's command. -/
theorem engineStep_tableWord {s : State} {i : Instr} (he : s.engine = .running (tableWord i)) :
    engineStep s = exec i s := by
  have hdecode : decode (tableWord i) = .ok i := decode_eq_ok_iff.mpr (encode_eq_tableWord i).symm
  simp only [engineStep, he, hdecode]

/-! ## The results of ZEROIZE (R126) -/

/-- ZEROIZE's wipes reach every byte of the windows, so that they read zero at every offset. -/
theorem zeroizeResults_eq {s : State} (hs : s.Sound) :
    zeroizeResults s = { s with stream := .closed, key := [], salt := [], b := [], out := [] } := by
  rw [zeroizeResults, hs.key.wipe_all, hs.salt.wipe_all, hs.b.wipe_all, hs.out.wipe_all, closeResults]

/-- The stream and the windows are no part of the control state. -/
theorem KeepsControl.writeStreamAndWindows (s : State) (u : Stream) (key salt b out : Mem) :
    KeepsControl s { s with stream := u, key := key, salt := salt, b := b, out := out } :=
  ⟨rfl, rfl, rfl, rfl, rfl, rfl, rfl, rfl⟩

end Sys2Proof.Machine
end

section
/-! Settles the statements about NOP and ZEROIZE (R125, R126). -/

namespace Sys2Proof.Machine

/-- Settles O18: a sound state's scratch is clear, so NOP's completion writes the flags and ERR_CODE alone; the write to
CMD is dropped while RUNNING and accepted on the fresh engine. -/
theorem nopOnlyCompletes : Obligations.NopOnlyCompletes := by
  unfold Obligations.NopOnlyCompletes
  refine ⟨fun s hs => ⟨?_, fun cw hrun => ?_⟩, ?_⟩
  · rw [exec_nop, State.complete_of_quiet hs.quiet]
    rfl
  · rw [hostWrite_cmd_running hs.cfg hrun]
    rfl
  · rw [hostWrite_cmd_idle (by decide) rfl, engineStep_tableWord rfl, exec_nop]
    exact ⟨_, rfl, by decide⟩

/-- Settles O31: ZEROIZE has no checks, and its results are the closed stream and four empty windows. -/
theorem zeroizeCommand : Obligations.ZeroizeCommand := by
  unfold Obligations.ZeroizeCommand
  have hrule : CommandRule .zeroize 0x0E [] fun s t =>
      t.stream = Stream.closed ∧ (t.key = [] ∧ t.salt = [] ∧ t.b = [] ∧ t.out = [])
        ∧ t.readCount = s.readCount ∧ t.workerTurns = s.workerTurns := by
    refine commandRule_of_results (i := .zeroize) (by simp [unsupported]) fun s hs _ => ?_
    have hresults : resultsOf .zeroize s = _ := zeroizeResults_eq hs
    rw [hresults]
    exact ⟨.writeStreamAndWindows s .., rfl, ⟨rfl, rfl, rfl, rfl⟩, rfl, rfl⟩
  intro s hs
  obtain ⟨t, hexec, hfin, hstream, ⟨hkey, hsalt, hb, hout⟩, hkeep⟩ := (hrule s hs).2 rfl
  refine ⟨t, hexec, hfin, hfin.errCode, hstream, State.streamLen_of_closed hstream, fun a => ?_, hkeep⟩
  simp only [hkey, hsalt, hb, hout, Mem.read_nil, and_self]

end Sys2Proof.Machine
end

section
/-! SUPPORT. The life of a command word, said once: while RUNNING no host access changes more than flags (R49, R50), the
turn of a running word is a completion with R135's code, results leave IRQ_EN alone, and the arithmetic of the checks
of N, ROUNDS and DOM (R133). -/

namespace Sys2Proof.Machine

/-! ## Host accesses while RUNNING (R49, R50) -/

/-- Two states differ at most in DONE, ERR, OVERRUN, IRQ_EN and the last answer. -/
def DiffersInFlags (s t : State) : Prop :=
  ∃ done err overrun irqEn resp,
    t = { s with done := done, err := err, overrun := overrun, irqEn := irqEn, resp := resp }

theorem DiffersInFlags.refl (s : State) : DiffersInFlags s s := ⟨_, _, _, _, _, rfl⟩

theorem DiffersInFlags.setOverrun (s : State) : DiffersInFlags s s.setOverrun := ⟨_, _, _, _, _, rfl⟩

theorem DiffersInFlags.writeStatus (s : State) (v : Word) : DiffersInFlags s (s.writeStatus v) := ⟨_, _, _, _, _, rfl⟩

theorem DiffersInFlags.writeCtrl (s : State) (v : Word) : DiffersInFlags s (s.writeCsr .ctrl v) :=
  ⟨_, _, _, _, _, rfl⟩

theorem DiffersInFlags.respond {s t : State} (h : DiffersInFlags s t) (okay : Bool) (v : Word) :
    DiffersInFlags s (t.respond okay v) := by
  obtain ⟨_, _, _, _, _, rfl⟩ := h
  exact ⟨_, _, _, _, _, rfl⟩

theorem State.writeCsr_running {s : State} {cw : Word} (he : s.engine = .running cw) (reg : Csr) (v : Word) :
    DiffersInFlags s (s.writeCsr reg v) := by
  by_cases hdropped : reg.offset ∈ droppedOffsets
  · rw [State.writeCsr_dropped he v hdropped]
    exact .setOverrun s
  by_cases hstatus : reg = .status
  · exact hstatus ▸ .writeStatus s v
  by_cases hctrl : reg = .ctrl
  · exact hctrl ▸ .writeCtrl s v
  rw [State.writeCsr_ignored v hstatus hctrl hdropped]
  exact .refl s

theorem State.writeValue_running {s : State} {cw : Word} (he : s.engine = .running cw) (size : AccessSize) (v : Word)
    (tgt : Target) : DiffersInFlags s (s.writeValue size v tgt) := by
  cases tgt with
  | csr off =>
    unfold State.writeValue
    dsimp only
    split
    next reg _ => exact State.writeCsr_running he reg v
    next => exact .refl s
  | window w off =>
    rw [State.writeValue_window_running he]
    exact .setOverrun s
  | unmapped => exact .refl s

/-- No host access reaches the command, the operands or the spaces of a RUNNING engine. -/
theorem State.access_running {s : State} {cw : Word} (he : s.engine = .running cw) (a : HostAccess) :
    DiffersInFlags s (s.access a) := by
  obtain ⟨okay, v, h⟩ | ⟨_, size, v, tgt, _, _, h⟩ := s.access_cases a
  · exact h ▸ (DiffersInFlags.refl s).respond okay v
  · exact h ▸ (State.writeValue_running he size v tgt).respond true 0

/-! ## The bits of STATUS (R24) -/

theorem State.statusWord_busy (s : State) : s.statusWord.getLsbD 0 = s.busy := by
  simp only [State.statusWord, BitVec.getLsbD_append]
  simp

theorem State.statusWord_irq (s : State) : s.statusWord.getLsbD 5 = s.irq := by
  simp only [State.statusWord, BitVec.getLsbD_append]
  simp

/-! ## The code a running word completes with (R135) -/

/-- The statements' rows of R135 are the rows `exec` runs. -/
theorem checkRow_eq_checksOf (i : Instr) : checkRow i = checksOf i := by cases i <;> rfl

theorem expectedCode_illegal {cw : Word} {x : Illegal} (hd : decode cw = .error x) (s : State) :
    expectedCode s cw = .illegalCommand := by
  simp only [expectedCode, hd]

theorem expectedCode_unsupported {cw : Word} {i : Instr} (hd : decode cw = .ok i) (hi : unsupported i) (s : State) :
    expectedCode s cw = .unsupportedOperation := by
  simp only [expectedCode, hd]
  exact if_pos hi

theorem expectedCode_fail {s : State} {cw : Word} {i : Instr} {c : Check} (hd : decode cw = .ok i)
    (hi : ¬ unsupported i) (hc : firstFailing s (checksOf i) = some c) : expectedCode s cw = c.error := by
  simp only [expectedCode, hd, checkRow_eq_checksOf, hc]
  exact if_neg hi

theorem expectedCode_pass {s : State} {cw : Word} {i : Instr} (hd : decode cw = .ok i) (hi : ¬ unsupported i)
    (hc : firstFailing s (checksOf i) = none) : expectedCode s cw = .none := by
  simp only [expectedCode, hd, checkRow_eq_checksOf, hc]
  exact if_neg hi

/-- The turn of a running word is a completion, with the code R135 names. -/
theorem engineStep_completes {s : State} {cw : Word} (he : s.engine = .running cw) :
    ∃ (u : State) (opc : Byte), engineStep s = .next (u.complete opc (expectedCode s cw)) := by
  cases hd : decode cw with
  | error x =>
    rw [expectedCode_illegal hd]
    exact ⟨s, _, engineStep_illegal he hd⟩
  | ok i =>
    rw [engineStep_running he hd]
    by_cases hi : unsupported i
    · rw [expectedCode_unsupported hd hi]
      exact ⟨s, _, exec_unsupported i s hi⟩
    rw [exec_eq_runCommand i s hi]
    cases hc : firstFailing s (checksOf i) with
    | some c =>
      rw [expectedCode_fail hd hi hc]
      exact ⟨s, _, runCommand_fail hc⟩
    | none =>
      rw [expectedCode_pass hd hi hc]
      exact ⟨_, _, runCommand_pass ((firstFailing_none s _).mp hc)⟩

/-! ## The interrupt after a completion (R139) -/

/-- No command's results write IRQ_EN. -/
@[simp] theorem resultsOf_irqEn (i : Instr) (s : State) : (resultsOf i s).irqEn = s.irqEn := by cases i <;> rfl

/-- Completion sets DONE, so that IRQ is IRQ_EN. -/
@[simp] theorem State.complete_irq (opc : Byte) (e : ErrorCode) (s : State) : (s.complete opc e).irq = s.irqEn :=
  Bool.true_and s.irqEn

/-! ## The arithmetic of the checks (R133) -/

/-- A word is a power of two exactly when it is not 0 and shares no bit with its predecessor. -/
theorem word_isPowerOfTwo_iff (n : Word) : n ≠ 0 ∧ n &&& (n - 1) = 0 ↔ ∃ e, n.toNat = 2 ^ e := by
  have hpow : n.toNat ≠ 0 ∧ n.toNat &&& (n.toNat - 1) = 0 ↔ ∃ e, n.toNat = 2 ^ e :=
    Nat.ne_zero_and_sub_one_eq_zero_iff_isPowerOfTwo
  have hzero : n ≠ 0 ↔ n.toNat ≠ 0 := not_congr BitVec.toNat_inj.symm
  rw [← hpow, hzero]
  refine and_congr_right fun hne => ?_
  have hone : (1 : Word) ≤ n := BitVec.le_def.mpr (Nat.one_le_iff_ne_zero.mpr hne)
  rw [← BitVec.toNat_inj, BitVec.toNat_and, BitVec.toNat_sub_of_le hone]
  rfl

/-- The check of N: a power of two. -/
theorem Check.fails_n_iff (s : State) : Check.n.fails s = true ↔ ¬ ∃ e, s.regs.n.toNat = 2 ^ e := by
  rw [← word_isPowerOfTwo_iff, not_and_or, not_not]
  simp only [Check.fails, Bool.or_eq_true, beq_iff_eq, bne_iff_ne, ne_eq]

/-- The check of ROUNDS: an even number from 2 to 20. -/
theorem Check.fails_rounds_iff (s : State) :
    Check.rounds.fails s = true ↔ s.regs.rounds.toNat ∉ [2, 4, 6, 8, 10, 12, 14, 16, 18, 20] := by
  simp only [Check.fails, decide_eq_true_eq, List.mem_cons, List.not_mem_nil, or_false]
  omega

/-- In a sound state HMAC_SEL's bit alone selects the tag length (R29). -/
theorem State.Sound.binding_hLen {s : State} (hs : s.Sound) :
    s.binding.hLen = if s.regs.hmacSel then 64 else 32 := by
  have hbit : s.hmacSelBit = s.regs.hmacSel := by
    cases hsel : s.regs.hmacSel with
    | false => simp [State.hmacSelBit, hsel]
    | true => simp [State.hmacSelBit, hsel, hs.hmacSel hsel]
  rw [State.binding, hbit]
  split <;> rfl

/-- The check of DOM: the lanes are longer than the stream's domain (R107). -/
theorem Check.fails_dom_iff {s : State} (hs : s.Sound) :
    Check.dom.fails s = true
      ↔ (if s.regs.hmacSel then 64 else 32) * (2 ^ 32 - 1) < 128 * s.regs.r.toNat * s.regs.p.toNat := by
  rw [← hs.binding_hLen]
  exact decide_eq_true_iff

/-- The checks of R, P and T fail on a register that is 0. -/
theorem word_beq_zero_iff (v : Word) : (v == 0) = true ↔ v.toNat = 0 := by
  rw [beq_iff_eq, ← BitVec.toNat_inj]
  rfl

end Sys2Proof.Machine
end

section
/-! Settles the statements about acceptance, the checks, the completion codes and the interrupt (R129, R133 to R135,
R139). -/

namespace Sys2Proof.Machine

/-- Settles O13: while IDLE the write to CMD is the acceptance, whose turn completes an illegal word; while RUNNING no
access changes more than flags. -/
theorem acceptanceOfACommand : Obligations.AcceptanceOfACommand := by
  unfold Obligations.AcceptanceOfACommand
  refine fun s hc cw => ⟨fun hidle => ?_, fun w hrun => ⟨hostWrite_cmd_running hc hrun cw, fun a => ?_⟩⟩
  · rw [hostWrite_cmd_idle hc hidle]
    refine ⟨rfl, State.statusWord_busy _, fun x hx => ?_⟩
    exact ⟨_, engineStep_illegal rfl hx, rfl, rfl⟩
  · obtain ⟨_, _, _, _, _, h⟩ := State.access_running hrun a
    rw [h]
    exact ⟨rfl, rfl, rfl, rfl, rfl, rfl⟩

/-- Settles O16: the turn is a completion with R135's code, which sets ERR when it is not NONE. -/
theorem firstFailingCheckDecides : Obligations.FirstFailingCheckDecides := by
  unfold Obligations.FirstFailingCheckDecides
  intro s cw hrun
  obtain ⟨u, opc, h⟩ := engineStep_completes hrun
  exact ⟨_, h, rfl, decide_eq_true_iff⟩

/-- Settles O17: N, DOM and ROUNDS by their arithmetic, every other check by its comparison, and the codes check by
check. -/
theorem checkConditions : Obligations.CheckConditions := by
  unfold Obligations.CheckConditions
  rintro s hs _ _ _ _ rfl rfl rfl rfl
  exact ⟨Check.fails_n_iff s, word_beq_zero_iff _, word_beq_zero_iff _, word_beq_zero_iff _, decide_eq_true_iff,
    Check.fails_dom_iff hs, decide_eq_true_iff, decide_eq_true_iff, decide_eq_true_iff, Check.fails_rounds_iff s,
    beq_iff_eq, decide_eq_true_iff, fun _ => decide_eq_true_iff, decide_eq_true_iff, decide_eq_true_iff,
    decide_eq_true_iff, by decide, by decide⟩

/-- Settles O56: a completion sets DONE and leaves IRQ_EN alone; each of the three events clears one of the two. -/
theorem interruptIsALevel : Obligations.InterruptIsALevel := by
  unfold Obligations.InterruptIsALevel
  refine ⟨fun s => ⟨rfl, s.statusWord_irq⟩, fun i s t h => ?_, fun s v => ⟨fun hdone => ?_, rfl, fun hen => ?_⟩⟩
  · obtain ⟨e, -, he⟩ | ⟨-, -, hpass⟩ := exec_cases i s
    · cases h.symm.trans he
      exact s.complete_irq i.opc e
    · cases h.symm.trans hpass
      rw [State.complete_irq, resultsOf_irqEn]
  · rw [State.irq, State.writeStatus_done, hdone, Bool.not_true, Bool.and_false, Bool.false_and]
  · rw [State.irq, State.writeCsr, hen, Bool.and_false]

end Sys2Proof.Machine
end

section
/-! SUPPORT. Which field values are decoded, and the fields of a word by arithmetic on it (R65, R69, R70). -/

namespace Sys2Proof

/-- The fields of a word of three fields are those fields. -/
@[simp] theorem fieldsOf_wordOf (f : CommandFields) : fieldsOf (wordOf f) = f := by
  obtain ⟨opc, org, rsvd⟩ := f
  simp only [fieldsOf, wordOf, CommandFields.mk.injEq]
  refine ⟨?_, ?_, ?_⟩ <;>
  · apply BitVec.eq_of_getLsbD_eq
    intro k hk
    simp only [BitVec.getLsbD_extractLsb', BitVec.getLsbD_append]
    grind

theorem decode_wordOf (f : CommandFields) : decode (wordOf f) = decodeFields f := by
  rw [decode, fieldsOf_wordOf]

/-- The opcode table has a row for each operation code up to 0x0E. -/
theorem opcodeTable_isSome {opc : Nat} (h : opc ≤ 0x0E) : ∃ i, opcodeTable opc = some i := by
  interval_cases opc <;> exact ⟨_, rfl⟩

/-- The origin table has a row for each origin but 3. -/
theorem originTable_isSome : ∀ org : BitVec 2, org ≠ 3 → ∃ i, originTable org.toNat = some i := by
  simp only [← Option.isSome_iff_exists]
  decide

theorem Instr.fields_wf (i : Instr) : i.fields.wf = true := by cases i <;> rfl

/-- Well-formed fields, ground by ground of R70. -/
theorem CommandFields.wf_iff (f : CommandFields) :
    f.wf = true ↔ f.rsvd = 0 ∧ f.opc.toNat ≤ 0x0E ∧ (if f.opc = 0x0A#8 then f.org ≠ 3 else f.org = 0) := by
  simp only [CommandFields.wf, Bool.and_eq_true, beq_iff_eq, decide_eq_true_eq, BitVec.le_def, and_assoc]
  split <;> simp

/-- Fields decode exactly when they are well formed (R65, R70, R71). -/
theorem exists_decodeFields_iff (f : CommandFields) : (∃ i, decodeFields f = .ok i) ↔ f.wf = true := by
  constructor
  · rintro ⟨i, h⟩
    rw [eq_fields_of_decodeFields h]
    exact i.fields_wf
  · intro h
    obtain ⟨hrsvd, hopc, horg⟩ := f.wf_iff.mp h
    obtain ⟨i, hi⟩ := opcodeTable_isSome hopc
    by_cases hseek : f.opc = 0x0A#8
    · obtain ⟨j, hj⟩ := originTable_isSome f.org (by rwa [if_pos hseek] at horg)
      exact ⟨j, by simp only [decodeFields, hrsvd, hseek, hj]; rfl⟩
    · rw [if_neg hseek] at horg
      exact ⟨i, by simp only [decodeFields, hrsvd, hi, if_neg hseek, horg]; rfl⟩

/-- A word is refused exactly when its fields are not well formed. -/
theorem exists_decode_error_iff (cw : Word) : (∃ x, decode cw = .error x) ↔ ¬ (fieldsOf cw).wf = true := by
  rw [← exists_decodeFields_iff]
  change _ ↔ ¬ ∃ i, decode cw = .ok i
  cases decode cw <;> simp

theorem fieldsOf_opc_toNat (cw : Word) : (fieldsOf cw).opc.toNat = cw.toNat % 2 ^ 8 := by
  simp [fieldsOf, BitVec.extractLsb'_toNat]

theorem fieldsOf_org_toNat (cw : Word) : (fieldsOf cw).org.toNat = cw.toNat / 2 ^ 8 % 4 := by
  simp [fieldsOf, BitVec.extractLsb'_toNat, Nat.shiftRight_eq_div_pow]

theorem fieldsOf_rsvd_toNat (cw : Word) : (fieldsOf cw).rsvd.toNat = cw.toNat / 2 ^ 10 := by
  have hlt := cw.isLt
  simp only [fieldsOf, BitVec.extractLsb'_toNat, Nat.shiftRight_eq_div_pow]
  omega

end Sys2Proof
end

section
/-! Settles the statements about decoding and encoding (R65, R69 to R71). -/

namespace Sys2Proof.Machine

/-- Settles O4: a word and its fields are inverse to each other, a command's fields are well formed and are all that
decodes to it, and well-formed fields are those that decode. -/
theorem decodeAndEncodeAgree : Obligations.DecodeAndEncodeAgree := by
  unfold Obligations.DecodeAndEncodeAgree
  refine ⟨fun i => ⟨i.fields_wf, decode_eq_ok_iff.mpr rfl⟩, fun cw i h => (decode_eq_ok_iff.mp h).symm,
    wordOf_fieldsOf, fun f => ⟨fieldsOf_wordOf f, ?_⟩⟩
  rw [decode_wordOf, exists_decodeFields_iff]

/-- Settles O3: the refused words are those whose fields are not well formed, and R70's grounds are what a field can
lack. -/
theorem illegalWordsAreExactlyThese : Obligations.IllegalWordsAreExactlyThese := by
  unfold Obligations.IllegalWordsAreExactlyThese
  intro cw
  rw [exists_decode_error_iff, CommandFields.wf_iff]
  simp only [← BitVec.toNat_inj, BitVec.ofNat_eq_ofNat, BitVec.toNat_ofNat, ne_eq, fieldsOf_opc_toNat,
    fieldsOf_org_toNat, fieldsOf_rsvd_toNat]
  split <;> omega

/-- Settles O1: each of the seven words is the encoding of its command. -/
theorem sampleWordsDecode : Obligations.SampleWordsDecode := by
  unfold Obligations.SampleWordsDecode
  simp only [decode_eq_ok_iff]
  exact ⟨rfl, rfl, rfl, rfl, rfl, rfl, rfl⟩

end Sys2Proof.Machine
end

section
/-! SUPPORT. What a step can do, said once: the event it takes (R13, R157), the engine's turn (R128), a host access by
its effect (R46 to R51); that every command completes (R130), and soundness under each of them. -/

namespace Sys2Proof.Machine

/-! ## Host accesses by their effect (R46 to R51) -/

/-- What a host access leaves of s: an answer alone, or the one effect of a write, by what the write reaches. -/
inductive HostEffect (s : State) : HostAccess → State → Prop
  /-- A read, an access in error, or a write that is ignored. -/
  | answer (a : HostAccess) (okay : Bool) (v : Word) : HostEffect s a (s.respond okay v)
  /-- A write that a RUNNING engine drops. -/
  | drop (addr : Word) (size : AccessSize) (v : Word) (hbusy : s.busy = true)
      (hoff : (addr - s.cfg.engineBase).toNat ∈ droppedOffsets
        ∨ ∃ w : Window, w.base ≤ (addr - s.cfg.engineBase).toNat
            ∧ (addr - s.cfg.engineBase).toNat < w.base + w.capacity s.cfg) :
      HostEffect s (.write addr size v) (s.setOverrun.respond true 0)
  /-- A write to CMD while IDLE. -/
  | accept (addr cw : Word) (hidle : s.engine = .idle) (hoff : (addr - s.cfg.engineBase).toNat = 0x020) :
      HostEffect s (.write addr .four cw) ((s.accept cw).respond true 0)
  /-- A write to an operand register while IDLE. -/
  | operand (addr v : Word) (g : OperandRegs) (hidle : s.engine = .idle) :
      HostEffect s (.write addr .four v) (State.respond true 0 { s with regs := g })
  /-- A write to STATUS. -/
  | status (addr v : Word) (hoff : (addr - s.cfg.engineBase).toNat = 0x024) :
      HostEffect s (.write addr .four v) ((s.writeStatus v).respond true 0)
  /-- A write to CTRL. -/
  | ctrl (addr v : Word) (en : Bool) : HostEffect s (.write addr .four v) (State.respond true 0 { s with irqEn := en })
  /-- A write to a window while IDLE. -/
  | window (addr : Word) (size : AccessSize) (v : Word) (w : Window) (m : Mem) (hidle : s.engine = .idle) :
      HostEffect s (.write addr size v) ((s.setWindow w m).respond true 0)

/-- A routed access reaches the offset its address has from ENGINE_BASE: a register with 4 bytes, or backed bytes of a
window. -/
theorem Params.route_eq_some {c : Params} {addr : Word} {size : AccessSize} {tgt : Target}
    (h : Params.route c addr size = some tgt) :
    (tgt = .csr (addr - c.engineBase).toNat ∧ size = .four)
      ∨ ∃ w off, tgt = .window w off ∧ (addr - c.engineBase).toNat = w.base + off ∧ off < w.capacity c := by
  have hpos := AccessSize.bytes_pos size
  unfold Params.route Params.target at h
  split at h
  next => cases h
  next =>
    obtain ⟨ht, -⟩ | ⟨w, a, ht, ho⟩ | ht := targetAt_cases (addr - c.engineBase).toNat
    · simp only [ht, Option.ite_none_right_eq_some, Option.some.injEq] at h
      exact .inl ⟨h.2.symm, h.1⟩
    · simp only [ht, Option.ite_none_right_eq_some, Option.some.injEq] at h
      exact .inr ⟨w, a, h.2.symm, ho, by omega⟩
    · simp only [ht, reduceCtorEq] at h

theorem State.idle_or_running (s : State) : s.engine = .idle ∨ ∃ cw, s.engine = .running cw := by
  cases s.engine with
  | idle => exact .inl rfl
  | running cw => exact .inr ⟨cw, rfl⟩

theorem State.busy_of_running {s : State} {cw : Word} (he : s.engine = .running cw) : s.busy = true := by
  rw [State.busy, he]

theorem State.writeOperand_idle {s : State} (he : s.engine = .idle) (g : OperandRegs) :
    s.writeOperand g = { s with regs := g } := by
  unfold State.writeOperand
  split
  next => rfl
  next hrun => cases he.symm.trans hrun

/-- The effect of a routed write to a register. -/
theorem HostEffect.writeCsr {s : State} {addr : Word} {reg : Csr} (v : Word)
    (hoff : (addr - s.cfg.engineBase).toNat = reg.offset) :
    HostEffect s (.write addr .four v) ((s.writeCsr reg v).respond true 0) := by
  by_cases hstatus : reg = .status
  · subst hstatus
    exact .status addr v hoff
  by_cases hctrl : reg = .ctrl
  · subst hctrl
    exact .ctrl addr v _
  by_cases hdropped : reg.offset ∈ droppedOffsets
  · obtain he | ⟨cw, he⟩ := s.idle_or_running
    · obtain rfl | ⟨g, hg⟩ := (Csr.offset_mem_droppedOffsets_iff s.cfg v s.regs reg).mp hdropped
      · rw [State.writeCsr, State.writeCmd, he]
        exact .accept addr v he hoff
      · rw [State.writeCsr_operand hg, State.writeOperand_idle he]
        exact .operand addr v g he
    · rw [State.writeCsr_dropped he v hdropped]
      exact .drop addr .four v (State.busy_of_running he) (.inl (hoff ▸ hdropped))
  · rw [State.writeCsr_ignored v hstatus hctrl hdropped]
    exact .answer _ true 0

/-- Every host access has one of the effects. -/
theorem State.access_effect (s : State) (a : HostAccess) : HostEffect s a (s.access a) := by
  obtain ⟨okay, v, h⟩ | ⟨addr, size, v, tgt, rfl, hroute, h⟩ := s.access_cases a
  · exact h ▸ .answer a okay v
  rw [h]
  obtain ⟨rfl, rfl⟩ | ⟨w, off, rfl, hoff, hcap⟩ := Params.route_eq_some hroute
  · cases hreg : csrAt (addr - s.cfg.engineBase).toNat with
    | none =>
      simp only [State.writeValue, hreg]
      exact .answer _ true 0
    | some reg =>
      simp only [State.writeValue, hreg]
      exact .writeCsr v (csrAt_eq_some_iff.mp hreg)
  · obtain he | ⟨cw, he⟩ := s.idle_or_running
    · simp only [State.writeValue, he]
      exact .window addr size v w _ he
    · rw [State.writeValue_window_running he]
      exact .drop addr size v (State.busy_of_running he) (.inr ⟨w, by omega, by omega⟩)

/-- The parameters, the stream and its length, and the result registers are as before. -/
structure KeepsEngineSide (s t : State) : Prop where
  cfg : t.cfg = s.cfg
  errCode : t.errCodeWord = s.errCodeWord
  readCount : t.readCount = s.readCount
  stream : t.stream = s.stream
  streamLen : t.streamLen = s.streamLen

/-- No host access reaches the parameters, the results or the stream. -/
theorem HostEffect.keepsEngineSide {s t : State} {a : HostAccess} (h : HostEffect s a t) : KeepsEngineSide s t := by
  cases h with
  | window addr size v w m => cases w <;> exact ⟨rfl, rfl, rfl, rfl, rfl⟩
  | _ => exact ⟨rfl, rfl, rfl, rfl, rfl⟩

/-- An access that raises OVERRUN is a dropped write. -/
theorem HostEffect.of_overrun_raised {s t : State} {a : HostAccess} (h : HostEffect s a t) (hlow : s.overrun = false)
    (hhigh : t.overrun = true) : s.busy = true ∧ ∃ addr size v, a = .write addr size v
      ∧ ((addr - s.cfg.engineBase).toNat ∈ droppedOffsets
        ∨ ∃ w : Window, w.base ≤ (addr - s.cfg.engineBase).toNat
            ∧ (addr - s.cfg.engineBase).toNat < w.base + w.capacity s.cfg)
      ∧ t = s.setOverrun.respond true 0 := by
  cases h with
  | drop addr size v hbusy hoff => exact ⟨hbusy, addr, size, v, rfl, hoff, rfl⟩
  | status addr v => exact absurd (Bool.and_eq_true_iff.mp hhigh).1 (by simp [hlow])
  | window addr size v w m => cases w <;> exact absurd (hlow.symm.trans hhigh) Bool.false_ne_true
  | _ => exact absurd (hlow.symm.trans hhigh) Bool.false_ne_true

/-- An access that lowers OVERRUN is a write to STATUS with bit 3 set. -/
theorem HostEffect.of_overrun_lowered {s t : State} {a : HostAccess} (h : HostEffect s a t) (hhigh : s.overrun = true)
    (hlow : t.overrun = false) :
    ∃ addr v, a = .write addr .four v ∧ v.getLsbD 3 = true ∧ (addr - s.cfg.engineBase).toNat = 0x024 := by
  cases h with
  | status addr v hoff =>
    have hand : (s.overrun && !v.getLsbD 3) = false := hlow
    exact ⟨addr, v, rfl, by simpa [hhigh] using hand, hoff⟩
  | drop => exact absurd hlow.symm Bool.false_ne_true
  | window addr size v w m => cases w <;> exact absurd (hlow.symm.trans hhigh) Bool.false_ne_true
  | _ => exact absurd (hlow.symm.trans hhigh) Bool.false_ne_true

/-- An access that makes an IDLE engine run is a write of the word to CMD. -/
theorem HostEffect.of_started {s t : State} {a : HostAccess} {cw : Word} (h : HostEffect s a t)
    (hidle : s.engine = .idle) (hrun : t.engine = .running cw) :
    ∃ addr, a = .write addr .four cw ∧ (addr - s.cfg.engineBase).toNat = 0x020 := by
  cases h with
  | accept addr v _ hoff =>
    cases hrun
    exact ⟨addr, rfl, hoff⟩
  | window addr size v w m => cases w <;> cases hidle.symm.trans hrun
  | _ => cases hidle.symm.trans hrun

/-! ## Every command completes (R130) -/

@[simp] theorem Pool.turn_units_length (j : MixJob) (w : Nat) (q : Pool) :
    (q.turn j w).units.length = q.units.length := by
  unfold Pool.turn
  split
  · split
    · rfl
    · split <;> simp [Pool.claimStep, Pool.mixStep]
  · rfl

@[simp] theorem Pool.drain_units_length (j : MixJob) (fuel : Nat) (q : Pool) :
    (q.drain j fuel).units.length = q.units.length := by
  induction fuel generalizing q with
  | zero => rfl
  | succ fuel ih =>
    unfold Pool.drain
    split
    · rfl
    · rw [ih, Pool.turn_units_length]

@[simp] theorem Pool.run_units_length (j : MixJob) (ts : List Nat) (q : Pool) :
    (Pool.run j ts q).1.units.length = q.units.length := by
  induction ts generalizing q with
  | nil =>
    unfold Pool.run
    split
    · rfl
    · exact q.drain_units_length j _
  | cons w ts ih =>
    unfold Pool.run
    split
    · rfl
    · exact (ih _).trans (q.turn_units_length j w)

/-- The mixing phase keeps the number of units, whatever they hold. -/
@[simp] theorem mixPhase_units_length (s : State) : (mixPhase s).units.length = s.units.length := by
  simp [mixPhase, startUnits]
  omega

/-- The results of every command leave the control state alone, whatever the state. -/
theorem resultsOf_keepsControl (i : Instr) (s : State) : KeepsControl s (resultsOf i s) where
  units := by
    cases i with
    | smix => exact List.length_set
    | mixAll => exact mixPhase_units_length s
    | effectiveSalt => exact mixPhase_units_length (fillResults s.hmac s)
    | openScrypt => exact mixPhase_units_length (fillResults s.hmac s)
    | _ => rfl
  overrun := by cases i <;> rfl
  irqEn := resultsOf_irqEn i s
  regs := by cases i <;> rfl
  cfg := by cases i <;> rfl
  resetLine := by cases i <;> rfl
  inputs := by cases i <;> rfl
  resp := by cases i <;> rfl

/-- Every command, whatever the state, answers a completion with some code. -/
theorem exec_finished (i : Instr) (s : State) :
    ∃ (t : State) (e : ErrorCode), exec i s = .next t ∧ Finished i.opc e.code s t := by
  obtain ⟨e, -, h⟩ | ⟨-, -, h⟩ := exec_cases i s
  · exact ⟨_, e, h, State.complete_finished (.refl s) i.opc e⟩
  · exact ⟨_, .none, h, State.complete_finished (resultsOf_keepsControl i s) i.opc .none⟩

/-! ## The engine's turn and the step (R128, R157) -/

/-- The engine's turn: nothing while IDLE, a completion while RUNNING. -/
theorem engineStep_finished {s t : State} (h : engineStep s = .next t) :
    (s.engine = .idle ∧ t = s) ∨ (s.busy = true ∧ ∃ opc code, Finished opc code s t) := by
  obtain he | ⟨cw, he⟩ := s.idle_or_running
  · cases (engineStep_idle he).symm.trans h
    exact .inl ⟨he, rfl⟩
  refine .inr ⟨State.busy_of_running he, ?_⟩
  cases hd : decode cw with
  | error x =>
    cases (engineStep_illegal he hd).symm.trans h
    exact ⟨_, _, (s.complete_rejected _ .illegalCommand).1⟩
  | ok i =>
    obtain ⟨u, e, hu, hfin⟩ := exec_finished i s
    cases hu.symm.trans ((engineStep_running he hd).symm.trans h)
    exact ⟨_, _, hfin⟩

/-- What a step can do: a host access while the reset line is low, the assertion or the release of reset, or the
engine's turn, which comes unasked when no event is to come. -/
inductive StepEffect (s : State) : State → Prop
  | access (a : HostAccess) (es : List Input) (hin : s.inputs = .access a :: es) (hline : s.resetLine = false) :
      StepEffect s (State.access a { s with inputs := es })
  | assert (es : List Input) (hin : s.inputs = .resetAssert :: es) :
      StepEffect s (State.assertReset { s with inputs := es })
  | release (es : List Input) (hin : s.inputs = .resetRelease :: es) :
      StepEffect s (State.releaseReset { s with inputs := es })
  | turn (es : List Input) (t : State) (ht : engineStep { s with inputs := es } = .next t) : StepEffect s t

theorem step_effect {s t : State} (h : step s = .next t) : StepEffect s t := by
  unfold step at h
  split at h
  next hin => exact .turn [] t (by rw [← h, ← hin])
  next e es hin =>
    cases e with
    | access a =>
      simp only [inputStep] at h
      split at h
      next => cases h
      next hline =>
        cases h
        exact .access a es hin (by simpa using hline)
    | resetAssert => cases h; exact .assert es hin
    | resetRelease => cases h; exact .release es hin
    | engineTurn => exact .turn es t h

/-! ## Soundness of a step -/

theorem State.resetWith_sound {c : Params} (hc : c.wf = true) : (State.resetWith c).Sound where
  cfg := hc
  key := .nil _
  salt := .nil _
  b := .nil _
  out := .nil _
  units := List.length_replicate
  quiet := ⟨rfl, rfl, rfl, fun _ hu => List.eq_of_mem_replicate hu⟩
  hmacSel := fun h => by cases h
  stream := Stream.closed_sound c
  running := fun h => by cases h
  errCode := Nat.zero_le 5
  held := fun _ => rfl

/-- Soundness is about neither the events nor the units' turns to come, and the line may be low in a sound state, and
asserted over an IDLE engine. -/
theorem State.Sound.withLines {s : State} (hs : s.Sound) {line : Bool} (hl : line = true → s.engine = .idle)
    (es : List Input) (ts : List Nat) :
    State.Sound { s with resetLine := line, inputs := es, workerTurns := ts } :=
  { hs with quiet := ⟨hs.quiet.claim, hs.quiet.seq, hs.quiet.pbk, hs.quiet.units⟩, held := hl }

/-- A command keeps a sound state sound. -/
theorem exec_sound {i : Instr} {s t : State} (hs : s.Sound) (h : exec i s = .next t) : t.Sound := by
  obtain ⟨e, -, he⟩ | ⟨-, hpass, he⟩ := exec_cases i s
  · cases he.symm.trans h
    exact hs.data.complete i.opc e
  · cases he.symm.trans h
    exact (resultsOf_data hs hpass).complete i.opc .none

/-- The engine's turn keeps a sound state sound. -/
theorem engineStep_sound {s t : State} (hs : s.Sound) (h : engineStep s = .next t) : t.Sound := by
  obtain he | ⟨cw, he⟩ := s.idle_or_running
  · cases (engineStep_idle he).symm.trans h
    exact hs
  cases hd : decode cw with
  | error x =>
    cases (engineStep_illegal he hd).symm.trans h
    exact hs.data.complete _ .illegalCommand
  | ok i => exact exec_sound hs ((engineStep_running he hd).symm.trans h)

end Sys2Proof.Machine
end

section
/-! Settles the statements about steps, reset and the life of a command (R18, R128 to R131, R136, R148, R150). -/

namespace Sys2Proof.Machine

/-- Settles O11: by the event the step takes, each of which keeps a sound state sound. -/
theorem stepKeepsSound : Obligations.StepKeepsSound := by
  unfold Obligations.StepKeepsSound
  intro s t hs h
  have hin (es : List Input) : State.Sound { s with inputs := es } := hs.withLines hs.held es s.workerTurns
  cases step_effect h with
  | access a es _ hline => exact State.access_sound (hin es) hline a
  | assert es _ => exact (State.resetWith_sound hs.cfg).withLines (fun _ => rfl) es s.workerTurns
  | release es _ => exact hs.withLines (fun hl => by cases hl) es s.workerTurns
  | turn es t ht => exact engineStep_sound (hin es) ht

/-- Settles O6: the completion of the illegal word writes nothing but the flags and ERR_CODE. -/
theorem illegalWordCompletes : Obligations.IllegalWordCompletes := by
  unfold Obligations.IllegalWordCompletes
  intro s cw x _ hrun hx
  exact ⟨_, engineStep_illegal hrun hx, s.complete_rejected _ .illegalCommand⟩

/-- Settles O8: the step is the assertion of reset, which leaves the state of reset with the schedule kept. -/
theorem resetStepClearsEverything : Obligations.ResetStepClearsEverything := by
  unfold Obligations.ResetStepClearsEverything
  intro s es hin
  have hstatus : State.reset.statusWord = 0 := by decide
  have hcode : State.reset.errCodeWord = 0 := by decide
  have hstep : step s = .next (State.assertReset { s with inputs := es }) := by simp only [step, hin, inputStep]
  have hquiet : (State.assertReset { s with inputs := es }).Quiet :=
    ⟨rfl, rfl, rfl, fun _ hu => List.eq_of_mem_replicate hu⟩
  exact ⟨_, hstep, rfl, hstatus, hcode, rfl, rfl, rfl, rfl, fun _ => ⟨rfl, rfl, rfl, rfl⟩,
    ⟨rfl, rfl, rfl, rfl, rfl, rfl, rfl, rfl⟩, fun _ => ⟨rfl, rfl⟩, ⟨rfl, fun _ hv => List.eq_of_mem_replicate hv⟩,
    rfl, rfl, hquiet, List.length_replicate, rfl, rfl, rfl, rfl⟩

/-- Settles O12: no event's effect is on the parameters. -/
theorem stepKeepsParameters : Obligations.StepKeepsParameters := by
  unfold Obligations.StepKeepsParameters
  intro s t h
  cases step_effect h with
  | access a es => exact (State.access_effect _ a).keepsEngineSide.cfg
  | assert es => rfl
  | release es => rfl
  | turn es t ht =>
    obtain ⟨-, rfl⟩ | ⟨-, _, _, hfin⟩ := engineStep_finished ht
    · rfl
    · exact hfin.cfg

/-- Settles O14: a command either completes the state as it was or completes its results, which leave the control state
alone. -/
theorem everyCommandCompletes : Obligations.EveryCommandCompletes := by
  unfold Obligations.EveryCommandCompletes
  exact exec_finished

/-- Settles O15: ERR is set only by the completion of the state as it was. -/
theorem errorsArePrecise : Obligations.ErrorsArePrecise := by
  unfold Obligations.ErrorsArePrecise
  intro i s t _ h herr
  obtain ⟨e, hne, he⟩ | ⟨-, -, he⟩ := exec_cases i s
  · cases he.symm.trans h
    exact ⟨s.complete_rejected i.opc e, mt e.code_eq_zero_iff.mp hne⟩
  · cases he.symm.trans h
    cases herr

/-- Settles O57: OVERRUN rises by a dropped write alone, and falls by a write to STATUS or a reset; a completion keeps
it. -/
theorem overrunRecordsDroppedWrites : Obligations.OverrunRecordsDroppedWrites := by
  unfold Obligations.OverrunRecordsDroppedWrites
  intro s t h
  have hkept {p q : Prop} (hsame : t.overrun = s.overrun) :
      (s.overrun = false → t.overrun = true → p) ∧ (s.overrun = true → t.overrun = false → q) := by
    rw [hsame]
    exact ⟨fun hlow hhigh => absurd (hlow.symm.trans hhigh) Bool.false_ne_true,
      fun hhigh hlow => absurd (hlow.symm.trans hhigh) Bool.false_ne_true⟩
  cases step_effect h with
  | access a es hin =>
    have heffect := State.access_effect { s with inputs := es } a
    constructor
    · intro hlow hhigh
      obtain ⟨hbusy, addr, size, v, rfl, hoff, ht⟩ := heffect.of_overrun_raised hlow hhigh
      exact ⟨hbusy, addr, size, v, es, _, hin, rfl, hoff, ht⟩
    · intro hhigh hlow
      obtain ⟨addr, v, rfl, hbit, hoff⟩ := heffect.of_overrun_lowered hhigh hlow
      exact ⟨es, .inr ⟨addr, v, hin, hbit, hoff⟩⟩
  | assert es hin => exact ⟨fun _ hhigh => absurd hhigh Bool.false_ne_true, fun _ _ => ⟨es, .inl hin⟩⟩
  | release es => exact hkept rfl
  | turn es t ht =>
    obtain ⟨-, rfl⟩ | ⟨-, _, _, hfin⟩ := engineStep_finished ht
    · exact hkept rfl
    · exact hkept hfin.overrun

/-- Settles O58: a host access leaves a running word alone, the engine's turn completes it; and of the events only a
host's write to CMD starts one. -/
theorem commandsRunToTheirEnd : Obligations.CommandsRunToTheirEnd := by
  unfold Obligations.CommandsRunToTheirEnd
  intro s t cw h
  cases step_effect h with
  | access a es hin =>
    refine ⟨fun hrun => .inl ?_, fun hidle hrun => ?_⟩
    · obtain ⟨_, _, _, _, _, ht⟩ := State.access_running (s := { s with inputs := es }) hrun a
      rw [ht]
      exact hrun
    · obtain ⟨addr, rfl, hoff⟩ := (State.access_effect { s with inputs := es } a).of_started hidle hrun
      exact ⟨addr, es, hin, hoff⟩
  | assert es hin => exact ⟨fun _ => .inr ⟨rfl, .inr ⟨es, hin⟩⟩, fun _ hrun => by cases hrun⟩
  | release es => exact ⟨.inl, fun hidle hrun => by cases hidle.symm.trans hrun⟩
  | turn es t ht =>
    obtain ⟨hidle, rfl⟩ | ⟨-, _, _, hfin⟩ := engineStep_finished ht
    · exact ⟨.inl, fun _ hrun => by cases hidle.symm.trans hrun⟩
    · exact ⟨fun _ => .inr ⟨hfin.idle, .inl hfin.done⟩, fun _ hrun => by cases hfin.idle.symm.trans hrun⟩

/-- Settles O59: no effect of a host access is on the results or the stream, and a read has no effect but its answer. -/
theorem hostAccessesKeepResults : Obligations.HostAccessesKeepResults := by
  unfold Obligations.HostAccessesKeepResults
  intro s a
  obtain ⟨-, hcode, hcount, hstream, hlen⟩ := (s.access_effect a).keepsEngineSide
  refine ⟨hcount, hstream, hcode, hlen, ?_⟩
  rintro addr size rfl
  generalize ht : s.access (.read addr size) = t
  have heffect := ht ▸ s.access_effect (.read addr size)
  cases heffect with
  | answer _ okay v => exact ⟨⟨okay, v⟩, rfl⟩

/-- Settles O5: the turn, asked for or not, runs the decoded word, and `withFetchWord` accepts the word and puts the
turn first. -/
theorem stepRunsDecodedCommand : Obligations.StepRunsDecodedCommand := by
  unfold Obligations.StepRunsDecodedCommand
  refine ⟨fun s cw i hrun hd => ⟨fun hin => ?_, fun es hin => ?_⟩, fun s cw i hd => ?_⟩
  · simp only [step, hin]
    exact engineStep_running hrun hd
  · simp only [step, hin]
    exact engineStep_running (s := { s with inputs := es }) hrun hd
  · have hword : BitVec.ofNat 32 (cw.toNat % 2 ^ 32) = cw := by
      rw [Nat.mod_eq_of_lt cw.isLt, BitVec.ofNat_toNat, BitVec.setWidth_eq]
    rw [State.withFetchWord, hword]
    exact engineStep_running (s := s.accept cw) rfl hd

/-- Settles O7: an access is taken whole while the line is low and refused while it is asserted, and with no event to
come the IDLE engine's turn changes nothing. -/
theorem stepTakesOneEvent : Obligations.StepTakesOneEvent := by
  unfold Obligations.StepTakesOneEvent
  refine fun s es => ⟨fun a hin hline => ?_, fun a hin hline => ?_, fun hin hidle => ?_⟩
  · simp [step, hin, inputStep, hline]
  · simp [step, hin, inputStep, hline]
  · simp only [step, hin]
    exact engineStep_idle hidle

/-- Settles O10: every space is empty, every unit quiet and the stream closed after reset. -/
theorem resetIsSound : Obligations.ResetIsSound := by
  unfold Obligations.ResetIsSound
  exact fun c hc => State.resetWith_sound hc

end Sys2Proof.Machine
end

section
/-! SUPPORT. The count of DONE units against the claim counter (R97, R99), the lanes of R100 as byte strings, the
schedule of a lane turn by turn (R92), and the zero block under BlockMix (R84). -/

namespace Sys2Proof.Machine

/-! ## The claim counter at the end of mixing (R97, R99) -/

/-- How many units are DONE. -/
def Pool.doneCount (q : Pool) : Nat := q.units.countP (·.wstate = .done)

/-- The claims that found no lane left are those of the DONE units. -/
def Pool.ClaimsCounted (j : MixJob) (q : Pool) : Prop := q.doneCount = q.claim - j.p

theorem Pool.turn_of_claiming {j : MixJob} {w : Nat} {q : Pool} {u : Worker} (hw : w < j.weff)
    (hu : q.units[w]? = some u) (hs : u.wstate = .claiming) : q.turn j w = q.claimStep j w u := by
  simp only [Pool.turn, hw, hu, hs, if_true]

/-- Replacing a unit that is not DONE adds one to the count exactly when the new one is. -/
theorem countP_done_set {us : List Worker} {w : Nat} {u v : Worker} (hu : us[w]? = some u) (hd : u.wstate ≠ .done) :
    (us.set w v).countP (·.wstate = .done) = us.countP (·.wstate = .done) + if v.wstate = .done then 1 else 0 := by
  obtain ⟨hlt, rfl⟩ := List.getElem?_eq_some_iff.mp hu
  rw [List.countP_set hlt]
  simp [hd]

theorem Pool.claimStep_counted {j : MixJob} {w : Nat} {u : Worker} {q : Pool} (h : q.ClaimsCounted j)
    (hu : q.units[w]? = some u) (hs : u.wstate = .claiming) : (q.claimStep j w u).ClaimsCounted j := by
  unfold Pool.ClaimsCounted Pool.doneCount at *
  simp only [Pool.claimStep]
  rw [countP_done_set hu (by simp [hs]), h]
  by_cases hp : j.p ≤ q.claim
  · simp only [hp, if_true]
    omega
  · simp only [hp, if_false, reduceCtorEq]
    omega

theorem Pool.mixStep_counted {j : MixJob} {w k : Nat} {u : Worker} {q : Pool} (h : q.ClaimsCounted j)
    (hu : q.units[w]? = some u) (hs : u.wstate = .mixing k) : (q.mixStep j w k u).ClaimsCounted j := by
  unfold Pool.ClaimsCounted Pool.doneCount at *
  simp only [Pool.mixStep]
  rw [countP_done_set hu (by simp [hs]), h]
  simp

/-- Any turn of any unit keeps the count. -/
theorem Pool.turn_counted {j : MixJob} {q : Pool} (w : Nat) (h : q.ClaimsCounted j) : (q.turn j w).ClaimsCounted j := by
  unfold Pool.turn
  split
  · split
    · exact h
    · next u hu =>
      split
      next hs => exact Pool.claimStep_counted h hu hs
      next k hs => exact Pool.mixStep_counted h hu hs
      next => exact h
      next => exact h
  · exact h

theorem Pool.drain_counted {j : MixJob} (fuel : Nat) {q : Pool} (h : q.ClaimsCounted j) :
    (q.drain j fuel).ClaimsCounted j := by
  induction fuel generalizing q with
  | zero => exact h
  | succ fuel ih =>
    unfold Pool.drain
    split
    · exact h
    · exact ih (Pool.turn_counted _ h)

theorem Pool.run_counted {j : MixJob} (ts : List Nat) {q : Pool} (h : q.ClaimsCounted j) :
    (Pool.run j ts q).1.ClaimsCounted j := by
  induction ts generalizing q with
  | nil =>
    unfold Pool.run
    split
    · exact h
    · exact Pool.drain_counted _ h
  | cons w ts ih =>
    unfold Pool.run
    split
    · exact h
    · exact ih (Pool.turn_counted w h)

/-- No unit is DONE before the first turn. -/
theorem startUnits_counted {j : MixJob} {us : List Worker} {b : Mem} (hq : ∀ u ∈ us, u = Worker.quiet) :
    Pool.ClaimsCounted j { claim := 0, units := startUnits j.weff us, b := b } := by
  unfold Pool.ClaimsCounted Pool.doneCount
  rw [Nat.zero_sub, List.countP_eq_zero]
  intro u hu
  obtain hu | hu := List.mem_append.mp hu
  · obtain ⟨v, -, rfl⟩ := List.mem_map.mp hu
    simp
  · simp [hq u (List.mem_of_mem_drop hu), Worker.quiet]

/-- When no unit can move, those below Weff are DONE and the others IDLE. -/
theorem Pool.wstate_of_ended {j : MixJob} {b0 : Mem} {count w : Nat} {q : Pool} {u : Worker} (h : q.Ok j b0 count)
    (hf : q.firstMovable = none) (hu : q.units[w]? = some u) : u.wstate = if w < j.weff then .done else .idle := by
  have hst : q.stateOf w = some u.wstate := by simp [Pool.stateOf, hu]
  split
  next hw =>
    have hidle := h.below w hw
    have hstill : u.canMove = false := List.findIdx?_eq_none_iff.mp hf u (List.mem_of_getElem? hu)
    cases hs : u.wstate with
    | done => rfl
    | idle => exact absurd (hs ▸ hst) hidle
    | claiming => simp [Worker.canMove, hs] at hstill
    | mixing k => simp [Worker.canMove, hs] at hstill
  next hw =>
    have hidle := h.above w (by omega) (h.units_length ▸ Pool.lt_of_getElem? hu)
    exact Option.some.inj (hst.symm.trans hidle)

/-- When no unit can move, Weff units are DONE. -/
theorem Pool.doneCount_of_ended {j : MixJob} {b0 : Mem} {count : Nat} {q : Pool} (h : q.Ok j b0 count)
    (hf : q.firstMovable = none) (hw : j.weff ≤ count) : q.doneCount = j.weff := by
  have hstates : q.units.map Worker.wstate = List.replicate j.weff .done ++ List.replicate (count - j.weff) .idle := by
    refine List.ext_getElem (by simp [h.units_length]; omega) fun w hlt _ => ?_
    have hs := Pool.wstate_of_ended h hf (List.getElem?_eq_getElem (by simpa using hlt))
    rw [List.getElem_map, hs, List.getElem_append]
    simp
  have hcount : q.doneCount = (q.units.map Worker.wstate).countP (· = .done) := by
    rw [List.countP_map]
    rfl
  rw [hcount, hstates, List.countP_append, List.countP_replicate, List.countP_replicate]
  simp

/-! ## The lanes of R100 -/

/-- Two spaces with the same bytes in the lanes have the same bytes there after mixing. -/
theorem mixedLanes_read_congr {n : Word} {r p : Nat} {b b' : Mem} (h : ∀ x < p * (128 * r), b.read x = b'.read x)
    {x : Nat} (hx : x < p * (128 * r)) : (mixedLanes n r p b).read x = (mixedLanes n r p b').read x := by
  have hpos : 0 < 128 * r := Nat.pos_of_ne_zero fun h0 => by simp [h0] at hx
  have hk : x / (128 * r) < p := Nat.div_lt_of_lt_mul (by rwa [Nat.mul_comm] at hx)
  have hlo := Nat.div_mul_le_self x (128 * r)
  have hhi := Nat.lt_div_mul_add (a := x) hpos
  have hlane : x / (128 * r) * (128 * r) + 128 * r ≤ p * (128 * r) := by
    rw [← Nat.succ_mul]
    exact Nat.mul_le_mul_right _ hk
  rw [mixedLanes_read_lane n r p b hk ⟨hlo, hhi⟩, mixedLanes_read_lane n r p b' hk ⟨hlo, hhi⟩,
    Mem.readBlocks_congr fun i _ => h _ (by omega)]

/-- Lane k after mixing, as a byte string. -/
theorem mixedLanes_readBytes_lane (n : Word) (r p : Nat) (b : Mem) {k : Nat} (hk : k < p) :
    (mixedLanes n r p b).readBytes (k * (128 * r)) (128 * r)
      = blockBytes (smix n (b.readBlocks (k * (128 * r)) (128 * r))) := by
  have hlen : (blockBytes (smix n (b.readBlocks (k * (128 * r)) (128 * r)))).length = 128 * r :=
    blockBytes_length_of_readBlocks (smix_length _ _)
  refine List.ext_getElem (by rw [Mem.readBytes_length, hlen]) fun i hi hi' => ?_
  rw [Mem.readBytes_length] at hi
  simp only [Mem.readBytes, List.getElem_map, List.getElem_range]
  rw [mixedLanes_read_lane n r p b hk (by omega), Nat.add_sub_cancel_left, List.getD_eq_getElem _ _ hi']

theorem mixedLanes_sameBytesOutside (n : Word) (r p : Nat) (b : Mem) :
    SameBytesOutside 0 (p * (128 * r)) b (mixedLanes n r p b) := fun _ hx =>
  mixedLanes_read_above n r p b (by omega)

/-- The mixing phase of a command that checks N, R, P and MAX_THREADS: the B of R100, in every interleaving. -/
theorem mixPhase_of_pass {s : State} (hs : s.Sound) {i : Instr} (hpass : ∀ c ∈ checksOf i, c.fails s = false)
    (hrow : ∀ c ∈ [Check.n, .r, .p, .t], c ∈ checksOf i) :
    ∃ ts, mixPhase s
      = { s with b := mixedLanes s.regs.n s.regs.r.toNat s.regs.p.toNat s.b, workerTurns := ts } := by
  have hcheck : ∀ c ∈ [Check.n, .r, .p, .t], c.fails s = false := fun c hc => hpass c (hrow c hc)
  simp only [List.forall_mem_cons, List.not_mem_nil, false_implies, implies_true, and_true] at hcheck
  obtain ⟨hn, hr, hp, ht⟩ := hcheck
  exact mixPhase_sound hs (Check.pass_n hn) (Check.pass_r hr) (Check.pass_p hp) (Check.pass_t ht)

/-! ## The schedule of a lane, turn by turn (R92) -/

/-- What the unit and B hold when a lane's schedule is about to LOAD. -/
def LaneRun.start (u : Worker) (b : Mem) : LaneRun :=
  { unit := { u with regs := { u.regs with phase := .load } }, b := b }

/-- The turn LOAD reads the lane. -/
theorem LaneRun.step_load {n : Word} {r k : Nat} {u : Worker} {b : Mem} (hr : u.regs = .zero) :
    LaneRun.step n r k (.start u b)
      = { unit := { u with regs := scheduleRegs (b.readBlocks (k * (128 * r)) (128 * r)) [] .fill 0 }, b := b } := by
  obtain ⟨ws, regs, v⟩ := u
  cases hr
  rfl

/-- The last turn of FILL goes over to MIX. -/
theorem LaneRun.step_fill_end {n : Word} {r k : Nat} {st : List Block} {u : Worker} {b v : Mem} :
    LaneRun.step n r k { unit := { u with regs := scheduleRegs st [] .fill n.toNat, v := v }, b := b }
      = { unit := { u with regs := scheduleRegs st [] .mix 0, v := v }, b := b } := by
  simp [LaneRun.step, scheduleRegs]

/-- A turn of MIX with the table's entry written as an iterate of BlockMix. -/
theorem smixTurn_eq {n : Word} (hn : n ≠ 0) (s0 st : List Block) :
    smixTurn n (smixFill n.toNat s0).1 st = blockMix (xorBlocks st (blockMix^[smixIndex n st] s0)) := by
  rw [smixTurn, smixFill_entry s0 (smixIndex_lt hn st)]

/-- After LOAD and i turns of FILL (R92). -/
theorem LaneRun.iterate_fill {n : Word} {r k : Nat} {u : Worker} {b : Mem} {s0 : List Block}
    (hs0 : s0 = b.readBlocks (k * (128 * r)) (128 * r)) (hlen : s0.length = 2 * r) (hr : u.regs = .zero) (hv : u.v = [])
    {i : Nat} (hi : i ≤ n.toNat) : ∃ v, TableHolds n.toNat r s0 i v
      ∧ (LaneRun.step n r k)^[1 + i] (.start u b)
        = { unit := { u with regs := scheduleRegs (blockMix^[i] s0) [] .fill i, v := v }, b := b } := by
  obtain ⟨v, htable, h⟩ := LaneRun.fill_iterate (k := k) (u := u) (b := b) hlen hv i hi
  refine ⟨v, htable, ?_⟩
  rw [Nat.add_comm, Function.iterate_succ_apply, LaneRun.step_load hr, ← hs0, h]

/-- After FILL and its end and i turns of MIX (R92). -/
theorem LaneRun.iterate_mix {n : Word} {r k : Nat} {u : Worker} {b : Mem} {s0 : List Block} (hn : n ≠ 0)
    (hs0 : s0 = b.readBlocks (k * (128 * r)) (128 * r)) (hlen : s0.length = 2 * r) (hr : u.regs = .zero) (hv : u.v = [])
    {i : Nat} (hi : i ≤ n.toNat) : ∃ v t, (LaneRun.step n r k)^[n.toNat + 2 + i] (.start u b)
      = { unit := { u with
            regs := scheduleRegs
              ((fun st => blockMix (xorBlocks st (blockMix^[smixIndex n st] s0)))^[i] (blockMix^[n.toNat] s0)) t .mix i
            v := v }, b := b } := by
  obtain ⟨v, htable, hfill⟩ := LaneRun.iterate_fill (k := k) (b := b) hs0 hlen hr hv (Nat.le_refl n.toNat)
  obtain ⟨t, hmix⟩ := LaneRun.mix_iterate (k := k) (t := []) (u := u) (b := b) hn hlen
    ((blockMix_iterate_length n.toNat s0).trans hlen) htable i hi
  have hturns : n.toNat + 2 + i = i + (1 + (1 + n.toNat)) := by omega
  refine ⟨v, t, ?_⟩
  rw [hturns, Function.iterate_add_apply, Function.iterate_add_apply _ 1, hfill, Function.iterate_one,
    LaneRun.step_fill_end, hmix, funext (smixTurn_eq hn s0)]

/-! ## The zero block (R84) -/

@[simp] theorem doubleRound_zeroBlock : doubleRound zeroBlock = zeroBlock := by decide

theorem zipBlock_zeroBlock {f : Word → Word → Word} (hf : f 0 0 = 0) :
    zipBlock f zeroBlock zeroBlock = zeroBlock := by
  apply Vector.ext
  intro i hi
  simpa [zipBlock, zeroBlock] using hf

theorem salsaCore_zeroBlock (n : Nat) : salsaCore n zeroBlock = zeroBlock := by
  rw [salsaCore, Function.iterate_fixed doubleRound_zeroBlock]
  exact zipBlock_zeroBlock rfl

/-- Every result of the loop of R86 is zero when its input blocks and the running state are. -/
theorem mem_mixRun_zero {bs : List Block} (h : ∀ c ∈ bs, c = zeroBlock) :
    ∀ c ∈ mixRun zeroBlock bs, c = zeroBlock := by
  induction bs with
  | nil => simp [mixRun]
  | cons c cs ih =>
    obtain ⟨rfl, hcs⟩ := List.forall_mem_cons.mp h
    have hq : salsaCore 8 (xorBlock zeroBlock zeroBlock) = zeroBlock := by
      rw [xorBlock, zipBlock_zeroBlock (by rfl), salsaCore_zeroBlock]
    simp only [mixRun, hq, List.forall_mem_cons, true_and]
    exact ih hcs

theorem evens_subset : ∀ l : List Block, evens l ⊆ l
  | [] => List.Subset.refl _
  | [_] => List.Subset.refl _
  | a :: b :: l => List.cons_subset_cons a (List.Subset.trans (evens_subset l) (List.subset_cons_self b l))

theorem odds_subset : ∀ l : List Block, odds l ⊆ l
  | [] => List.Subset.refl _
  | [_] => List.nil_subset _
  | a :: b :: l => List.Subset.trans (List.cons_subset_cons b (odds_subset l)) (List.subset_cons_self a _)

/-- BlockMix maps zero blocks to zero blocks. -/
theorem blockMix_zero (m : Nat) : blockMix (List.replicate m zeroBlock) = List.replicate m zeroBlock := by
  have hlast : (List.replicate m zeroBlock).getLastD zeroBlock = zeroBlock := by
    cases m with
    | zero => rfl
    | succ m => rw [List.replicate_succ', List.getLastD_concat]
  have hrun := mem_mixRun_zero (bs := List.replicate m zeroBlock) fun c hc => List.eq_of_mem_replicate hc
  refine List.eq_replicate_iff.mpr ⟨by simp, fun c hc => hrun c ?_⟩
  rw [blockMix, hlast] at hc
  exact (List.mem_append.mp hc).elim (evens_subset _ ·) (odds_subset _ ·)

end Sys2Proof.Machine
end

section
/-! Settles the statements about mixing: the zero block, a lane's schedule, the worker units and MIX_ALL (R84, R92, R97
to R103). -/

namespace Sys2Proof.Machine

/-- Settles O22: MIX_ALL's results are the B of R100, whose lanes and upper bytes are read off it. -/
theorem mixAllCommand : Obligations.MixAllCommand := by
  unfold Obligations.MixAllCommand
  refine commandRule_of_results (i := .mixAll) (by simp [unsupported]) fun s hs hpass => ?_
  refine ⟨resultsOf_keepsControl .mixAll s, ?_⟩
  obtain ⟨ts, hresults⟩ := mixPhase_of_pass hs hpass (by simp [checksOf])
  simp only [resultsOf, hresults]
  exact ⟨fun k hk => mixedLanes_readBytes_lane _ _ _ s.b hk, mixedLanes_sameBytesOutside _ _ _ s.b,
    ⟨fun _ => rfl, fun _ => rfl⟩, rfl, rfl, fun _ => rfl⟩

/-- Settles O32: each engine ends with the B of R100, a function of the cost parameters and the lanes' bytes. -/
theorem mixingIsScheduleIndependent : Obligations.MixingIsScheduleIndependent := by
  unfold Obligations.MixingIsScheduleIndependent
  intro s t hs ht hn hr hp hb hsrow htrow
  have hrun {u : State} (hu : u.Sound) (hrow : firstFailing u (checkRow .mixAll) = none) :
      ∃ u', exec .mixAll u = .next u' ∧ u'.b = mixedLanes u.regs.n u.regs.r.toNat u.regs.p.toNat u.b := by
    have hpass := (firstFailing_none u _).mp hrow
    obtain ⟨ts, hresults⟩ := mixPhase_of_pass (i := .mixAll) hu hpass (by simp [checksOf])
    exact ⟨_, runCommand_pass hpass, by rw [State.complete_b, hresults]⟩
  obtain ⟨s', hs', hsb⟩ := hrun hs hsrow
  obtain ⟨t', ht', htb⟩ := hrun ht htrow
  have hlanes : 128 * s.regs.r.toNat * s.regs.p.toNat = s.regs.p.toNat * (128 * s.regs.r.toNat) := Nat.mul_comm _ _
  refine ⟨s', t', hs', ht', fun a ha => ?_⟩
  rw [hlanes] at hb ha
  rw [hsb, htb, ← hn, ← hr, ← hp]
  exact mixedLanes_read_congr hb ha

/-- Settles O33: the invariant of the pool says which units are DONE when none can move, and the claims beyond the lanes
are theirs. -/
theorem mixingPhaseEnds : Obligations.MixingPhaseEnds := by
  unfold Obligations.MixingPhaseEnds
  rintro j us b turns w u hn - hw hwus hq hb q rfl hu
  obtain ⟨hok, hend⟩ := Pool.run_ok hn turns (startUnits_ok hq hwus hb) (startUnits_measure hq)
  have hcount := Pool.run_counted turns (startUnits_counted (j := j) (b := b) hq)
  have hdone := Pool.doneCount_of_ended hok hend hwus
  refine ⟨Pool.wstate_of_ended hok hend hu, ?_⟩
  unfold Pool.ClaimsCounted at hcount
  omega

/-- Settles O34: the turn of a claiming unit is the claim step, which writes the counter and that unit alone. -/
theorem claimStepFetchesAndIncrements : Obligations.ClaimStepFetchesAndIncrements := by
  unfold Obligations.ClaimStepFetchesAndIncrements
  intro j q w u hw hu hs
  refine ⟨q.turn j w, rfl, ?_⟩
  rw [Pool.turn_of_claiming hw hu hs]
  refine ⟨rfl, rfl, ?_, fun v hv => List.getElem?_set_ne hv.symm⟩
  have hstate : (if j.p ≤ q.claim then WorkerState.done else .mixing q.claim)
      = if q.claim < j.p then .mixing q.claim else .done := by
    simp only [← Nat.not_lt, ite_not]
  rw [Pool.claimStep, hstate]
  exact List.getElem?_set_self (Pool.lt_of_getElem? hu)

/-- Settles O35: FILL and MIX turn by turn, and the whole schedule by `mixLane_eq`. -/
theorem laneScheduleComputesSMix : Obligations.LaneScheduleComputesSMix := by
  unfold Obligations.LaneScheduleComputesSMix
  rintro n r k u b hn hr hv _ s0 run rfl hs0 hrun
  have hlen : s0.length = 2 * r := by
    rw [hs0, Mem.readBlocks_length]
    omega
  have hrun (i : Nat) : run i = (LaneRun.step n r k)^[i] (.start u b) := hrun i
  have hwhole := mixLane_eq n r k u b hn hr hv
  have hout : (blockBytes (smix n s0)).length = 128 * r := by
    rw [blockBytes_length, smix_length, hlen]
    omega
  rw [hwhole, ← hs0]
  refine ⟨fun i hi => ?_, fun i hi => ?_, ?_, ?_, rfl⟩
  · obtain ⟨v, htable, h⟩ := LaneRun.iterate_fill (k := k) (b := b) hs0 hlen hr hv hi
    rw [hrun, h]
    exact ⟨rfl, rfl, rfl, rfl, htable.entry⟩
  · obtain ⟨v, t, h⟩ := LaneRun.iterate_mix (k := k) (b := b) hn hs0 hlen hr hv hi
    rw [hrun, h]
    exact ⟨rfl, rfl, rfl, rfl⟩
  · exact hout ▸ Mem.readBytes_writeBytes b _ _
  · exact hout ▸ Mem.writeBytes_sameBytesOutside b _ _

/-- Settles O40: the double round fixes the zero block, and so does the loop of BlockMix. -/
theorem zeroBlockIsFixed : Obligations.ZeroBlockIsFixed := by
  unfold Obligations.ZeroBlockIsFixed
  exact ⟨salsaCore_zeroBlock, fun r => blockMix_zero (2 * r)⟩

end Sys2Proof.Machine
end

section
/-! SUPPORT. PBKDF2's accumulators iterate by iterate (R106), a read of the open stream as a byte string (R113), and the
effective salt that mixing the filled B leaves (R120, R123). -/

namespace Sys2Proof.Machine

/-! ## The iterates of PBKDF2 (R106) -/

/-- U(m+1) of a PBKDF2 block: the HMAC of the salt and the block index, and then m times the HMAC of the one before. -/
def pbkdf2U (h : HmacFn) (k : Binding) (key salt : Bytes) (i : Word) (m : Nat) : Bytes :=
  (fun u => (h k key u).toList)^[m] (h k key (salt ++ be32 i)).toList

theorem pbkdf2U_succ (h : HmacFn) (k : Binding) (key salt : Bytes) (i : Word) (m : Nat) :
    pbkdf2U h k key salt i (m + 1) = (h k key (pbkdf2U h k key salt i m)).toList :=
  Function.iterate_succ_apply' ..

@[simp] theorem pbkdf2U_length (h : HmacFn) (k : Binding) (key salt : Bytes) (i : Word) (m : Nat) :
    (pbkdf2U h k key salt i m).length = k.hLen := by
  cases m with
  | zero => exact Vector.length_toList
  | succ m => rw [pbkdf2U_succ, Vector.length_toList]

/-- The accumulator U after m further iterations. -/
theorem pbkIterate_u (h : HmacFn) (k : Binding) (key salt : Bytes) (i : Word) (m : Nat) :
    ((PbkRegs.iterate h k key)^[m] (PbkRegs.start h k key salt i)).u = pbkdf2U h k key salt i m := by
  induction m with
  | zero => rfl
  | succ m ih => rw [Function.iterate_succ_apply', pbkdf2U_succ, ← ih]; rfl

theorem xorBytes_getD {a b : Bytes} {x : Nat} (ha : x < a.length) (hb : x < b.length) :
    (xorBytes a b).getD x 0 = a.getD x 0 ^^^ b.getD x 0 := by
  simp [xorBytes, List.getD, ha, hb]

/-- A byte of the accumulator T after m further iterations is the xor of the bytes of U1 .. U(m+1) there. -/
theorem pbkIterate_t_getD (h : HmacFn) (k : Binding) (key salt : Bytes) (i : Word) (m : Nat) {x : Nat}
    (hx : x < k.hLen) :
    ((PbkRegs.iterate h k key)^[m] (PbkRegs.start h k key salt i)).t.getD x 0
      = ((List.range (m + 1)).map fun d => (pbkdf2U h k key salt i d).getD x 0).foldl (· ^^^ ·) 0 := by
  induction m with
  | zero => exact (BitVec.zero_xor).symm
  | succ m ih =>
    have hnext : ((PbkRegs.iterate h k key)^[m + 1] (PbkRegs.start h k key salt i)).t
        = xorBytes ((PbkRegs.iterate h k key)^[m] (PbkRegs.start h k key salt i)).t
            (pbkdf2U h k key salt i (m + 1)) := by
      rw [Function.iterate_succ_apply', pbkdf2U_succ, ← pbkIterate_u]
      rfl
    rw [hnext, xorBytes_getD (by rwa [pbkIterate_lengths]) (by rwa [pbkdf2U_length]), ih, List.range_succ (n := m + 1),
      List.map_append, List.foldl_append]
    rfl

/-- The four bytes of a block index by division, the most significant first (R53). -/
theorem be32_eq (i : Word) : be32 i = [BitVec.ofNat 8 (i.toNat / 2 ^ 24), BitVec.ofNat 8 (i.toNat / 2 ^ 16),
    BitVec.ofNat 8 (i.toNat / 2 ^ 8), BitVec.ofNat 8 i.toNat] := by
  simp only [be32, BitVec.extractLsb', Nat.shiftRight_eq_div_pow, Nat.pow_zero, Nat.div_one]

/-! ## Reading the open stream (R113) -/

/-- The HMAC is one of the parameters (R104). -/
theorem State.hmac_congr {s t : State} (h : t.cfg = s.cfg) : t.hmac = s.hmac := by rw [State.hmac, State.hmac, h]

/-- The n stream bytes from position x on. -/
def Stream.slice (h : HmacFn) (t : Stream) (x n : Nat) : Bytes := (List.range n).map fun m => t.byteAt h (x + m)

@[simp] theorem Stream.slice_length (h : HmacFn) (t : Stream) (x n : Nat) : (t.slice h x n).length = n := by
  simp [Stream.slice]

theorem Stream.slice_getD (h : HmacFn) (t : Stream) (x : Nat) {m n : Nat} (hm : m < n) :
    (t.slice h x n).getD m 0 = t.byteAt h (x + m) := by
  simp [Stream.slice, List.getD, hm]

/-- A slice is a first part and the slice that follows it. -/
theorem Stream.slice_add (h : HmacFn) (t : Stream) (x m n : Nat) :
    t.slice h x (m + n) = t.slice h x m ++ t.slice h (x + m) n := by
  simp [Stream.slice, List.range_add, Nat.add_assoc]

/-- How many of n bytes a read from the cursor delivers (R113). -/
def Stream.available (t : Stream) (n : Nat) : Nat := min n (domainLen t.ssel - t.pos)

theorem State.readCountNext_eq (s : State) : s.readCountNext = s.stream.available s.regs.readLen.toNat := rfl

/-- READ_COUNT holds the count of a read whole. -/
theorem Stream.available_toNat (t : Stream) (n : Word) :
    (BitVec.ofNat 32 (t.available n.toNat)).toNat = t.available n.toNat :=
  Nat.mod_eq_of_lt (Nat.lt_of_le_of_lt (Nat.min_le_left _ _) n.isLt)

/-- STREAM_READ's results on a true cache: the bytes from the cursor in OUT, the cursor after them, their count, and
some cached block. -/
theorem streamReadResults_eq {s : State} (hcache : s.stream.CacheTrue s.hmac) :
    ∃ v i bs, streamReadResults s.hmac s = { s with
      out := s.out.writeBytes 0 (s.stream.slice s.hmac s.stream.pos (s.stream.available s.regs.readLen.toNat))
      stream := { s.stream with
        cacheValid := v, cacheIdx := i, cacheBytes := bs
        pos := s.stream.pos + s.stream.available s.regs.readLen.toNat }
      readCount := BitVec.ofNat 32 (s.stream.available s.regs.readLen.toNat) } := by
  rw [← State.readCountNext_eq]
  obtain ⟨v, i, bs, hframe⟩ := Stream.fetchMany_frame s.hmac s.readCountNext s.stream.pos s.stream
  obtain ⟨hbytes, -⟩ := Stream.fetchMany_eq s.hmac s.readCountNext s.stream.pos s.stream hcache
  refine ⟨v, i, bs, ?_⟩
  simp only [streamReadResults, hframe, hbytes, Stream.slice]

/-- STREAM_READ of n bytes on a sound open stream: what it delivers and where it leaves the cursor. -/
theorem exec_streamRead {s : State} (hs : s.Sound) (hopen : s.stream.isOpen = true) {n : Word}
    (hn : n.toNat ≤ s.cfg.outBytes) :
    ∃ t v i bs, exec .streamRead { s with regs := { s.regs with readLen := n } } = .next t ∧ t.Sound
      ∧ t.cfg = s.cfg
      ∧ t.readCount.toNat = s.stream.available n.toNat
      ∧ t.out.readBytes 0 t.readCount.toNat = s.stream.slice s.hmac s.stream.pos (s.stream.available n.toNat)
      ∧ t.stream = { s.stream with
          cacheValid := v, cacheIdx := i, cacheBytes := bs, pos := s.stream.pos + s.stream.available n.toNat } := by
  generalize hs' : ({ s with regs := { s.regs with readLen := n } } : State) = s'
  have hsound : s'.Sound :=
    hs' ▸ { hs with quiet := ⟨hs.quiet.claim, hs.quiet.seq, hs.quiet.pbk, hs.quiet.units⟩ }
  have hpass : ∀ c ∈ checksOf .streamRead, c.fails s' = false := by
    subst hs'
    simp [checksOf, Check.fails, hopen, hn]
  have hexec : exec .streamRead s' = .next ((streamReadResults s'.hmac s').complete 0x09 .none) := runCommand_pass hpass
  have hnext := exec_sound hsound hexec
  obtain ⟨v, i, bs, hresults⟩ := streamReadResults_eq hsound.stream.cacheValid
  rw [hresults] at hexec hnext
  subst hs'
  refine ⟨_, v, i, bs, hexec, hnext, rfl, s.stream.available_toNat n, ?_, rfl⟩
  have hread := Mem.readBytes_writeBytes s.out 0 (s.stream.slice s.hmac s.stream.pos (s.stream.available n.toNat))
  rw [Stream.slice_length] at hread
  rw [State.complete_readCount, State.complete_out, Stream.available_toNat]
  exact hread

/-- PBKDF2's output, as the list of the stream's first bytes (R109). -/
theorem pbkdf2_eq_map (h : HmacFn) (k : Binding) (key salt : Bytes) (c len : Nat) :
    pbkdf2 h k key salt c len = (List.range len).map (streamByte h k key salt c) := by
  refine List.ext_getElem (by simp) fun x hx _ => ?_
  rw [pbkdf2_length] at hx
  rw [← List.getD_eq_getElem _ 0, pbkdf2_getD h k key salt c len x hx]
  simp

/-! ## The effective salt (R120, R123) -/

/-- Mixing the B that stage A filled leaves the effective salt in its lanes: what was above them is not read. -/
theorem mixedLanes_fill_readBytes (h : HmacFn) (s : State) :
    (mixedLanes s.regs.n s.regs.r.toNat s.regs.p.toNat (fillResults h s).b).readBytes 0 s.lanesLen
      = effectiveSalt h s.binding s.keyBytes s.saltBytes s.regs.n s.regs.r.toNat s.regs.p.toNat := by
  have hlanes : s.lanesLen = s.regs.p.toNat * (128 * s.regs.r.toNat) := Nat.mul_comm _ _
  refine Mem.readBytes_congr fun x hx => ?_
  refine mixedLanes_read_congr (fun y hy => ?_) (by omega)
  have hlt : y < (pbkdf2 h s.binding s.keyBytes s.saltBytes 1 s.lanesLen).length := by rw [pbkdf2_length]; omega
  rw [fillResults, Mem.read_writeBytes, if_pos (by omega), Nat.sub_zero, Mem.read_ofBytes]
  rfl

/-- EFFECTIVE_SALT's results on a state that passes the checks: the effective salt in the lanes of B, in every
interleaving. -/
theorem effectiveSaltResults_of_pass {s : State} (hs : s.Sound) {i : Instr}
    (hpass : ∀ c ∈ checksOf i, c.fails s = false) (hrow : ∀ c ∈ [Check.n, .r, .p, .t, .b], c ∈ checksOf i) :
    ∃ m ts, effectiveSaltResults s.hmac s = { s with b := m, workerTurns := ts }
      ∧ m.readBytes 0 s.lanesLen
          = effectiveSalt s.hmac s.binding s.keyBytes s.saltBytes s.regs.n s.regs.r.toNat s.regs.p.toNat
      ∧ SameBytesOutside 0 s.lanesLen s.b m := by
  have hcheck : ∀ c ∈ [Check.n, .r, .p, .t, .b], c.fails s = false := fun c hc => hpass c (hrow c hc)
  simp only [List.forall_mem_cons, List.not_mem_nil, false_implies, implies_true, and_true] at hcheck
  obtain ⟨hn, hr, hp, ht, hb⟩ := hcheck
  obtain ⟨ts, hresults⟩ := effectiveSaltResults_eq (h := s.hmac) hs (Check.pass_n hn) (Check.pass_r hr)
    (Check.pass_p hp) (Check.pass_t ht) (Check.pass_b hb)
  refine ⟨_, ts, hresults, mixedLanes_fill_readBytes s.hmac s, fun x hx => ?_⟩
  have hlanes : s.lanesLen = s.regs.p.toNat * (128 * s.regs.r.toNat) := Nat.mul_comm _ _
  rw [mixedLanes_read_above _ _ _ _ (by omega)]
  exact Mem.read_writeBytes_outside s.b (by rw [pbkdf2_length]; omega)

end Sys2Proof.Machine
end

section
/-! Settles the statements about PBKDF2, the scrypt commands and reading the stream (R106 to R109, R113, R119 to
R124). -/

namespace Sys2Proof.Machine

/-- Settles O41: the iterates of the accumulator U, whose xor T accumulates. -/
theorem pbkdf2BlockXorsItsIterations : Obligations.Pbkdf2BlockXorsItsIterations := by
  unfold Obligations.Pbkdf2BlockXorsItsIterations
  intro h k key salt c i hc
  refine ⟨fun m => pbkdf2U h k key salt i (m - 1), ?_, fun m hm => ?_, fun m _ => pbkdf2U_length .., fun x hx => ?_⟩
  · rw [← be32_eq]
    rfl
  · obtain ⟨d, rfl⟩ := Nat.exists_eq_add_of_le' hm
    exact pbkdf2U_succ h k key salt i d
  · obtain ⟨d, rfl⟩ := Nat.exists_eq_add_of_le' hc
    exact pbkIterate_t_getD h k key salt i d hx

/-- Settles O42: PBKDF2's bytes are the stream's, each a byte of its block. -/
theorem pbkdf2IsThePrefixOfTheStream : Obligations.Pbkdf2IsThePrefixOfTheStream := by
  unfold Obligations.Pbkdf2IsThePrefixOfTheStream
  exact fun h k key salt c len _ => ⟨pbkdf2_length .., fun x hx => pbkdf2_getD h k key salt c len x hx⟩

/-- Settles O23: PBKDF2_FILL's results are one write of PBKDF2's output over the lanes of B. -/
theorem pbkdf2FillCommand : Obligations.Pbkdf2FillCommand := by
  unfold Obligations.Pbkdf2FillCommand
  exact commandRule_of_writeB (i := .pbkdf2Fill) (a := fun _ => 0) (by simp [unsupported])
    (fun s => pbkdf2_length s.hmac s.binding s.keyBytes s.saltBytes 1 _) fun s _ _ => rfl

/-- Settles O24: the lanes of B hold the effective salt when the mixing of the filled B ends. -/
theorem effectiveSaltCommand : Obligations.EffectiveSaltCommand := by
  unfold Obligations.EffectiveSaltCommand
  refine commandRule_of_results (i := .effectiveSalt) (by simp [unsupported]) fun s hs hpass => ?_
  refine ⟨resultsOf_keepsControl .effectiveSalt s, ?_⟩
  obtain ⟨m, ts, hresults, hsalt, hrest⟩ := effectiveSaltResults_of_pass hs hpass (by simp [checksOf])
  simp only [resultsOf, hresults]
  exact ⟨hsalt, hrest, ⟨fun _ => rfl, fun _ => rfl⟩, rfl, rfl, fun _ => rfl⟩

/-- Settles O25: the results of EFFECTIVE_SALT with the stream reopened on the bytes it left in B. -/
theorem openScryptCommand : Obligations.OpenScryptCommand := by
  unfold Obligations.OpenScryptCommand
  refine commandRule_of_results (i := .openScrypt) (by simp [unsupported]) fun s hs hpass => ?_
  refine ⟨resultsOf_keepsControl .openScrypt s, ?_⟩
  obtain ⟨m, ts, hresults, hsalt, hrest⟩ := effectiveSaltResults_of_pass hs hpass (by simp [checksOf])
  simp only [resultsOf, openScryptResults, hresults, hsalt]
  exact ⟨hsalt, hrest, rfl, Stream.reopen_keyBytes .., Stream.reopen_saltBytes .., rfl, rfl, rfl, rfl,
    Stream.reopen_cacheBytes_zero, State.streamLen_of_isOpen rfl, ⟨fun _ => rfl, fun _ => rfl⟩, rfl, fun _ => rfl⟩

/-- Settles O27: STREAM_READ's results on the sound stream's true cache. -/
theorem streamReadCommand : Obligations.StreamReadCommand := by
  unfold Obligations.StreamReadCommand
  refine commandRule_of_results (i := .streamRead) (by simp [unsupported]) fun s hs _ => ?_
  refine ⟨resultsOf_keepsControl .streamRead s, ?_⟩
  obtain ⟨v, i, bs, hresults⟩ := streamReadResults_eq hs.stream.cacheValid
  have hcount : min s.regs.readLen.toNat (s.stream.ssel.hLen * (2 ^ 32 - 1) - s.stream.pos)
      = s.stream.available s.regs.readLen.toNat := rfl
  simp only [resultsOf, hcount]
  rw [hresults]
  have hlen := s.stream.slice_length s.hmac s.stream.pos (s.stream.available s.regs.readLen.toNat)
  refine ⟨fun m hm => ?_, ?_, rfl, s.stream.available_toNat _, ⟨v, i, bs, rfl⟩, ⟨fun _ => rfl, fun _ => rfl⟩,
    fun _ => rfl, rfl⟩
  · rw [State.complete_out, Mem.read_writeBytes, if_pos (by omega)]
    exact s.stream.slice_getD s.hmac s.stream.pos hm
  · exact fun x hx => Mem.read_writeBytes_outside s.out (by rwa [hlen])

/-- Settles O43: the bytes of the second read follow those of the first, and the counts add up. -/
theorem chunkedReadsAgree : Obligations.ChunkedReadsAgree := by
  unfold Obligations.ChunkedReadsAgree
  intro s n1 n2 hs hopen hlen
  obtain ⟨-, -, -, -, ⟨-, hout⟩, -⟩ := (Params.wf_iff s.cfg).mp hs.cfg
  have hsum : (n1 + n2).toNat = n1.toNat + n2.toNat := by
    rw [BitVec.toNat_add, Nat.mod_eq_of_lt (by omega)]
  obtain ⟨t1, _, _, _, hexec1, hs1, hcfg1, -, hout1, hstream1⟩ := exec_streamRead hs hopen (n := n1) (by omega)
  obtain ⟨t2, _, _, _, hexec2, -, -, -, hout2, hstream2⟩ :=
    exec_streamRead hs1 (by rw [hstream1]; exact hopen) (n := n2) (by rw [hcfg1]; omega)
  obtain ⟨t, _, _, _, hexec, -, -, -, hout, hstream⟩ := exec_streamRead hs hopen (n := n1 + n2) (by omega)
  have hcount : s.stream.available (n1 + n2).toNat = s.stream.available n1.toNat + t1.stream.available n2.toNat := by
    rw [hstream1, hsum]
    simp only [Stream.available]
    omega
  have hhmac : t1.hmac = s.hmac := State.hmac_congr hcfg1
  refine ⟨t1, t2, t, hexec1, hexec2, hexec, ?_, ?_⟩
  · rw [hout1, hout2, hout, hcount, Stream.slice_add, hhmac, hstream1]
    rfl
  · rw [hstream2, hstream, hcount, hstream1, Nat.add_assoc]

/-- Settles O44: OPEN_SCRYPT opens the stream on the effective salt at position 0, whose domain is longer than OUT. -/
theorem computeKeyThroughTheEngine : Obligations.ComputeKeyThroughTheEngine := by
  unfold Obligations.ComputeKeyThroughTheEngine
  intro s hs hrow hlen
  obtain ⟨t, hexec, hfin, -, -, hopen, hkey, hsalt, hiter, hsel, hpos, -⟩ := (openScryptCommand s hs).2 hrow
  obtain ⟨-, -, -, -, ⟨-, hout⟩, -⟩ := (Params.wf_iff s.cfg).mp hs.cfg
  have hread := exec_streamRead (exec_sound hs hexec) hopen (n := s.regs.readLen) (by rwa [hfin.cfg])
  obtain ⟨u, _, _, _, hexec', -, -, hcount, hbytes, -⟩ := hread
  rw [← hfin.regs] at hexec'
  have hall : t.stream.available s.regs.readLen.toNat = s.regs.readLen.toNat := by
    have hdomain : 2 ^ 16 ≤ domainLen t.stream.ssel := by cases t.stream.ssel <;> decide
    rw [Stream.available, hpos]
    omega
  have hhmac : t.hmac = s.hmac := State.hmac_congr hfin.cfg
  rw [hall] at hcount hbytes
  refine ⟨t, u, hexec, hexec', BitVec.eq_of_toNat_eq hcount, ?_⟩
  rw [hcount] at hbytes
  rw [hbytes, computeKey, pbkdf2_eq_map, hhmac, hpos]
  simp only [Stream.slice, Stream.byteAt, hkey, hsalt, hiter, hsel, Nat.zero_add]
  rfl

end Sys2Proof.Machine
end

section
/-! SUPPORT. The bits of STATUS, ERR_CODE and the split 64-bit registers (R24, R25, R35), the operand registers one
against another (R27 to R34), and the bytes of a window as little-endian numbers and words (R48, R52). -/

namespace Sys2Proof.Machine

/-! ## STATUS and ERR_CODE (R24, R25) -/

theorem State.busy_iff (s : State) : s.busy = true ↔ ∃ cw, s.engine = .running cw := by
  unfold State.busy
  split
  next he => simp [he]
  next cw he => simp [he]

theorem State.statusWord_flags (s : State) : s.statusWord.getLsbD 1 = s.done ∧ s.statusWord.getLsbD 2 = s.err
    ∧ s.statusWord.getLsbD 3 = s.overrun ∧ s.statusWord.getLsbD 4 = s.stream.isOpen := by
  simp only [State.statusWord, BitVec.getLsbD_append]
  simp

/-- STATUS reads 0 from bit 6 on. -/
theorem State.statusWord_high (s : State) {i : Nat} (hi : 6 ≤ i) : s.statusWord.getLsbD i = false := by
  simp only [State.statusWord, BitVec.getLsbD_append]
  iterate 6 rw [if_neg (by omega)]
  exact BitVec.getLsbD_zero

/-- A write-one-to-clear bit: cleared by a written 1, kept by a written 0. -/
theorem and_not_eq_ite (b c : Bool) : (b && !c) = if c then false else b := by cases c <;> simp

theorem State.errCodeWord_toNat (s : State) : s.errCodeWord.toNat = s.errOpc.toNat * 2 ^ 8 + s.errCode.toNat := by
  rw [State.errCodeWord, BitVec.toNat_append, BitVec.toNat_append, ← Nat.shiftLeft_add_eq_or_of_lt s.errCode.isLt,
    Nat.shiftLeft_eq]
  simp

theorem State.errCodeWord_fields (s : State) : s.errCodeWord.extractLsb' 0 8 = s.errCode
    ∧ s.errCodeWord.extractLsb' 8 8 = s.errOpc ∧ s.errCodeWord.toNat / 2 ^ 16 = 0 := by
  have hcode := s.errCode.isLt
  have hopc := s.errOpc.isLt
  simp only [← BitVec.toNat_inj, BitVec.extractLsb'_toNat, Nat.shiftRight_eq_div_pow, s.errCodeWord_toNat]
  omega

/-! ## Numbers split over two registers (R35) -/

/-- The high and the low word of a number below 2^64 make up the number. -/
theorem words_of_split {n : Nat} (hn : n < 2 ^ 64) :
    (BitVec.ofNat 32 (n / 2 ^ 32)).toNat * 2 ^ 32 + (BitVec.ofNat 32 n).toNat = n := by
  simp only [BitVec.toNat_ofNat]
  omega

/-- The high word of a number below 2^63 has its top bit clear. -/
theorem highWord_getLsbD {n : Nat} (hn : n < 2 ^ 63) : (BitVec.ofNat 32 (n / 2 ^ 32)).getLsbD 31 = false := by
  have hlt : n / 2 ^ 32 < 2 ^ 31 := by omega
  simp only [BitVec.getLsbD_ofNat, Nat.testBit_lt_two_pow hlt, Bool.and_false]

theorem State.streamLen_eq (s : State) : s.streamLen
    = if s.stream.isOpen then (if s.stream.ssel = .sha256 then 32 else 64) * (2 ^ 32 - 1) else 0 := by
  rw [State.streamLen, domainLen]
  cases s.stream.ssel <;> rfl

theorem State.streamLen_lt (s : State) : s.streamLen < 2 ^ 64 := by
  rw [State.streamLen_eq]
  split
  · split <;> decide
  · decide

/-! ## One operand register and the others (R27 to R34) -/

/-- A write to one operand register changes the reading of no other register: each reads its own field. -/
theorem readCsr_write_other {s : State} {v : Word} {reg other : Csr} {g : OperandRegs} (r : Option Response)
    (hg : s.regs.write s.cfg v reg = some g) (hne : other ≠ reg) :
    State.readCsr { s with regs := g, resp := r } other = s.readCsr other := by
  cases reg <;> cases hg <;> cases other <;> first | exact absurd rfl hne | rfl

/-- What an operand register reads after a write to it while IDLE. -/
theorem readsAs_operand {s : State} (hc : s.cfg.wf = true) (he : s.engine = .idle) {v : Word} (reg : Csr)
    {g : OperandRegs} (hg : s.regs.write s.cfg v reg = some g) :
    ReadsAs (hostWrite .four reg.offset v s) reg.offset (State.readCsr { s with regs := g } reg) := by
  rw [hostWrite_operand_idle hc he hg]
  exact readsAs_csr (s := { s with regs := g, resp := some ⟨true, 0⟩ }) hc reg

/-- ROUNDS reads the low byte of what was written. -/
theorem lowByte_eq_and (v : Word) : (0#24 ++ v.extractLsb' 0 8 : Word) = v &&& 0xFF := by
  apply BitVec.eq_of_toNat_eq
  rw [BitVec.toNat_and, BitVec.toNat_append, BitVec.extractLsb'_toNat]
  exact (Nat.zero_or _).trans (Nat.and_two_pow_sub_one_eq_mod v.toNat 8).symm

/-- The operand registers' offsets of R50 beside CMD. -/
theorem exists_operand_of_mem {off : Nat} (hoff : off ∈ droppedOffsets) (hcmd : off ≠ 0x020) (c : Params) (v : Word)
    (g : OperandRegs) : ∃ reg g', reg.offset = off ∧ g.write c v reg = some g' := by
  obtain ⟨reg, rfl⟩ := exists_csr_of_mem_droppedOffsets hoff
  obtain rfl | ⟨g', hg⟩ := (Csr.offset_mem_droppedOffsets_iff c v g reg).mp hoff
  · exact absurd rfl hcmd
  · exact ⟨reg, g', rfl, hg⟩

/-! ## The bytes of a window (R48, R52) -/

theorem Mem.readBytes_succ (m : Mem) (a n : Nat) : m.readBytes a (n + 1) = m.read a :: m.readBytes (a + 1) n := by
  simp [Mem.readBytes, List.range_succ_eq_map, Function.comp_def, Nat.add_assoc, Nat.add_comm 1]

theorem byteSum_succ (m : Mem) (a n : Nat) : byteSum m a (n + 1) = byteSum m (a + 1) n * 2 ^ 8 + (m.read a).toNat := by
  have hterm (k : Nat) : (m.read (a + (k + 1))).toNat * 2 ^ (8 * (k + 1))
      = (m.read (a + 1 + k)).toNat * 2 ^ (8 * k) * 2 ^ 8 := by
    rw [Nat.mul_assoc, ← Nat.pow_add, Nat.mul_succ, Nat.add_assoc a 1 k, Nat.add_comm 1 k]
  simp only [byteSum, List.range_succ_eq_map, List.map_cons, List.map_map, List.sum_cons, Function.comp_def,
    Nat.succ_eq_add_one, hterm, List.sum_map_mul_right]
  simp [Nat.add_comm]

/-- Bytes up to a word's are read as their little-endian sum. -/
theorem leValue_readBytes (m : Mem) (a : Nat) {n : Nat} (hn : n ≤ 4) :
    (leValue (m.readBytes a n)).toNat = byteSum m a n ∧ byteSum m a n < 2 ^ (8 * n) := by
  induction n generalizing a with
  | zero => exact ⟨rfl, Nat.one_pos⟩
  | succ n ih =>
    obtain ⟨hval, hlt⟩ := ih (a + 1) (by omega)
    have hbyte := (m.read a).isLt
    have hpow : 2 ^ (8 * (n + 1)) = 2 ^ (8 * n) * 2 ^ 8 := by rw [← Nat.pow_add, Nat.mul_succ]
    have hword : 2 ^ (8 * (n + 1)) ≤ 2 ^ 32 := Nat.pow_le_pow_right (by decide) (by omega)
    rw [Mem.readBytes_succ, byteSum_succ]
    refine ⟨?_, by omega⟩
    rw [leValue, BitVec.toNat_or, BitVec.toNat_shiftLeft, hval, BitVec.toNat_setWidth, Nat.shiftLeft_eq,
      Nat.mod_eq_of_lt (by omega), Nat.mod_eq_of_lt (by omega), Nat.mul_comm, Nat.two_pow_add_eq_or_of_lt hbyte]

theorem AccessSize.bytes_le (size : AccessSize) : size.bytes ≤ 4 := by cases size <;> decide

theorem State.readValue_window_idle {s : State} (he : s.engine = .idle) (size : AccessSize) (w : Window) (off : Nat) :
    s.readValue size (.window w off) = leValue ((s.window w).readBytes off size.bytes) := by
  simp only [State.readValue, he]

theorem State.writeValue_window_idle {s : State} (he : s.engine = .idle) (size : AccessSize) (v : Word) (w : Window)
    (off : Nat) : s.writeValue size v (.window w off)
      = s.setWindow w ((s.window w).writeBytes off (lowBytes size.bytes v)) := by
  simp only [State.writeValue, he]

/-- Byte k of a written value lies at offset k of the write. -/
theorem Mem.read_writeBytes_lowBytes (m : Mem) (a : Nat) (v : Word) {n k : Nat} (hk : k < n) :
    (m.writeBytes a (lowBytes n v)).read (a + k) = v.extractLsb' (8 * k) 8 := by
  rw [Mem.read_writeBytes, lowBytes_length, if_pos (by omega), Nat.add_sub_cancel_left]
  simp [lowBytes, List.getD, hk]

/-- The word at an offset of a space: four bytes, the first the least significant. -/
def Mem.wordAt (m : Mem) (x : Nat) : Word := m.read (x + 3) ++ m.read (x + 2) ++ m.read (x + 1) ++ m.read x

/-- Word i of the LEWords view of a range is the word at the i-th multiple of 4. -/
theorem leWords_readBytes_getD (m : Mem) (a : Nat) {n i : Nat} (hi : 4 * i + 4 ≤ n) :
    (leWords (m.readBytes a n)).getD i 0 = m.wordAt (a + 4 * i) := by
  induction i generalizing a n with
  | zero =>
    obtain ⟨d, rfl⟩ := Nat.exists_eq_add_of_le' hi
    simp only [Mem.readBytes_succ, leWords, List.getD_cons_zero]
    rfl
  | succ i ih =>
    obtain ⟨d, rfl⟩ := Nat.exists_eq_add_of_le' (show 4 ≤ n by omega)
    simp only [Mem.readBytes_succ, leWords, List.getD_cons_succ]
    rw [ih (a + 1 + 1 + 1 + 1) (by omega)]
    congr 1
    omega

/-- A write of four bytes sets the word at its offset. -/
theorem Mem.wordAt_writeBytes_same (m : Mem) (x : Nat) (v : Word) :
    (m.writeBytes x (lowBytes 4 v)).wordAt x = v := by
  have hbyte (k : Nat) (hk : k < 4) := Mem.read_writeBytes_lowBytes m x v hk
  have hfirst := hbyte 0 (by decide)
  rw [Nat.add_zero] at hfirst
  rw [Mem.wordAt, hbyte 3 (by decide), hbyte 2 (by decide), hbyte 1 (by decide), hfirst]
  exact le32_word v

/-- A write of four bytes leaves a word apart from it. -/
theorem Mem.wordAt_writeBytes_other (m : Mem) {x y : Nat} (v : Word) (h : y + 4 ≤ x ∨ x + 4 ≤ y) :
    (m.writeBytes x (lowBytes 4 v)).wordAt y = m.wordAt y := by
  have hkept (k : Nat) (hk : k < 4) : (m.writeBytes x (lowBytes 4 v)).read (y + k) = m.read (y + k) :=
    Mem.read_writeBytes_outside m (by rw [lowBytes_length]; omega)
  have hfirst := hkept 0 (by decide)
  rw [Nat.add_zero] at hfirst
  rw [Mem.wordAt, hkept 3 (by decide), hkept 2 (by decide), hkept 1 (by decide), hfirst, ← Mem.wordAt]

theorem leValue_singleton (v : Byte) : leValue [v] = v.setWidth 32 := by simp [leValue]

end Sys2Proof.Machine
end

section
/-! Settles the statements about what the host reads and writes: STATUS, the operand registers, the results and the
windows (R24, R27 to R35, R48, R55). -/

namespace Sys2Proof.Machine

/-- Settles O45: STATUS bit by bit, and a write as the clearing of its three bits. -/
theorem statusRegister : Obligations.StatusRegister := by
  unfold Obligations.StatusRegister
  intro s hc
  obtain ⟨hdone, herr, hoverrun, hopen⟩ := s.statusWord_flags
  refine ⟨⟨s.statusWord, readsAs_csr hc .status, ?_, hdone, herr, hoverrun, hopen, s.statusWord_irq,
    fun i => s.statusWord_high⟩, fun v => ?_⟩
  · rw [s.statusWord_busy, s.busy_iff]
  · have hwrite : hostWrite .four 0x024 v s = (s.writeStatus v).respond true 0 := hostWrite_csr hc .status v
    simp only [hwrite, State.writeStatus, State.respond, and_not_eq_ite]

/-- Settles O48: register by register what is read back, and that a write to one operand register is read in no
other. -/
theorem operandRegistersReadBack : Obligations.OperandRegistersReadBack := by
  unfold Obligations.OperandRegistersReadBack
  intro s v hc he
  have hback (reg : Csr) {g : OperandRegs} (hg : s.regs.write s.cfg v reg = some g) := readsAs_operand hc he reg hg
  refine ⟨?_, ?_, fun off hoff => ?_⟩
  · simp only [List.forall_mem_cons, List.not_mem_nil, false_implies, implies_true, and_true]
    exact ⟨hback .n rfl, hback .r rfl, hback .p rfl, hback .maxThreads rfl, hback .iter rfl, hback .keyLen rfl,
      hback .saltLen rfl, hback .lane rfl, hback .readLen rfl, hback .seekOffLo rfl, hback .seekOffHi rfl⟩
  · exact lowByte_eq_and v ▸ hback .rounds rfl
  · obtain ⟨reg, g, rfl, hg⟩ := exists_operand_of_mem (List.mem_cons_of_mem _ hoff)
      (by rintro rfl; exact absurd hoff (by decide)) s.cfg v s.regs
    rw [hostWrite_operand_idle hc he hg]
    refine ⟨⟨g, rfl⟩, fun k w hk hne hw => ?_⟩
    cases hr : csrAt (4 * k) with
    | none =>
      rw [hw.unique (readsAs_reserved hc (by omega) (by omega) hr)]
      exact readsAs_reserved (s := { s with regs := g, resp := some ⟨true, 0⟩ }) hc (by omega) (by omega) hr
    | some other =>
      have hother : 4 * k = other.offset := csrAt_eq_some_iff.mp hr
      have hdiff : other ≠ reg := by rintro rfl; exact hne hother
      rw [hother] at hw ⊢
      rw [hw.unique (readsAs_csr hc other), ← readCsr_write_other (some ⟨true, 0⟩) hg hdiff]
      exact readsAs_csr (s := { s with regs := g, resp := some ⟨true, 0⟩ }) hc other

/-- Settles O52: an aligned access to backed bytes reaches them, and their value is their little-endian sum. -/
theorem windowAccessesUseLittleEndianLanes : Obligations.WindowAccessesUseLittleEndianLanes := by
  unfold Obligations.WindowAccessesUseLittleEndianLanes
  intro s w off size hc he ha hb
  refine ⟨⟨_, hostRead_window hc ha hb, ?_⟩, fun v =>
    ⟨(s.window w).writeBytes off (lowBytes size.bytes v), ?_, fun k => Mem.read_writeBytes_lowBytes _ off v, ?_⟩⟩
  · rw [State.readValue_window_idle he]
    exact (leValue_readBytes _ off (AccessSize.bytes_le size)).1
  · rw [hostWrite_window hc v ha hb, State.writeValue_window_idle he]
  · exact fun x hx => Mem.read_writeBytes_outside _ (by rwa [lowBytes_length])

/-- Settles O55: the write sets the four bytes of word k and no other, and each is read back by itself. -/
theorem wordAndByteViewsAgree : Obligations.WordAndByteViewsAgree := by
  unfold Obligations.WordAndByteViewsAgree
  intro s k v hc he hk
  have hwrite : hostWrite .four (0x100000 + 4 * k) v s
      = { s with b := s.b.writeBytes (4 * k) (lowBytes 4 v), resp := some ⟨true, 0⟩ } := by
    refine (hostWrite_window (w := .b) (size := .four) hc v (Nat.mul_mod_right 4 k) hk).trans ?_
    rw [State.writeValue_window_idle he]
    rfl
  generalize ht : hostWrite .four (0x100000 + 4 * k) v s = t at hwrite
  have hcfg : t.cfg = s.cfg := by rw [hwrite]
  have hidle : t.engine = .idle := by rw [hwrite]; exact he
  have hb : t.b = s.b.writeBytes (4 * k) (lowBytes 4 v) := by rw [hwrite]
  refine ⟨t, rfl, ?_, fun i hi hib => ?_, fun j hj => ?_⟩
  · rw [hb, leWords_readBytes_getD _ _ hk, Nat.zero_add]
    exact Mem.wordAt_writeBytes_same s.b (4 * k) v
  · rw [hb, leWords_readBytes_getD _ _ hib, leWords_readBytes_getD _ _ hib]
    exact Mem.wordAt_writeBytes_other s.b v (by omega)
  · have hbacked : 4 * k + j + 1 ≤ t.cfg.bBytes := by rw [hcfg]; omega
    have hread := hostRead_window (w := .b) (size := .one) (hcfg ▸ hc) (Nat.mod_one (4 * k + j)) hbacked
    rw [State.readValue_window_idle hidle] at hread
    rw [Nat.add_assoc, ← Mem.read_writeBytes_lowBytes s.b (4 * k) v hj, ← hb, ← leValue_singleton]
    exact hread

/-- Settles O60: each result register by what it reads, the 64-bit ones by their two words, and their writes ignored. -/
theorem resultRegistersRead : Obligations.ResultRegistersRead := by
  unfold Obligations.ResultRegistersRead
  intro s hs
  have hread (reg : Csr) : ReadsAs s reg.offset (s.readCsr reg) := readsAs_csr hs.cfg reg
  have hignored (reg : Csr) (h : ∀ v, s.writeCsr reg v = s) (v : Word) :
      hostWrite .four reg.offset v s = s.respond true 0 := by rw [hostWrite_csr hs.cfg, h]
  have hpos := hs.stream.pos
  refine ⟨hread .cmd, ⟨_, hread .errCode, s.errCodeWord_fields⟩, hread .readCount,
    ⟨_, _, hread .posLo, hread .posHi, words_of_split (by omega), highWord_getLsbD hpos⟩,
    ⟨_, _, hread .slenLo, hread .slenHi, (words_of_split s.streamLen_lt).trans s.streamLen_eq⟩, ?_⟩
  simp only [List.forall_mem_cons, List.not_mem_nil, false_implies, implies_true, and_true]
  exact ⟨hignored .errCode fun _ => rfl, hignored .readCount fun _ => rfl, hignored .posLo fun _ => rfl,
    hignored .posHi fun _ => rfl, hignored .slenLo fun _ => rfl, hignored .slenHi fun _ => rfl⟩

end Sys2Proof.Machine
end
